-- ==== Sys2Proof/Word.lean ====
section
/-! DEFINITION. The word and byte types of AISCODEC-1 (00_scope.md R7: `W_NATIVE` = 32; R9: bit 0 is the least
significant bit of a register). -/

namespace Sys2Proof

/-- A register, operand or bus-data value: 32 bits (R7, R9). -/
abbrev Word := BitVec 32

/-- One byte of a string register, BUF, TXT or PAY. -/
abbrev Byte := BitVec 8

end Sys2Proof
end

