-- ==== Sys2Proof/Syntax.lean ====
section
/-! DEFINITION. The command set of AISCODEC-1: one constructor for each row of spec/opcode_table.json, with the
operands the command word itself carries for that operation (30_encoding.md R111, R112). -/

namespace Sys2Proof

/-- CTRL.SEL for TXTDEC and TXTENC: 0 = STR0, 1 = STR1, 2 = STR2, 3 = PAY (30_encoding.md R115). -/
inductive Sel
  | str0
  | str1
  | str2
  | pay
  deriving DecidableEq, Repr

/-- CTRL.UNITS for MSGDEC and MSGENC: 0 = the SOG fields hold the wire value, 1 = km/h (43_message_codec.md R236). -/
inductive Units
  | wire
  | kmh
  deriving DecidableEq, Repr

/-- A command (30_encoding.md R111, R123). A CTRL field that an operation's row of R111 does not list is no operand of
it (R112). -/
inductive Instr
  /-- OP 0x00 (R145). -/
  | nop
  /-- OP 0x01: unsigned field read (R146). -/
  | getu
  /-- OP 0x02: signed field read (R147). -/
  | gets
  /-- OP 0x03: unsigned field write (R148). -/
  | setu
  /-- OP 0x04: signed field write (R149). -/
  | sets
  /-- OP 0x05: fresh buffer (R150). -/
  | bufclr
  /-- OP 0x08: armor character to value (R175). -/
  | a2v
  /-- OP 0x09: value to armor character (R176). -/
  | v2a
  /-- OP 0x0A: armor text to bytes (R177). -/
  | armdec
  /-- OP 0x0B: bytes to armor text (R178). -/
  | armenc
  /-- OP 0x0C: character to text value (R179). -/
  | t2v
  /-- OP 0x0D: text value to character (R180). -/
  | v2t
  /-- OP 0x0E: decode a text field into a string register or PAY (R181). -/
  | txtdec (sel : Sel)
  /-- OP 0x0F: encode a string register or PAY into a text field (R182). -/
  | txtenc (sel : Sel)
  /-- OP 0x10: checksum of the text buffer (R203). -/
  | cksum
  /-- OP 0x11: wrap the bit buffer into a sentence (R204). -/
  | frame
  /-- OP 0x12: strip the framing and unpack the payload (R205). -/
  | unframe
  /-- OP 0x20: decode the bit buffer into a record (R233). -/
  | msgdec (mtype : Nat) (units : Units)
  /-- OP 0x21: encode a record into the bit buffer (R234). -/
  | msgenc (mtype : Nat) (units : Units)
  /-- OP 0x30: speed wire value to km/h (R284). -/
  | sog2kmh
  /-- OP 0x31: km/h to speed wire value (R285). -/
  | kmh2sog
  /-- OP 0x32: resolve a base-station timestamp (R286). -/
  | tsresolve
  /-- CTRL.SRST: soft reset (70_reset_and_hazards.md R342). -/
  | srst
  deriving DecidableEq, Repr

end Sys2Proof
end

