-- ==== Sys2Proof/WellFormed.lean ====
section
/-! DEFINITION. Which terms of `Instr` are commands of AISCODEC-1. MTYPE is a 6-bit field (30_encoding.md R112,
R114); every other operand's type already holds exactly the values its field can carry. -/

namespace Sys2Proof

/-- A message id fits the MTYPE field (30_encoding.md R112: "MTYPE (6-bit unsigned)"). -/
abbrev mtypeFits (m : Nat) : Bool := m < 64

/-- The check of a command's operands. -/
def Instr.wellFormed : Instr → Bool
  | .msgdec m _ => mtypeFits m
  | .msgenc m _ => mtypeFits m
  | .nop => true
  | .getu => true
  | .gets => true
  | .setu => true
  | .sets => true
  | .bufclr => true
  | .a2v => true
  | .v2a => true
  | .armdec => true
  | .armenc => true
  | .t2v => true
  | .v2t => true
  | .txtdec _ => true
  | .txtenc _ => true
  | .cksum => true
  | .frame => true
  | .unframe => true
  | .sog2kmh => true
  | .kmh2sog => true
  | .tsresolve => true
  | .srst => true

end Sys2Proof
end

