-- ==== Sys2Proof/Decode.lean ====
section
/-! DEFINITION. Decoding a word written to CTRL into a command (30_encoding.md R110, R111, R113, R123), and the
encoder written from the same tables. -/

namespace Sys2Proof

/-- Why a word is no command (R123). -/
inductive Reject
  /-- START = 0 and SRST = 0: no command, only the store of R110. -/
  | noCommand
  /-- A launch whose OP is reserved (R113). The launch completes with BAD_OP. -/
  | reservedOp (op : BitVec 8)
  deriving DecidableEq, Repr

/-- SEL[1:0] (R115). -/
def decodeSel (b : BitVec 2) : Sel :=
  match b.toNat with
  | 0 => .str0
  | 1 => .str1
  | 2 => .str2
  | _ => .pay

/-- UNITS (43_message_codec.md R236). -/
def decodeUnits (b : BitVec 1) : Units :=
  match b.toNat with
  | 0 => .wire
  | _ => .kmh

/-- The operation map of R111, by OP; the other three fields are the operands it lists. -/
def decodeOp (op : BitVec 8) (mtype : BitVec 6) (sel : BitVec 2) (units : BitVec 1) : Except Reject Instr :=
  match op.toNat with
  | 0x00 => .ok .nop
  | 0x01 => .ok .getu
  | 0x02 => .ok .gets
  | 0x03 => .ok .setu
  | 0x04 => .ok .sets
  | 0x05 => .ok .bufclr
  | 0x08 => .ok .a2v
  | 0x09 => .ok .v2a
  | 0x0A => .ok .armdec
  | 0x0B => .ok .armenc
  | 0x0C => .ok .t2v
  | 0x0D => .ok .v2t
  | 0x0E => .ok (.txtdec (decodeSel sel))
  | 0x0F => .ok (.txtenc (decodeSel sel))
  | 0x10 => .ok .cksum
  | 0x11 => .ok .frame
  | 0x12 => .ok .unframe
  | 0x20 => .ok (.msgdec mtype.toNat (decodeUnits units))
  | 0x21 => .ok (.msgenc mtype.toNat (decodeUnits units))
  | 0x30 => .ok .sog2kmh
  | 0x31 => .ok .kmh2sog
  | 0x32 => .ok .tsresolve
  | _ => .error (.reservedOp op)

/-- CTRL.OP, bits 7:0 (R110). -/
def fieldOp (w : Word) : BitVec 8 := w.extractLsb' 0 8

/-- CTRL.MTYPE, bits 13:8 (R110). -/
def fieldMtype (w : Word) : BitVec 6 := w.extractLsb' 8 6

/-- CTRL.SEL, bits 17:16 (R110). -/
def fieldSel (w : Word) : BitVec 2 := w.extractLsb' 16 2

/-- CTRL.UNITS, bit 20 (R110). -/
def fieldUnits (w : Word) : BitVec 1 := w.extractLsb' 20 1

/-- CTRL.SRST, bit 30 (R110). -/
def fieldSrst (w : Word) : Bool := w.getLsbD 30

/-- CTRL.START, bit 31 (R110). -/
def fieldStart (w : Word) : Bool := w.getLsbD 31

/-- R123: SRST wins whatever the other bits hold; else START launches the operation OP; else no command. -/
def decode (w : Word) : Except Reject Instr :=
  if fieldSrst w then .ok .srst
  else if fieldStart w then decodeOp (fieldOp w) (fieldMtype w) (fieldSel w) (fieldUnits w)
  else .error .noCommand

/-- The decoder on an instruction whose bits are `w`, numbered as spec/opcode_table.json numbers them: a command is
one 32-bit word (R116), so no instruction has more bits than 32. -/
def decodeTableWord (nbits w : Nat) : Option Instr :=
  if nbits ≤ 32 then
    match decode (BitVec.ofNat 32 (w % 2 ^ nbits)) with
    | .ok i => some i
    | .error _ => none
  else none

/-! The encoder. -/

/-- A launch word laid out as R110's table lays it out, reserved bits 0. -/
def launchWord (op : BitVec 8) (mtype : BitVec 6) (sel : BitVec 2) (units : BitVec 1) : Word :=
  (1#1 : BitVec 1) ++ (0#1 : BitVec 1) ++ (0#9 : BitVec 9) ++ units ++ (0#2 : BitVec 2) ++ sel ++ (0#2 : BitVec 2) ++
    mtype ++ op

/-- SEL values (R115). -/
def encodeSel : Sel → BitVec 2
  | .str0 => 0
  | .str1 => 1
  | .str2 => 2
  | .pay => 3

/-- UNITS values (43_message_codec.md R236). -/
def encodeUnits : Units → BitVec 1
  | .wire => 0
  | .kmh => 1

/-- The word of a command (R111, R121 `op`, R123); fields an operation does not use are written 0. -/
def encode : Instr → Word
  | .nop => launchWord 0x00 0 0 0
  | .getu => launchWord 0x01 0 0 0
  | .gets => launchWord 0x02 0 0 0
  | .setu => launchWord 0x03 0 0 0
  | .sets => launchWord 0x04 0 0 0
  | .bufclr => launchWord 0x05 0 0 0
  | .a2v => launchWord 0x08 0 0 0
  | .v2a => launchWord 0x09 0 0 0
  | .armdec => launchWord 0x0A 0 0 0
  | .armenc => launchWord 0x0B 0 0 0
  | .t2v => launchWord 0x0C 0 0 0
  | .v2t => launchWord 0x0D 0 0 0
  | .txtdec k => launchWord 0x0E 0 (encodeSel k) 0
  | .txtenc k => launchWord 0x0F 0 (encodeSel k) 0
  | .cksum => launchWord 0x10 0 0 0
  | .frame => launchWord 0x11 0 0 0
  | .unframe => launchWord 0x12 0 0 0
  | .msgdec m u => launchWord 0x20 (BitVec.ofNat 6 m) 0 (encodeUnits u)
  | .msgenc m u => launchWord 0x21 (BitVec.ofNat 6 m) 0 (encodeUnits u)
  | .sog2kmh => launchWord 0x30 0 0 0
  | .kmh2sog => launchWord 0x31 0 0 0
  | .tsresolve => launchWord 0x32 0 0 0
  | .srst => 0x40000000#32

end Sys2Proof
end

