-- ==== Sys2Proof/Config.lean ====
section
/-! DEFINITION. What an implementation of AISCODEC-1 fixes (00_scope.md R7) and the one value the spec leaves free
(20_memory.md R90). -/

namespace Sys2Proof.Config

/-- `W_FIELD_MAX`: the widest bit field (R7). -/
abbrev fieldMax : Nat := 32

/-- `P_BUF_BYTES` (R7). -/
abbrev bufBytes : Nat := 1024

/-- `P_TXT_BYTES` (R7). -/
abbrev txtBytes : Nat := 2048

/-- `P_PAY_BYTES` (R7). -/
abbrev payBytes : Nat := 2048

/-- `P_STR_BYTES` (R7). -/
abbrev strBytes : Nat := 32

/-- `CAP_T6`: payload bytes of a type 6 message on encode (R7). -/
abbrev capT6 : Nat := 117

/-- `CAP_T8`: payload bytes of a type 8 message on encode (R7). -/
abbrev capT8 : Nat := 121

/-- `CAP_T12`: text characters of a type 12 message on encode (R7). -/
abbrev capT12 : Nat := 156

/-- `CAP_T14`: text characters of a type 14 message on encode (R7; 93_implementation_defined.md I10). -/
abbrev capT14 : Nat := 967

/-- The size of the aperture: offsets 0x0000..0x1FFF are decoded (20_memory.md R80). -/
abbrev apertureBytes : Nat := 0x2000

/-- The constant the ID register reads as (10_state.md R31). -/
abbrev idWord : Word := 0x41495301#32

/-- The free draw of 20_memory.md R90: what a host read of an output returns while BUSY = 1. It has no body, so
nothing can be proved of its value; the step applies it to the counter `State.draws`, a fresh draw for each such
read (DESIGN CHOICE of the form, log 4). -/
opaque busyRead : Nat → Word

end Sys2Proof.Config
end

