-- ==== Sys2Proof/Machine/State.lean ====
section
/-! DEFINITION. The state of AISCODEC-1 as plain data (10_state.md R30..R59), the reasons a step can stop, and the
state right after a power-on reset (R58). Fields marked MODEL are the model's own; the spec names every other one. -/

namespace Sys2Proof.Machine

open Sys2Proof

/-! ## The fields of the control and status registers -/

/-- The error codes held in STATUS.ECODE (60_exceptions.md R304). The reserved values 8..15 are never produced, so
they have no constructor. -/
inductive ECode
  | none
  | badOp
  | badWidth
  | bitRange
  | armorChar
  | lenOverflow
  | frameFormat
  | unsupported
  deriving DecidableEq, Repr

/-- The absence reasons held in STATUS.AREASON (60_exceptions.md R307). -/
inductive AReason
  | none
  | empty
  | short
  | idMismatch
  | unknownId
  deriving DecidableEq, Repr

/-- CTRL (10_state.md R32). START and SRST are write-1 actions that read 0 and hold nothing; reserved bits hold
nothing (R56). -/
structure Ctrl where
  op : BitVec 8
  mtype : BitVec 6
  sel : BitVec 2
  units : BitVec 1
  deriving DecidableEq, Repr

/-- STATUS (10_state.md R33). -/
structure Status where
  busy : Bool
  done : Bool
  err : Bool
  absent : Bool
  werr : Bool
  ecode : ECode
  areason : AReason
  deriving DecidableEq, Repr

/-- INTEN (10_state.md R35). -/
structure IntEn where
  doneIe : Bool
  errIe : Bool
  deriving DecidableEq, Repr

/-- CFG (10_state.md R38). -/
structure Cfg where
  armorLax : Bool
  armorMin : Bool
  bsFix : Bool
  airId13 : Bool
  deriving DecidableEq, Repr

/-- One STRk_CTL register (10_state.md R43): LEN in 0..32 and PRESENT. -/
structure StrCtl where
  len : Nat
  present : Bool
  deriving DecidableEq, Repr

/-- NOW0 (10_state.md R44). -/
structure Now0 where
  year : BitVec 16
  month : BitVec 8
  day : BitVec 8
  deriving DecidableEq, Repr

/-- NOW1 (10_state.md R45). -/
structure Now1 where
  hour : BitVec 8
  minute : BitVec 8
  second : BitVec 8
  deriving DecidableEq, Repr

/-- The three string registers (10_state.md R48). -/
inductive StrReg
  | str0
  | str1
  | str2
  deriving DecidableEq, Repr

/-! ## The engine's hidden state -/

/-- ENG.phase (10_state.md R34). -/
inductive EngPhase
  | idle
  | run
  deriving DecidableEq, Repr

/-- The phases of the codec's state machine for a model at cycle level (43_message_codec.md R232). -/
inductive Fsm
  | check
  | xfer
  | tail
  | commit
  | absent
  | error
  deriving DecidableEq, Repr

/-- ENG (10_state.md R34), with R232's phase beside it: hidden, and no host observation depends on `fsm` or `idx`
(DEDUCED reading of R34 with R232, log 7). -/
structure Eng where
  phase : EngPhase
  fsm : Fsm
  idx : Nat
  deriving DecidableEq, Repr

/-! ## Memory and the bus -/

/-- The byte arrays STR0..STR2, BUF, TXT and PAY as one list of (offset, byte) pairs: offsets from BASE, strictly
rising, no entry equal to what an unlisted byte reads as (`Memory.wf`). CSRs and REC are fields of `State`. -/
abbrev Memory := List Host.Cell

/-- The width of a host access (20_memory.md R82). -/
inductive Width
  | w8
  | w16
  | w32
  | w64
  deriving DecidableEq, Repr

/-- One host access at an offset from BASE (20_memory.md R80). Only the low 8 bits of `data` are stored by an 8-bit
write; a 16-bit or 64-bit access is refused whatever its data (R83). -/
inductive Access
  | read (w : Width) (off : Nat)
  | write (w : Width) (off : Nat) (data : Word)
  deriving DecidableEq, Repr

/-- The bus's answer to a host access (70_reset_and_hazards.md R362, 20_memory.md R83). -/
inductive Resp
  /-- No access has been made yet. -/
  | none
  /-- A write was accepted, ignored or dropped: no bus error. -/
  | done
  /-- A read was accepted and returned this data. -/
  | data (v : Word)
  /-- The access was refused: an error response, with this read data (0). -/
  | error (v : Word)
  /-- The block gave no answer, so the platform's bus gives its own (log 9, log 10): RST_N was asserted (R340), or the
  address lies outside the aperture (20_memory.md R80). -/
  | noDevice
  deriving DecidableEq, Repr

/-- MODEL. What moves next (70_reset_and_hazards.md R363, R340). The list of turns in `State.turns` is an input: every
interleaving and every latency is some list (log 1, log 6). -/
inductive Turn
  /-- A host step: one access. -/
  | host (a : Access)
  /-- An engine step that only advances hidden ENG state. -/
  | engineAdvance
  /-- An engine step that completes the running operation. -/
  | engineComplete
  /-- RST_N falls. -/
  | rstAssert
  /-- RST_N rises; REC and the arrays hold these contents, which the spec leaves unspecified (R340, R59). -/
  | rstRelease (recs : Vector Word 32) (cells : List Host.Cell)
  deriving DecidableEq, Repr

/-! ## The state -/

/-- Everything 10_state.md R30 gives the block, and the model's own fields. -/
structure State where
  /-- CTRL (R32). -/
  ctrl : Ctrl
  /-- STATUS (R33). -/
  status : Status
  /-- INTEN (R35). -/
  inten : IntEn
  /-- START (R36). -/
  start : Word
  /-- WIDTH (R36). -/
  width : Word
  /-- VALUE (R36). -/
  value : Word
  /-- RESULT (R37). -/
  result : Word
  /-- BUF_LEN, 0..1024 (R39). -/
  bufLen : Nat
  /-- TXT_LEN, 0..2048 (R40). -/
  txtLen : Nat
  /-- PAY_LEN, 0..2048 (R41). -/
  payLen : Nat
  /-- ERRINFO (R42). -/
  errinfo : Word
  /-- STR0_CTL (R43). -/
  str0 : StrCtl
  /-- STR1_CTL (R43). -/
  str1 : StrCtl
  /-- STR2_CTL (R43). -/
  str2 : StrCtl
  /-- NOW0 (R44). -/
  now0 : Now0
  /-- NOW1 (R45). -/
  now1 : Now1
  /-- CFG (R38). -/
  cfg : Cfg
  /-- REC[0..31] (R47). -/
  recs : Vector Word 32
  /-- The bytes of STR0..STR2, BUF, TXT and PAY (R48..R51). -/
  mem : Memory
  /-- ENG (R34). -/
  eng : Eng
  /-- The level of RST_N: true when deasserted (70_reset_and_hazards.md R340). -/
  rstN : Bool
  /-- MODEL. The environment's schedule still to come, first turn first (log 1). -/
  turns : List Turn
  /-- MODEL. The bus's answer to the last host access (log 12). -/
  resp : Resp
  /-- MODEL. How many free draws of 20_memory.md R90 have been made (log 4). -/
  draws : Nat
  deriving DecidableEq, Repr

/-- Why the machine stops: the spec gives AISCODEC-1 no way to stop (60_exceptions.md R301, R306, R310), so there is no
fault. -/
inductive Fault
  deriving DecidableEq, Repr

/-- Why a command has no meaning in the model. -/
inductive Refusal
  /-- Raised by `exec` for an instruction the model gives no meaning: none in this model. Safe. -/
  | notModelled (mnemonic : String)
  deriving DecidableEq, Repr

/-- ENG when no operation runs: phase IDLE, index 0 (10_state.md R58). -/
def Eng.idle : Eng := { phase := .idle, fsm := .check, idx := 0 }

/-- ENG when an operation has just been launched (60_exceptions.md R300(c); 43_message_codec.md R232: the state machine
starts in CHECK). -/
def Eng.launched : Eng := { phase := .run, fsm := .check, idx := 0 }

/-- CTRL after either reset (10_state.md R58). -/
def Ctrl.reset : Ctrl := { op := 0, mtype := 0, sel := 0, units := 0 }

/-- STATUS after either reset (10_state.md R58). -/
def Status.reset : Status :=
  { busy := false, done := false, err := false, absent := false, werr := false, ecode := .none, areason := .none }

/-- INTEN after either reset (10_state.md R58). -/
def IntEn.reset : IntEn := { doneIe := false, errIe := false }

/-- CFG after either reset (10_state.md R58). -/
def Cfg.reset : Cfg := { armorLax := false, armorMin := false, bsFix := false, airId13 := false }

/-- STRk_CTL after either reset, and as MSGDEC clears it (10_state.md R58, 43_message_codec.md R233). -/
def StrCtl.reset : StrCtl := { len := 0, present := false }

/-- NOW0 after either reset (10_state.md R58). -/
def Now0.reset : Now0 := { year := 0, month := 0, day := 0 }

/-- NOW1 after either reset (10_state.md R58). -/
def Now1.reset : Now1 := { hour := 0, minute := 0, second := 0 }

/-- The machine right after a power-on reset, RST_N just released (10_state.md R58, 70_reset_and_hazards.md R340).
REC is 0 here and no array byte is listed: DESIGN CHOICES for values R59 leaves unspecified (log 2, log 3). -/
def State.reset : State :=
  { ctrl := Ctrl.reset
    status := Status.reset
    inten := IntEn.reset
    start := 0
    width := 0
    value := 0
    result := 0
    bufLen := 0
    txtLen := 0
    payLen := 0
    errinfo := 0
    str0 := StrCtl.reset
    str1 := StrCtl.reset
    str2 := StrCtl.reset
    now0 := Now0.reset
    now1 := Now1.reset
    cfg := Cfg.reset
    recs := Vector.replicate 32 0
    mem := []
    eng := Eng.idle
    rstN := true
    turns := []
    resp := .none
    draws := 0 }

end Sys2Proof.Machine
end

