-- ==== Sys2Proof/Machine/Flags.lean ====
section
/-! DEFINITION. The flags: STATUS, what each event does to it, and the interrupt output (10_state.md R33, R55, R57;
60_exceptions.md R300, R301, R304, R307, R309). AISCODEC has no arithmetic condition codes (R57). -/

namespace Sys2Proof.Machine

open Sys2Proof

/-- The value of STATUS.ECODE (60_exceptions.md R304). -/
def ECode.code : ECode → BitVec 4
  | .none => 0
  | .badOp => 1
  | .badWidth => 2
  | .bitRange => 3
  | .armorChar => 4
  | .lenOverflow => 5
  | .frameFormat => 6
  | .unsupported => 7

/-- The value of STATUS.AREASON (60_exceptions.md R307). -/
def AReason.code : AReason → BitVec 4
  | .none => 0
  | .empty => 1
  | .short => 2
  | .idMismatch => 3
  | .unknownId => 4

/-- STATUS as the host reads it (10_state.md R33): reserved bits read 0. -/
def Status.toWord (t : Status) : Word :=
  (0#16 : BitVec 16) ++ t.areason.code ++ t.ecode.code ++ (0#3 : BitVec 3) ++ BitVec.ofBool t.werr ++
    BitVec.ofBool t.absent ++ BitVec.ofBool t.err ++ BitVec.ofBool t.done ++ BitVec.ofBool t.busy

/-- A launch (60_exceptions.md R300(b), (c)): DONE, ERR, ABSENT, ECODE and AREASON cleared, BUSY set, WERR unchanged. -/
def Status.launched (t : Status) : Status :=
  { busy := true, done := false, err := false, absent := false, werr := t.werr, ecode := .none, areason := .none }

/-- Completion with success (R301): BUSY 0, DONE 1, no error and no absence, WERR unchanged. On a launched state this
is R301's "ECODE stays 0" (DEDUCED, log 8). -/
def Status.succeeded (t : Status) : Status :=
  { busy := false, done := true, err := false, absent := false, werr := t.werr, ecode := .none, areason := .none }

/-- Completion with an error (R301): ERR 1 and ECODE the code (log 8). -/
def Status.failed (e : ECode) (t : Status) : Status :=
  { busy := false, done := true, err := true, absent := false, werr := t.werr, ecode := e, areason := .none }

/-- Completion with absence (R301): ABSENT 1 and AREASON the reason, ERR 0 (log 8). -/
def Status.wentAbsent (r : AReason) (t : Status) : Status :=
  { busy := false, done := true, err := false, absent := true, werr := t.werr, ecode := .none, areason := r }

/-- A host write to STATUS (R33): writing 1 to DONE, ERR or WERR clears it; ECODE and AREASON keep their values. -/
def Status.acknowledged (w : Word) (t : Status) : Status :=
  { t with
    done := t.done && !w.getLsbD 1
    err := t.err && !w.getLsbD 2
    werr := t.werr && !w.getLsbD 4 }

/-- A host write was dropped because BUSY was 1 (70_reset_and_hazards.md R352(d)). -/
def Status.writeDropped (t : Status) : Status := { t with werr := true }

/-- The interrupt output (10_state.md R55): `(DONE & DONE_IE) | ((ERR | WERR) & ERR_IE)`. -/
def State.irq (s : State) : Bool :=
  (s.status.done && s.inten.doneIe) || ((s.status.err || s.status.werr) && s.inten.errIe)

end Sys2Proof.Machine
end

