-- ==== Sys2Proof/Machine/Ops.lean ====
section
/-! DEFINITION. The shared operations over memory, the bit stream and the registers, and the three ways an operation
completes: success, error, absence (60_exceptions.md R301, R302). -/

namespace Sys2Proof.Machine

open Sys2Proof

/-! ## Bytes -/

/-- What an unlisted byte of STR0..STR2, BUF, TXT or PAY reads as. The spec leaves the power-on contents unspecified
(10_state.md R59): DESIGN CHOICE 0 (log 3). -/
def unlistedByte : Byte := 0

/-- The one canonical form of a memory: addresses strictly rising, and no entry equal to what an unlisted byte reads
as. -/
def Memory.wf : Memory → Bool
  | [] => true
  | (k, b) :: m => b != unlistedByte && m.all (fun c => k < c.1) && Memory.wf m

/-- Read the byte at an offset. -/
def readByte : Memory → Nat → Byte
  | [], _ => unlistedByte
  | (k, b) :: m, a => if a = k then b else readByte m a

/-- Write the byte at an offset, keeping the canonical form. -/
def writeByte : Memory → Nat → Byte → Memory
  | [], a, b => if b = unlistedByte then [] else [(a, b)]
  | (k, x) :: m, a, b =>
    if a < k then
      if b = unlistedByte then (k, x) :: m else (a, b) :: (k, x) :: m
    else if a = k then
      if b = unlistedByte then m else (a, b) :: m
    else (k, x) :: writeByte m a b

/-- The `n` bytes from offset `a` on. -/
def readBytes (m : Memory) (a : Nat) : Nat → List Byte
  | 0 => []
  | n + 1 => readByte m a :: readBytes m (a + 1) n

/-- Write the bytes in order from offset `a` on. -/
def writeBytes (m : Memory) (a : Nat) : List Byte → Memory
  | [] => m
  | b :: bs => writeBytes (writeByte m a b) (a + 1) bs

/-- Write 0 to the `n` bytes from offset `a` on. -/
def zeroBytes (m : Memory) (a : Nat) (n : Nat) : Memory :=
  if unlistedByte = 0 then m.filter (fun c => c.1 < a || a + n ≤ c.1)
  else writeBytes m a (List.replicate n 0)

/-! ## Where the arrays stand (20_memory.md R81) -/

/-- Byte offset of STR0[0], STR1[0] and STR2[0]. -/
def strBase : StrReg → Nat
  | .str0 => 0x180
  | .str1 => 0x1A0
  | .str2 => 0x1C0

/-- Byte offset of BUF[0]. -/
abbrev bufBase : Nat := 0x400

/-- Byte offset of TXT[0]. -/
abbrev txtBase : Nat := 0x800

/-- Byte offset of PAY[0]. -/
abbrev payBase : Nat := 0x1000

/-- The offsets that hold array bytes: STR0..STR2, BUF, TXT and PAY. -/
def inArray (a : Nat) : Bool := (0x180 ≤ a && a < 0x1E0) || (0x400 ≤ a && a < 0x1800)

/-- Every listed byte lies in an array (20_memory.md R97). -/
def Memory.inArrays (m : Memory) : Bool := m.all (fun c => inArray c.1)

/-! ## Bits as lists, most significant first (00_scope.md R8, R9) -/

/-- The low `w` bits of `v`, most significant first. -/
def natBits : Nat → Nat → List Bool
  | 0, _ => []
  | w + 1, v => v.testBit w :: natBits w v

/-- The unsigned value of a bit list, most significant first: R141's `v = (v << 1) | bit`. -/
def bitsNat (bs : List Bool) : Nat := bs.foldl (fun v b => 2 * v + b.toNat) 0

/-- Cut a bit list into `n` groups of `k` bits, zeros standing for bits past its end (41_armor_text.md R163, R164), and
take each group's value. -/
def groups (k : Nat) : Nat → List Bool → List Nat
  | 0, _ => []
  | n + 1, bs => bitsNat ((bs ++ List.replicate k false).take k) :: groups k n (bs.drop k)

/-! ## The bit stream of BUF (00_scope.md R8, R10; 40_bitaccess.md R141..R144) -/

/-- `x` with its bit `i` replaced by `b`. -/
def putBit (x : Byte) (i : Nat) (b : Bool) : Byte :=
  if b then x ||| (1#8 <<< i) else x &&& ~~~(1#8 <<< i)

/-- `BitRd(k)`: bit `7 - k mod 8` of `BUF[k div 8]`. -/
def bitRd (m : Memory) (k : Nat) : Bool := (readByte m (bufBase + k / 8)).getLsbD (7 - k % 8)

/-- `BitWr(k, b)`: replaces only that bit. -/
def bitWr (m : Memory) (k : Nat) (b : Bool) : Memory :=
  writeByte m (bufBase + k / 8) (putBit (readByte m (bufBase + k / 8)) (7 - k % 8) b)

/-- Stream bits `s .. s + n - 1`. -/
def getBits (m : Memory) (s : Nat) : Nat → List Bool
  | 0 => []
  | n + 1 => bitRd m s :: getBits m (s + 1) n

/-- Write stream bits from `s` on. -/
def setBits (m : Memory) (s : Nat) : List Bool → Memory
  | [] => m
  | b :: bs => setBits (bitWr m s b) (s + 1) bs

/-- `getUnsigned(s, w)` (R141). It reads back what `setUnsigned` wrote, and no other field's write touches it: R151(a) and (c),
proved as `getUnsigned_setUnsigned_same` and `getUnsigned_setUnsigned_disjoint`. -/
def getUnsigned (m : Memory) (s w : Nat) : Word := BitVec.ofNat 32 (bitsNat (getBits m s w))

/-- `sext_32(v, w)` (00_scope.md R10): bit `w - 1` copied into bits 31..w. -/
def signExtendFrom (w : Nat) (v : Word) : Word :=
  if v.getLsbD (w - 1) then v ||| (BitVec.allOnes 32 <<< w) else v

/-- `getSigned(s, w)` (R142). It reads back what `setSigned` wrote: R151(b), proved as `getSigned_setSigned_same`. -/
def getSigned (m : Memory) (s w : Nat) : Word := signExtendFrom w (getUnsigned m s w)

/-- `setUnsigned(s, w, v)` (R143): the low `w` bits of `v`; no other bit of BUF changes. -/
def setUnsigned (m : Memory) (s w : Nat) (v : Word) : Memory := setBits m s (natBits w v.toNat)

/-- `setSigned(s, w, v)` (R144): `setUnsigned` of the two's-complement pattern. -/
def setSigned (m : Memory) (s w : Nat) (v : Word) : Memory := setUnsigned m s w v

/-! ## Registers -/

/-- `REC[i]` (10_state.md R47). -/
def readRec (s : State) (i : Fin 32) : Word := s.recs.get i

/-- `REC[i] <- v`. -/
def writeRec (i : Fin 32) (v : Word) (s : State) : State := { s with recs := s.recs.set i v }

/-- `STRk_CTL` (10_state.md R43). -/
def strCtl (s : State) : StrReg → StrCtl
  | .str0 => s.str0
  | .str1 => s.str1
  | .str2 => s.str2

/-- `STRk_CTL <- c`. -/
def writeStrCtl (k : StrReg) (c : StrCtl) (s : State) : State :=
  match k with
  | .str0 => { s with str0 := c }
  | .str1 => { s with str1 := c }
  | .str2 => { s with str2 := c }

/-- `BUF[0..BUF_LEN-1]`. -/
def bufContents (s : State) : List Byte := readBytes s.mem bufBase s.bufLen

/-- `TXT[0..TXT_LEN-1]`. -/
def txtContents (s : State) : List Byte := readBytes s.mem txtBase s.txtLen

/-- `PAY[0..PAY_LEN-1]`. -/
def payContents (s : State) : List Byte := readBytes s.mem payBase s.payLen

/-- `STRk[0..LEN-1]`. -/
def strContents (s : State) (k : StrReg) : List Byte := readBytes s.mem (strBase k) (strCtl s k).len

/-- `BUF[0..n-1] <- bs ; BUF_LEN <- n`; BUF bytes at index ≥ n are unchanged. -/
def loadBuf (bs : List Byte) (s : State) : State :=
  { s with mem := writeBytes s.mem bufBase bs, bufLen := bs.length }

/-- `TXT[0..n-1] <- bs ; TXT_LEN <- n`; TXT bytes at index ≥ n are unchanged. -/
def loadTxt (bs : List Byte) (s : State) : State :=
  { s with mem := writeBytes s.mem txtBase bs, txtLen := bs.length }

/-- `PAY[0..n-1] <- bs ; PAY_LEN <- n`; PAY bytes at index ≥ n are unchanged. -/
def loadPay (bs : List Byte) (s : State) : State :=
  { s with mem := writeBytes s.mem payBase bs, payLen := bs.length }

/-- `STRk[0..n-1] <- bs ; STRk_CTL.LEN <- n ; STRk_CTL.PRESENT <- 1`. -/
def loadStr (k : StrReg) (bs : List Byte) (s : State) : State :=
  writeStrCtl k { len := bs.length, present := true } { s with mem := writeBytes s.mem (strBase k) bs }

/-- `RESULT <- v`. -/
def setResult (v : Word) (s : State) : State := { s with result := v }

/-! ## Launch, the three completions, and the host's acknowledgement -/

/-- The CTRL fields a written word carries (10_state.md R32). -/
def Ctrl.ofWord (w : Word) : Ctrl :=
  { op := fieldOp w, mtype := fieldMtype w, sel := fieldSel w, units := fieldUnits w }

/-- The command latch as the launching word it was written by, reserved bits 0 (10_state.md R34: "The operation being
run is held in CTRL.OP/MTYPE/SEL/UNITS"). -/
def Ctrl.launchedWord (c : Ctrl) : Word := launchWord c.op c.mtype c.sel c.units

/-- Launch (60_exceptions.md R300): the fields stored, STATUS cleared and BUSY set, ENG.phase = RUN, as one event. -/
def launch (w : Word) (s : State) : State :=
  { s with ctrl := Ctrl.ofWord w, status := s.status.launched, eng := Eng.launched }

/-- Completion with success (R301): the effect's writes with BUSY 0, DONE 1 and ENG idle. -/
def succeed (s : State) : State := { s with status := s.status.succeeded, eng := Eng.idle }

/-- `raise ECODE(info)` (00_scope.md R10, 60_exceptions.md R301, R302, R305): the one shared way an operation ends in an
error. Nothing is committed: only STATUS and ERRINFO change (and hidden ENG returns to IDLE). -/
def raise (e : ECode) (info : Word) (s : State) : State :=
  { s with status := s.status.failed e, errinfo := info, eng := Eng.idle }

/-- `absent(reason)` (R301, R307, R308): nothing is committed, ERRINFO keeps its word. -/
def goAbsent (r : AReason) (s : State) : State :=
  { s with status := s.status.wentAbsent r, eng := Eng.idle }

/-- The host's "return" from a completion (60_exceptions.md R310): the write-1-to-clear of STATUS. -/
def acknowledge (w : Word) (s : State) : State := { s with status := s.status.acknowledged w }

/-- An operation's end: the first failing check if there is one, else success with the effect (R302, R303). -/
def conclude (failing : Option (ECode × Word)) (effect : State) (s : State) : Host.Outcome State Fault Refusal :=
  match failing with
  | some (e, info) => .next (raise e info s)
  | none => .next (succeed effect)

end Sys2Proof.Machine
end

