-- ==== Sys2Proof/Machine/Operands.lean ====
section
/-! DEFINITION. The operand forms: what an operation reads its operands from, and the checks on them that several
operations share (30_encoding.md R112; 40_bitaccess.md R140; 41_armor_text.md R171). -/

namespace Sys2Proof.Machine

open Sys2Proof

/-- `s = START`, a stream bit offset, on unbounded integers (R140). -/
def startBit (s : State) : Nat := s.start.toNat

/-- `w = WIDTH`, a field width in bits, on unbounded integers. -/
def fieldWidth (s : State) : Nat := s.width.toNat

/-- `VALUE[7:0]` (41_armor_text.md R175, R179). -/
def valueByte (s : State) : Byte := s.value.extractLsb' 0 8

/-- `VALUE[5:0]` (41_armor_text.md R176, R180). -/
def valueSextet (s : State) : Nat := (s.value.extractLsb' 0 6).toNat

/-- `if s + w > 8 * L: raise BIT_RANGE(s)`, on unbounded integers (R140, R181, R182). -/
def rangeCheck (s : State) : Option (ECode × Word) :=
  if startBit s + fieldWidth s > 8 * s.bufLen then some (.bitRange, s.start) else none

/-- The range check of a stream field (R140): BAD_WIDTH, then BIT_RANGE. -/
def fieldCheck (s : State) : Option (ECode × Word) :=
  if fieldWidth s < 1 ∨ fieldWidth s > Config.fieldMax then some (.badWidth, s.width) else rangeCheck s

/-- `w div 6`, the number of characters of a text field (41_armor_text.md R170, R171). -/
def fieldChars (s : State) : Nat := fieldWidth s / 6

/-- The literal `UNKNOWN` an absent string defaults to (41_armor_text.md R171). -/
def unknownText : List Byte := [0x55, 0x4E, 0x4B, 0x4E, 0x4F, 0x57, 0x4E]

/-- The text of a string register as a source: `UNKNOWN` if PRESENT = 0, else `STRk[0..LEN-1]` (R171). -/
def strSource (s : State) (k : StrReg) : List Byte :=
  if (strCtl s k).present then strContents s k else unknownText

/-- The source string chosen by SEL (R171): a string register, or PAY with no default. -/
def textSource (s : State) : Sel → List Byte
  | .str0 => strSource s .str0
  | .str1 => strSource s .str1
  | .str2 => strSource s .str2
  | .pay => payContents s

/-- The target chosen by SEL (R181): a string register with LEN and PRESENT, or PAY with PAY_LEN. -/
def storeText (k : Sel) (x : List Byte) (s : State) : State :=
  match k with
  | .str0 => loadStr .str0 x s
  | .str1 => loadStr .str1 x s
  | .str2 => loadStr .str2 x s
  | .pay => loadPay x s

/-- TXTDEC's capacity check (R181): `if k < 3 and n > 32: raise LEN_OVERFLOW(n)`. -/
def textCapacityCheck (k : Sel) (s : State) : Option (ECode × Word) :=
  match k with
  | .pay => none
  | .str0 | .str1 | .str2 =>
    if fieldChars s > Config.strBytes then some (.lenOverflow, BitVec.ofNat 32 (fieldChars s)) else none

end Sys2Proof.Machine
end

