-- ==== Sys2Proof/Machine/BitAccess.lean ====
section
/-! DEFINITION. The bitstream accessor operations (40_bitaccess.md R145..R150). -/

namespace Sys2Proof.Machine

open Sys2Proof

/-- NOP (R145): no effect. -/
def execNop (s : State) : Host.Outcome State Fault Refusal := .next (succeed s)

/-- GETU (R146): `check R140(s, w) ; RESULT <- getUnsigned(s, w)`. -/
def execGetu (s : State) : Host.Outcome State Fault Refusal :=
  conclude (fieldCheck s) (setResult (getUnsigned s.mem (startBit s) (fieldWidth s)) s) s

/-- GETS (R147): `check R140(s, w) ; RESULT <- getSigned(s, w)`. -/
def execGets (s : State) : Host.Outcome State Fault Refusal :=
  conclude (fieldCheck s) (setResult (getSigned s.mem (startBit s) (fieldWidth s)) s) s

/-- SETU (R148): `check R140(s, w) ; setUnsigned(s, w, v)`. -/
def execSetu (s : State) : Host.Outcome State Fault Refusal :=
  conclude (fieldCheck s) { s with mem := setUnsigned s.mem (startBit s) (fieldWidth s) s.value } s

/-- SETS (R149): `check R140(s, w) ; setSigned(s, w, v)`. -/
def execSets (s : State) : Host.Outcome State Fault Refusal :=
  conclude (fieldCheck s) { s with mem := setSigned s.mem (startBit s) (fieldWidth s) s.value } s

/-- BUFCLR (R150): `if n > 1024: raise LEN_OVERFLOW(n)`, else all of BUF zero and `BUF_LEN <- n`. -/
def execBufclr (s : State) : Host.Outcome State Fault Refusal :=
  conclude (if s.value.toNat > Config.bufBytes then some (.lenOverflow, s.value) else none)
    { s with mem := zeroBytes s.mem bufBase Config.bufBytes, bufLen := s.value.toNat } s

end Sys2Proof.Machine
end

