-- ==== Sys2Proof/Machine/ArmorText.lean ====
section
/-! DEFINITION. The armor codec and the text alphabet (41_armor_text.md R160..R182). -/

namespace Sys2Proof.Machine

open Sys2Proof

/-! ## The armor alphabet -/

/-- Armor value to character (R160): `c = v + 48`, then `+ 8` if `c > 87`. -/
def armorChar (v : Nat) : Byte :=
  BitVec.ofNat 8 (if v + 48 > 87 then v + 48 + 8 else v + 48)

/-- The armor alphabet: bytes 48..87 and 96..119 (R161, R162). -/
def armorValid (c : Byte) : Bool := (48 ≤ c.toNat && c.toNat ≤ 87) || (96 ≤ c.toNat && c.toNat ≤ 119)

/-- R161's formula, on integers: `v = c - 48`, then `- 8` if `v > 39`. -/
def armorFormula (c : Byte) : Int :=
  if (c.toNat : Int) - 48 > 39 then (c.toNat : Int) - 48 - 8 else (c.toNat : Int) - 48

/-- Armor character to value (R161): the formula for a valid character, the formula mod 64 for any other (which is
reached only with CFG.ARMOR_LAX = 1). -/
def armorValue (c : Byte) : Nat :=
  if armorValid c then (armorFormula c).toNat else (armorFormula c % 64).toNat

/-- The least index `≥ j` of a byte outside the armor alphabet, with the byte. -/
def firstInvalid (j : Nat) : List Byte → Option (Nat × Byte)
  | [] => none
  | c :: cs => if armorValid c then firstInvalid (j + 1) cs else some (j, c)

/-- ERRINFO of ARMOR_CHAR: `(c << 16) | j` (60_exceptions.md R305). -/
def armorCharInfo (c : Byte) (j : Nat) : Word := (c.setWidth 32 <<< 16) ||| BitVec.ofNat 32 j

/-- The ARMOR_CHAR check (R161, R177, R205): with CFG.ARMOR_LAX = 0, the first invalid character of `cs`, whose first
byte has index `j` in TXT. -/
def armorCheck (cfg : Cfg) (j : Nat) (cs : List Byte) : Option (ECode × Word) :=
  if cfg.armorLax then none
  else match firstInvalid j cs with
    | some (i, c) => some (.armorChar, armorCharInfo c i)
    | none => none

/-- `ceil(6n / 8)`, the bytes that n armor characters unpack to (R163). -/
def unpackedLen (n : Nat) : Nat := (6 * n + 7) / 8

/-- `decodeArmor(c[0..n-1])` (R163): the 6-bit values, MSB first, cut into bytes, the last byte filled with zeros. -/
def decodeArmor (cs : List Byte) : List Byte :=
  (groups 8 (unpackedLen cs.length) (cs.flatMap (fun c => natBits 6 (armorValue c)))).map (BitVec.ofNat 8)

/-- The number of armor characters of L bytes (R164): `4 * ceil(L / 3)`, or `ceil(8L / 6)` with CFG.ARMOR_MIN = 1. -/
def armorLen (armorMin : Bool) (l : Nat) : Nat :=
  if armorMin then (8 * l + 5) / 6 else 4 * ((l + 2) / 3)

/-- `encodeArmor(B[0..L-1])` (R164). -/
def encodeArmor (armorMin : Bool) (bs : List Byte) : List Byte :=
  (groups 6 (armorLen armorMin bs.length) (bs.flatMap (fun b => natBits 8 b.toNat))).map armorChar

/-- The checks of unpacking the characters `cs` that stand at TXT index `j` on: LEN_OVERFLOW, then ARMOR_CHAR (R177,
42_checksum_frame.md R205). -/
def unpackCheck (cfg : Cfg) (j : Nat) (cs : List Byte) : Option (ECode × Word) :=
  if unpackedLen cs.length > Config.bufBytes then some (.lenOverflow, BitVec.ofNat 32 (unpackedLen cs.length))
  else armorCheck cfg j cs

/-! ## The text alphabet -/

/-- `textChar(v) = TEXT_ALPHA[v]` for a 6-bit v (R166, R167). -/
def textChar (v : Nat) : Byte := BitVec.ofNat 8 (if v < 32 then 0x40 + v else v)

/-- `upcase(c)` (R169): ASCII `a`..`z` only. -/
def upcase (c : Byte) : Byte := if 0x61 ≤ c.toNat ∧ c.toNat ≤ 0x7A then c - 0x20 else c

/-- TEXT_ALPHA[0..63] (10_state.md R53, R166). -/
def textAlpha : List Byte := (List.range 64).map textChar

/-- `textValue(c)` (R168): the index in TEXT_ALPHA of the upcased character, 63 (`?`) if it has none. -/
def textValue (c : Byte) : Nat :=
  match textAlpha.findIdx? (fun x => x = upcase c) with
  | some i => i
  | none => 63

/-- Drop trailing spaces (R170): only 0x20, only at the end. -/
def trimRight (x : List Byte) : List Byte := (x.reverse.dropWhile (fun c => c = 0x20)).reverse

/-- `decodeText(s, w)` (R170). -/
def decodeText (m : Memory) (s w : Nat) : List Byte :=
  trimRight ((List.range (w / 6)).map (fun i => textChar (getUnsigned m (s + 6 * i) 6).toNat))

/-- The `n` characters `encodeText` writes (R171): upcased, then truncated or padded with spaces. -/
def fitText (n : Nat) (x : List Byte) : List Byte :=
  if n ≤ x.length then (x.map upcase).take n else x.map upcase ++ List.replicate (n - x.length) 0x20

/-- Write 6-bit values from stream bit `s` on. -/
def setSextets (m : Memory) (s : Nat) : List Nat → Memory
  | [] => m
  | v :: vs => setSextets (setUnsigned m s 6 (BitVec.ofNat 32 v)) (s + 6) vs

/-- `encodeText(s, w, x)` (R171): stream bits `s + 6n .. s + w - 1` are unchanged. -/
def encodeText (m : Memory) (s w : Nat) (x : List Byte) : Memory :=
  setSextets m s ((fitText (w / 6) x).map textValue)

/-! ## The operations -/

/-- A2V (R175): `RESULT <- zext_32(armorValue(c))`; ERRINFO `(c << 16) | 0`. -/
def execA2v (s : State) : Host.Outcome State Fault Refusal :=
  conclude (armorCheck s.cfg 0 [valueByte s]) (setResult (BitVec.ofNat 32 (armorValue (valueByte s))) s) s

/-- V2A (R176): `RESULT <- zext_32(armorChar(v))`. -/
def execV2a (s : State) : Host.Outcome State Fault Refusal :=
  conclude none (setResult ((armorChar (valueSextet s)).setWidth 32) s) s

/-- ARMDEC (R177). -/
def execArmdec (s : State) : Host.Outcome State Fault Refusal :=
  conclude (unpackCheck s.cfg 0 (txtContents s)) (loadBuf (decodeArmor (txtContents s)) s) s

/-- ARMENC (R178). -/
def execArmenc (s : State) : Host.Outcome State Fault Refusal :=
  conclude none (loadTxt (encodeArmor s.cfg.armorMin (bufContents s)) s) s

/-- T2V (R179): `RESULT <- zext_32(textValue(c))`. -/
def execT2v (s : State) : Host.Outcome State Fault Refusal :=
  conclude none (setResult (BitVec.ofNat 32 (textValue (valueByte s))) s) s

/-- V2T (R180): `RESULT <- zext_32(textChar(v))`. -/
def execV2t (s : State) : Host.Outcome State Fault Refusal :=
  conclude none (setResult ((textChar (valueSextet s)).setWidth 32) s) s

/-- TXTDEC (R181): BIT_RANGE, then LEN_OVERFLOW, then the decoded text stored and `RESULT <- m`. -/
def execTxtdec (k : Sel) (s : State) : Host.Outcome State Fault Refusal :=
  let x := decodeText s.mem (startBit s) (fieldWidth s)
  conclude ((rangeCheck s).or (textCapacityCheck k s))
    (setResult (BitVec.ofNat 32 x.length) (storeText k x s)) s

/-- TXTENC (R182): BIT_RANGE, then `encodeText(s, w, source(k)) ; RESULT <- w div 6`. -/
def execTxtenc (k : Sel) (s : State) : Host.Outcome State Fault Refusal :=
  conclude (rangeCheck s)
    (setResult (BitVec.ofNat 32 (fieldChars s))
      { s with mem := encodeText s.mem (startBit s) (fieldWidth s) (textSource s k) }) s

end Sys2Proof.Machine
end

