-- ==== Sys2Proof/Machine/ChecksumFrame.lean ====
section
/-! DEFINITION. The checksum and the sentence framer (42_checksum_frame.md R200..R205). -/

namespace Sys2Proof.Machine

open Sys2Proof

/-- The leading marker `$` or `!` is skipped at index 0 only (R200). -/
def dropMarker : List Byte → List Byte
  | [] => []
  | c :: cs => if c = 0x24 ∨ c = 0x21 then cs else c :: cs

/-- The XOR of the bytes before the first `*` (R200). -/
def xorToStar (acc : Byte) : List Byte → Byte
  | [] => acc
  | c :: cs => if c = 0x2A then acc else xorToStar (acc ^^^ c) cs

/-- `checksum(x[0..n-1])` (R200). -/
def checksum (x : List Byte) : Byte := xorToStar 0 (dropMarker x)

/-- `hexDigit(d)` (R201). -/
def hexDigit (d : BitVec 4) : Byte :=
  if d.toNat ≤ 9 then 0x30 + d.setWidth 8 else 0x41 + (d.setWidth 8 - 10)

/-- `hex2(cs)[0]`, the high nibble's digit (R201). -/
def hexHigh (cs : Byte) : Byte := hexDigit (cs.extractLsb' 4 4)

/-- `hex2(cs)[1]`, the low nibble's digit (R201). -/
def hexLow (cs : Byte) : Byte := hexDigit (cs.extractLsb' 0 4)

/-- CKSUM's RESULT for a checksum (R203): second digit, first digit, value. -/
def checksumResult (cs : Byte) : Word := (0#8 : BitVec 8) ++ hexLow cs ++ hexHigh cs ++ cs

/-- `PREFIX = !AIVDM,1,1,,A,` (R202). -/
def framePrefix : List Byte :=
  [0x21, 0x41, 0x49, 0x56, 0x44, 0x4D, 0x2C, 0x31, 0x2C, 0x31, 0x2C, 0x2C, 0x41, 0x2C]

/-- `MID = ,0` (R202). -/
def frameMid : List Byte := [0x2C, 0x30]

/-- `S = PREFIX ++ P ++ MID` of FRAME (R204). -/
def frameBody (armorMin : Bool) (bs : List Byte) : List Byte :=
  framePrefix ++ encodeArmor armorMin bs ++ frameMid

/-- `T = S ++ STAR ++ hex2(cs) ++ EOL` of FRAME (R202, R204). -/
def sentence (body : List Byte) : List Byte :=
  body ++ [0x2A, hexHigh (checksum body), hexLow (checksum body), 0x0D, 0x0A]

/-- The indices `≥ j` of the commas, in increasing order (R205). -/
def commaIndices (j : Nat) : List Byte → List Nat
  | [] => []
  | c :: cs => if c = 0x2C then j :: commaIndices (j + 1) cs else commaIndices (j + 1) cs

/-- The payload's bounds `(a, b)`: after the fifth comma, before the sixth (R205); none if there are fewer. -/
def payloadBounds (commas : List Nat) : Option (Nat × Nat) :=
  match commas with
  | _ :: _ :: _ :: _ :: fifth :: sixth :: _ => some (fifth + 1, sixth)
  | _ => none

/-- CKSUM (R203). -/
def execCksum (s : State) : Host.Outcome State Fault Refusal :=
  conclude none (setResult (checksumResult (checksum (txtContents s))) s) s

/-- FRAME (R204). -/
def execFrame (s : State) : Host.Outcome State Fault Refusal :=
  let body := frameBody s.cfg.armorMin (bufContents s)
  conclude none (setResult (checksumResult (checksum body)) (loadTxt (sentence body) s)) s

/-- UNFRAME's effect on a payload at TXT[a..b-1] (R205): LEN_OVERFLOW, then ARMOR_CHAR, then the unpacked bytes and
`RESULT <- (m << 16) | a`. -/
def unframePayload (a b : Nat) (s : State) : Host.Outcome State Fault Refusal :=
  let payload := readBytes s.mem (txtBase + a) (b - a)
  conclude (unpackCheck s.cfg a payload)
    (setResult ((BitVec.ofNat 32 (b - a) <<< 16) ||| BitVec.ofNat 32 a) (loadBuf (decodeArmor payload) s)) s

/-- UNFRAME (R205): FRAME_FORMAT with the number of commas found, or the payload unpacked. -/
def execUnframe (s : State) : Host.Outcome State Fault Refusal :=
  let commas := commaIndices 0 (txtContents s)
  match payloadBounds commas with
  | some (a, b) => unframePayload a b s
  | none => .next (raise .frameFormat (BitVec.ofNat 32 commas.length) s)

end Sys2Proof.Machine
end

