-- ==== Sys2Proof/Machine/Layout.lean ====
section
/-! DEFINITION. The layout ROM and the constants that drive the message codec (43_message_codec.md R220..R231, R235,
R240..R251). The bit offsets are the spec's (R240, 92_eei_decisions.md D15). -/

namespace Sys2Proof.Machine

open Sys2Proof

/-- The layouts of R221. -/
inductive Layout
  | lA
  | lBS
  | l5
  | l6
  | l8
  | l9
  | l10
  | l12
  | l14
  | l18
  | l19
  deriving DecidableEq, Repr

/-- A layout descriptor (R220): stream offset, width in bits, target. -/
inductive Desc
  /-- `U`: unsigned integer to or from REC[target]. -/
  | u (off w : Nat) (target : Fin 32)
  /-- `S`: signed integer to or from REC[target], held sign-extended. -/
  | s (off w : Nat) (target : Fin 32)
  /-- `V`: a speed-over-ground field, converted by CTRL.UNITS (R236). -/
  | v (off w : Nat) (target : Fin 32)
  /-- `T`: a fixed text run of w/6 characters to or from STR[target]. -/
  | t (off w : Nat) (target : StrReg)
  /-- `BIN`: the variable binary tail from byte off/8 on, to or from PAY. -/
  | bin (off : Nat)
  /-- `VTXT`: the variable text tail from bit off on, to or from PAY. -/
  | vtxt (off : Nat)
  deriving DecidableEq, Repr

/-- The dispatch map `H(m)` (R222). -/
def layoutOf (m : Nat) : Option Layout :=
  match m with
  | 1 | 2 | 3 => some .lA
  | 4 | 11 => some .lBS
  | 5 => some .l5
  | 6 => some .l6
  | 8 => some .l8
  | 9 => some .l9
  | 10 => some .l10
  | 12 => some .l12
  | 14 => some .l14
  | 18 => some .l18
  | 19 => some .l19
  | _ => none

/-- `ACCEPT`, the ids a decode with the layout accepts (R221, R224, R226). -/
def acceptedIds (airId13 : Bool) : Layout → List Nat
  | .lA => [1, 2, 3]
  | .lBS => [4, 11]
  | .l5 => [5]
  | .l6 => [6]
  | .l8 => [8]
  | .l9 => if airId13 then [13] else [9]
  | .l10 => [10]
  | .l12 => [12]
  | .l14 => [14]
  | .l18 => [18]
  | .l19 => [19]

/-- `MINB`, the minimum bytes for a decode (R221, R223). -/
def minBytes : Layout → Nat
  | .lA => 21
  | .lBS => 21
  | .l5 => 53
  | .l6 => 9
  | .l8 => 5
  | .l9 => 21
  | .l10 => 9
  | .l12 => 9
  | .l14 => 5
  | .l18 => 21
  | .l19 => 39

/-- `CAP`, the bytes or characters of PAY an encode writes at most (R234); 0 for a layout without a tail. -/
def tailCap : Layout → Nat
  | .l6 => Config.capT6
  | .l8 => Config.capT8
  | .l12 => Config.capT12
  | .l14 => Config.capT14
  | .lA | .lBS | .l5 | .l9 | .l10 | .l18 | .l19 => 0

/-- `ENCLEN(lay, P)` (R235). -/
def encodedLen (p : Nat) : Layout → Nat
  | .lA => 21
  | .lBS => 21
  | .l5 => 53
  | .l6 => 9 + min p Config.capT6
  | .l8 => 5 + min p Config.capT8
  | .l9 => 21
  | .l10 => 9
  | .l12 => 9 + 3 * ((min p Config.capT12 + 3) / 4)
  | .l14 => 5 + 3 * ((min p Config.capT14 + 3) / 4)
  | .l18 => 21
  | .l19 => 39

/-- The three header descriptors that head every layout's list (R240): message id, repeat indicator, MMSI. -/
def header : List Desc := [.u 0 6 0, .u 6 2 1, .u 8 30 2]

/-- The descriptors after the header, in each table's order (R241..R251). -/
def layoutBody : Layout → List Desc
  -- R241
  | .lA => [.u 38 4 3, .s 42 8 4, .v 50 10 5, .u 60 1 6, .s 61 28 7, .s 89 27 8, .u 116 12 9, .u 128 9 10, .u 137 6 11,
      .u 143 2 12, .u 149 19 13]
  -- R242
  | .lBS => [.u 38 14 3, .u 52 4 4, .u 56 5 5, .u 61 5 6, .u 66 6 7, .u 72 6 8, .u 78 1 9, .s 79 28 10, .s 107 27 11,
      .u 134 4 12, .u 149 19 13]
  -- R243
  | .l5 => [.u 38 2 3, .u 40 30 4, .t 70 42 .str0, .t 112 120 .str1, .u 232 8 5, .u 240 9 6, .u 249 9 7, .u 258 6 8,
      .u 264 6 9, .u 270 4 10, .u 274 4 11, .u 278 5 12, .u 283 5 13, .u 288 6 14, .u 294 8 15, .t 302 120 .str2,
      .u 422 1 16]
  -- R244
  | .l6 => [.u 38 2 3, .u 40 30 4, .u 70 1 5, .bin 72]
  -- R245
  | .l8 => [.bin 40]
  -- R246
  | .l9 => [.u 38 12 3, .v 50 10 4, .u 60 1 5, .s 61 28 6, .s 89 27 7, .u 116 12 8, .u 128 6 9, .u 142 1 10,
      .u 149 19 11]
  -- R247
  | .l10 => [.u 40 30 3]
  -- R248
  | .l12 => [.u 38 2 3, .u 40 30 4, .u 70 1 5, .vtxt 72]
  -- R249
  | .l14 => [.vtxt 40]
  -- R250
  | .l18 => [.v 46 10 3, .u 56 1 4, .s 57 28 5, .s 85 27 6, .u 112 12 7, .u 124 9 8, .u 133 6 9, .u 149 19 10]
  -- R251
  | .l19 => [.v 46 10 3, .u 56 1 4, .s 57 28 5, .s 85 27 6, .u 112 12 7, .u 124 9 8, .u 133 6 9, .t 143 120 .str1,
      .u 263 8 10, .u 271 9 11, .u 280 9 12, .u 289 6 13, .u 295 6 14, .u 301 4 15, .u 306 1 16]

/-- `LAYOUT_ROM[lay]` (10_state.md R54). -/
def layoutRom (lay : Layout) : List Desc := header ++ layoutBody lay

/-- Whether a descriptor is a variable tail (R220, R231). -/
def Desc.isTail : Desc → Bool
  | .bin _ => true
  | .vtxt _ => true
  | .u .. => false
  | .s .. => false
  | .v .. => false
  | .t .. => false

/-- The number of fixed descriptors of a layout, which the codec's XFER phase counts through (R232). -/
def fixedCount (lay : Layout) : Nat := ((layoutRom lay).filter (fun d => !d.isTail)).length

end Sys2Proof.Machine
end

