-- ==== Sys2Proof/Machine/Scaling.lean ====
section
/-! DEFINITION. Speed conversion and timestamp resolution (44_scaling_time.md R280..R286). -/

namespace Sys2Proof.Machine

open Sys2Proof

/-- `sog2kmh(r) = floor(r * 1852 / 10000)` on unbounded integers (R280). -/
def sogToKmh (r : Word) : Word := BitVec.ofNat 32 (r.toNat * 1852 / 10000)

/-- `kmh2sog(k) = floor(k * 10000 / 1852) mod 2^32` (R281). -/
def kmhToSog (k : Word) : Word := BitVec.ofNat 32 (k.toNat * 10000 / 1852)

/-- SOG2KMH (R284). -/
def execSog2kmh (s : State) : Host.Outcome State Fault Refusal :=
  conclude none (setResult (sogToKmh s.value) s) s

/-- KMH2SOG (R285). -/
def execKmh2sog (s : State) : Host.Outcome State Fault Refusal :=
  conclude none (setResult (kmhToSog s.value) s) s

/-- Every field of the timestamp at its "not available" value (R283, R286). -/
def timestampAbsent (s : State) : Bool :=
  readRec s 3 = 0 && readRec s 4 = 0 && readRec s 5 = 0 && readRec s 6 = 24 && readRec s 7 = 60 && readRec s 8 = 60

/-- `gmi` (R283): h = 60, or mi = 60 with CFG.BS_FIX = 1. -/
def minuteGuard (s : State) : Bool := if s.cfg.bsFix then readRec s 7 = 60 else readRec s 6 = 60

/-- `gsec` (R283): h = 60, or s = 60 with CFG.BS_FIX = 1. -/
def secondGuard (s : State) : Bool := if s.cfg.bsFix then readRec s 8 = 60 else readRec s 6 = 60

/-- One backfill of R286: if the guard holds, `REC[i] <- now`. -/
def backfill (g : Bool) (i : Fin 32) (now : Word) (s : State) : State := if g then writeRec i now s else s

/-- One bit of R286's mask m. -/
def maskBit (g : Bool) (b : Word) : Word := if g then b else 0

/-- R286's mask `m`, from the operand values at launch. -/
def backfillMask (s : State) : Word :=
  maskBit (readRec s 3 = 0) 0x01 ||| maskBit (readRec s 4 = 0) 0x02 ||| maskBit (readRec s 5 = 0) 0x04 |||
    maskBit (readRec s 6 = 24) 0x08 ||| maskBit (minuteGuard s) 0x10 ||| maskBit (secondGuard s) 0x20

/-- R286's six backfills; every guard is evaluated on the launch state `s`. -/
def backfillAll (s : State) : State :=
  backfill (secondGuard s) 8 (s.now1.second.setWidth 32) <|
  backfill (minuteGuard s) 7 (s.now1.minute.setWidth 32) <|
  backfill (readRec s 6 = 24) 6 (s.now1.hour.setWidth 32) <|
  backfill (readRec s 5 = 0) 5 (s.now0.day.setWidth 32) <|
  backfill (readRec s 4 = 0) 4 (s.now0.month.setWidth 32) <|
  backfill (readRec s 3 = 0) 3 (s.now0.year.setWidth 32) s

/-- TSRESOLVE (R286): RESULT = 1 and REC unchanged for the all-sentinel timestamp, else the backfills and
`RESULT <- m << 8`. -/
def execTsresolve (s : State) : Host.Outcome State Fault Refusal :=
  conclude none
    (if timestampAbsent s then setResult 1 s else setResult (backfillMask s <<< 8) (backfillAll s)) s

end Sys2Proof.Machine
end

