-- ==== Sys2Proof/Machine/MessageCodec.lean ====
section
/-! DEFINITION. The layout-driven message codec (43_message_codec.md R220..R238): MSGDEC, MSGENC and the hidden state
machine they run on. -/

namespace Sys2Proof.Machine

open Sys2Proof

/-! ## MSGDEC -/

/-- What MSGDEC's checks decide on the launch state (R233). -/
inductive Verdict
  | unsupported
  | absent (r : AReason)
  | go (lay : Layout) (id : Nat)
  deriving DecidableEq, Repr

/-- The id in stream bits 0..5 (R224). -/
def bufferId (s : State) : Nat := (getUnsigned s.mem 0 6).toNat

/-- SHORT, then ID_MISMATCH, for the chosen layout (R223, R224, R233). -/
def decodeWith (lay : Layout) (s : State) : Verdict :=
  if s.bufLen < minBytes lay then .absent .short
  else if bufferId s ∈ acceptedIds s.cfg.airId13 lay then .go lay (bufferId s)
  else .absent .idMismatch

/-- MSGDEC's checks in R233's order: UNSUPPORTED, EMPTY, UNKNOWN_ID, SHORT, ID_MISMATCH. -/
def msgdecVerdict (m : Nat) (s : State) : Verdict :=
  if m ≠ 0 ∧ layoutOf m = none then .unsupported
  else if s.bufLen = 0 then .absent .empty
  else match layoutOf (if m = 0 then bufferId s else m) with
    | none => .absent .unknownId
    | some lay => decodeWith lay s

/-- A V field's register value from its wire value (R233, R236). -/
def speedFromWire : Units → Word → Word
  | .wire, r => r
  | .kmh, r => sogToKmh r

/-- A V field's wire value from its register value, before the field keeps its low bits (R234, R236). -/
def speedToWire : Units → Word → Word
  | .wire, k => k
  | .kmh, k => kmhToSog k

/-- Move one descriptor from BUF of the launch state `s0` into the record (R231, R233). -/
def decodeField (u : Units) (s0 : State) (s : State) : Desc → State
  | .u off w t => writeRec t (getUnsigned s0.mem off w) s
  | .s off w t => writeRec t (getSigned s0.mem off w) s
  | .v off w t => writeRec t (speedFromWire u (getUnsigned s0.mem off w)) s
  | .t off w k => loadStr k (decodeText s0.mem off w) s
  | .bin off => loadPay (readBytes s0.mem (bufBase + off / 8) (s0.bufLen - off / 8)) s
  | .vtxt off => loadPay (decodeText s0.mem off (6 * ((8 * s0.bufLen - off) / 6))) s

/-- `REC[0..31] <- 0`, `STRk_CTL <- 0`, `PAY_LEN <- 0` (R233). -/
def clearRecord (s : State) : State :=
  { s with recs := Vector.replicate 32 0, str0 := StrCtl.reset, str1 := StrCtl.reset, str2 := StrCtl.reset, payLen := 0 }

/-- MSGDEC's commit (R233): the record cleared, every descriptor moved in order, `RESULT <- id`. -/
def decodeRecord (u : Units) (lay : Layout) (id : Nat) (s : State) : State :=
  setResult (BitVec.ofNat 32 id) ((layoutRom lay).foldl (decodeField u s) (clearRecord s))

/-- MSGDEC (R233). -/
def execMsgdec (m : Nat) (u : Units) (s : State) : Host.Outcome State Fault Refusal :=
  match msgdecVerdict m s with
  | .unsupported => .next (raise .unsupported (BitVec.ofNat 32 m) s)
  | .absent r => .next (goAbsent r s)
  | .go lay id => .next (succeed (decodeRecord u lay id s))

/-! ## MSGENC -/

/-- Move one descriptor from the record of the launch state `s0` into BUF (R234). -/
def encodeField (u : Units) (lay : Layout) (s0 : State) (m : Memory) : Desc → Memory
  | .u off w t => setUnsigned m off w (readRec s0 t)
  | .s off w t => setUnsigned m off w (readRec s0 t)
  | .v off w t => setUnsigned m off w (speedToWire u (readRec s0 t))
  | .t off w k => encodeText m off w (strSource s0 k)
  | .bin off => writeBytes m (bufBase + off / 8) (readBytes s0.mem payBase (min s0.payLen (tailCap lay)))
  | .vtxt off =>
    encodeText m off (6 * (4 * ((min s0.payLen (tailCap lay) + 3) / 4)))
      (readBytes s0.mem payBase (min s0.payLen (tailCap lay)))

/-- The bytes after MSGENC (R234): all of BUF zero, the id from MTYPE, then every descriptor but the id's, in order. -/
def encodedMemory (m : Nat) (u : Units) (lay : Layout) (s : State) : Memory :=
  ((layoutRom lay).drop 1).foldl (encodeField u lay s)
    (setUnsigned (zeroBytes s.mem bufBase Config.bufBytes) 0 6 (BitVec.ofNat 32 m))

/-- MSGENC's commit for a supported id (R234, R235). -/
def encodeRecord (m : Nat) (u : Units) (lay : Layout) (s : State) : State :=
  setResult (BitVec.ofNat 32 (encodedLen s.payLen lay))
    { s with mem := encodedMemory m u lay s, bufLen := encodedLen s.payLen lay }

/-- MSGENC (R234): MTYPE = 0 gives a zero-length result and no error. -/
def execMsgenc (m : Nat) (u : Units) (s : State) : Host.Outcome State Fault Refusal :=
  if m = 0 then .next (succeed (setResult 0 { s with bufLen := 0 }))
  else match layoutOf m with
    | none => .next (raise .unsupported (BitVec.ofNat 32 m) s)
    | some lay => .next (succeed (encodeRecord m u lay s))

/-! ## The hidden state machine (R232) -/

/-- Where CHECK leads for a decode: ERROR, ABSENT or XFER at index 0. -/
def afterDecodeCheck (m : Nat) (s : State) : Fsm :=
  match msgdecVerdict m s with
  | .unsupported => .error
  | .absent _ => .absent
  | .go _ _ => .xfer

/-- Where CHECK leads for an encode: ERROR for an unsupported id, XFER otherwise; MTYPE = 0, which raises no error (R234),
goes through an XFER with no descriptor to move (DEDUCED, log 7). -/
def afterEncodeCheck (m : Nat) : Fsm :=
  if m ≠ 0 ∧ layoutOf m = none then .error else .xfer

/-- The layout a running codec operation walks: the one its checks chose, if any. -/
def runningLayout (i : Instr) (s : State) : Option Layout :=
  match i with
  | .msgdec m _ =>
    match msgdecVerdict m s with
    | .go lay _ => some lay
    | .unsupported => none
    | .absent _ => none
  | .msgenc m _ => layoutOf m
  | .nop | .getu | .gets | .setu | .sets | .bufclr | .a2v | .v2a | .armdec | .armenc | .t2v | .v2t
  | .txtdec _ | .txtenc _ | .cksum | .frame | .unframe | .sog2kmh | .kmh2sog | .tsresolve | .srst => none

/-- One move of the codec's state machine: XFER counts the `fixed` descriptors that come before a tail, then TAIL, then
COMMIT; COMMIT, ABSENT and ERROR wait for the completing step. R232 names ENG.idx in XFER alone, and R34 calls it the
index of the descriptor being processed; so in TAIL the model puts it at the BIN or VTXT descriptor, which stands right
after the fixed ones (DEDUCED, log 7). Where no descriptor is being processed the spec leaves it open: the model holds that
same number in the TAIL of a layout without a tail and in COMMIT, and 0 in CHECK, ABSENT and ERROR (DESIGN CHOICE,
log 7). -/
def fsmStep (checked : Fsm) (fixed : Nat) (e : Eng) : Eng :=
  match e.fsm with
  | .check => { e with fsm := checked, idx := 0 }
  | .xfer => if e.idx + 1 < fixed then { e with idx := e.idx + 1 } else { e with fsm := .tail, idx := fixed }
  | .tail => { e with fsm := .commit }
  | .commit => e
  | .absent => e
  | .error => e

/-- The number of fixed descriptors the running operation's XFER phase counts through. -/
def runningCount (i : Instr) (s : State) : Nat :=
  match runningLayout i s with
  | some lay => fixedCount lay
  | none => 0

/-- ENG after one engine step that does not complete the operation (70_reset_and_hazards.md R363): only MSGDEC and
MSGENC have a state machine. -/
def advanceEng (i : Instr) (s : State) : Eng :=
  match i with
  | .msgdec m _ => fsmStep (afterDecodeCheck m s) (runningCount i s) s.eng
  | .msgenc m _ => fsmStep (afterEncodeCheck m) (runningCount i s) s.eng
  | .nop | .getu | .gets | .setu | .sets | .bufclr | .a2v | .v2a | .armdec | .armenc | .t2v | .v2t
  | .txtdec _ | .txtenc _ | .cksum | .frame | .unframe | .sog2kmh | .kmh2sog | .tsresolve | .srst => s.eng

end Sys2Proof.Machine
end

