-- ==== Sys2Proof/Machine/System.lean ====
section
/-! DEFINITION. The two resets (70_reset_and_hazards.md R340, R342; 10_state.md R58). -/

namespace Sys2Proof.Machine

open Sys2Proof

/-- What both resets do (10_state.md R58): every CSR at its reset value, ENG idle, any running operation abandoned with
nothing committed; REC and the arrays are left as they are. -/
def resetRegisters (s : State) : State :=
  { State.reset with
    recs := s.recs
    mem := s.mem
    rstN := s.rstN
    turns := s.turns
    resp := s.resp
    draws := s.draws }

/-- SRST (R342): a soft reset, in every state. -/
def execSrst (s : State) : Host.Outcome State Fault Refusal := .next (resetRegisters s)

end Sys2Proof.Machine
end

