-- ==== Sys2Proof/Machine/Dispatch.lean ====
section
/-! DEFINITION. One arm per command: the meaning of each, on the state at its launch (60_exceptions.md R300..R302). -/

namespace Sys2Proof.Machine

open Sys2Proof

def exec (i : Instr) (s : State) : Host.Outcome State Fault Refusal :=
  match i with
  | .nop => Sys2Proof.Machine.execNop s
  | .getu => Sys2Proof.Machine.execGetu s
  | .gets => Sys2Proof.Machine.execGets s
  | .setu => Sys2Proof.Machine.execSetu s
  | .sets => Sys2Proof.Machine.execSets s
  | .bufclr => Sys2Proof.Machine.execBufclr s
  | .a2v => Sys2Proof.Machine.execA2v s
  | .v2a => Sys2Proof.Machine.execV2a s
  | .armdec => Sys2Proof.Machine.execArmdec s
  | .armenc => Sys2Proof.Machine.execArmenc s
  | .t2v => Sys2Proof.Machine.execT2v s
  | .v2t => Sys2Proof.Machine.execV2t s
  | .txtdec sel => Sys2Proof.Machine.execTxtdec sel s
  | .txtenc sel => Sys2Proof.Machine.execTxtenc sel s
  | .cksum => Sys2Proof.Machine.execCksum s
  | .frame => Sys2Proof.Machine.execFrame s
  | .unframe => Sys2Proof.Machine.execUnframe s
  | .msgdec mtype units => Sys2Proof.Machine.execMsgdec mtype units s
  | .msgenc mtype units => Sys2Proof.Machine.execMsgenc mtype units s
  | .sog2kmh => Sys2Proof.Machine.execSog2kmh s
  | .kmh2sog => Sys2Proof.Machine.execKmh2sog s
  | .tsresolve => Sys2Proof.Machine.execTsresolve s
  | .srst => Sys2Proof.Machine.execSrst s

end Sys2Proof.Machine
end

