-- ==== Sys2Proof/Machine/Bus.lean ====
section
/-! DEFINITION. The aperture as the host sees it: accesses accepted and refused, register reads and writes, byte lanes,
reads and writes while BUSY (10_state.md R31..R56, 20_memory.md R80..R91, 70_reset_and_hazards.md R352), and the
engine's and the reset input's steps (R340, R363). -/

namespace Sys2Proof.Machine

open Sys2Proof

/-! ## Addresses -/

/-- An absolute bus address as an offset from the platform's BASE, if it lies in the aperture (20_memory.md R80: BASE is
a parameter the model takes as an argument; log 11). -/
def busOffset (base addr : Nat) : Option Nat :=
  if base ≤ addr ∧ addr < base + Config.apertureBytes then some (addr - base) else none

/-- Which accesses are accepted (20_memory.md R82): 32-bit at multiples of 4 everywhere, 8-bit from 0x0180 on. -/
def accepted (w : Width) (off : Nat) : Bool :=
  match w with
  | .w32 => off % 4 = 0
  | .w8 => 0x180 ≤ off
  | .w16 => false
  | .w64 => false

/-- The record register a CSR-space offset names (10_state.md R47). -/
def recIndex (off : Nat) : Fin 32 := Fin.ofNat 32 ((off - 0x100) / 4)

/-! ## Reads -/

/-- CTRL as the host reads it (10_state.md R32): START, SRST and the reserved bits read 0. -/
def Ctrl.toWord (c : Ctrl) : Word :=
  (0#11 : BitVec 11) ++ c.units ++ (0#2 : BitVec 2) ++ c.sel ++ (0#2 : BitVec 2) ++ c.mtype ++ c.op

/-- INTEN as the host reads it (10_state.md R35). -/
def IntEn.toWord (t : IntEn) : Word :=
  (0#30 : BitVec 30) ++ BitVec.ofBool t.errIe ++ BitVec.ofBool t.doneIe

/-- CFG as the host reads it (10_state.md R38). -/
def Cfg.toWord (c : Cfg) : Word :=
  (0#28 : BitVec 28) ++ BitVec.ofBool c.airId13 ++ BitVec.ofBool c.bsFix ++ BitVec.ofBool c.armorMin ++
    BitVec.ofBool c.armorLax

/-- STRk_CTL as the host reads it (10_state.md R43). -/
def StrCtl.toWord (c : StrCtl) : Word :=
  (0#23 : BitVec 23) ++ BitVec.ofBool c.present ++ (0#2 : BitVec 2) ++ BitVec.ofNat 6 c.len

/-- NOW0 as the host reads it (10_state.md R44). -/
def Now0.toWord (n : Now0) : Word := n.day ++ n.month ++ n.year

/-- NOW1 as the host reads it (10_state.md R45). -/
def Now1.toWord (n : Now1) : Word := (0#8 : BitVec 8) ++ n.second ++ n.minute ++ n.hour

/-- The CSRs (10_state.md R31..R46): reserved offsets read 0. -/
def csrRead (s : State) (off : Nat) : Word :=
  match off with
  | 0x000 => Config.idWord
  | 0x004 => s.ctrl.toWord
  | 0x008 => s.status.toWord
  | 0x00C => s.inten.toWord
  | 0x010 => s.start
  | 0x014 => s.width
  | 0x018 => s.value
  | 0x01C => s.result
  | 0x020 => BitVec.ofNat 32 s.bufLen
  | 0x024 => BitVec.ofNat 32 s.txtLen
  | 0x028 => BitVec.ofNat 32 s.payLen
  | 0x02C => s.errinfo
  | 0x030 => s.str0.toWord
  | 0x034 => s.str1.toWord
  | 0x038 => s.str2.toWord
  | 0x03C => s.now0.toWord
  | 0x040 => s.now1.toWord
  | 0x044 => s.cfg.toWord
  | _ => 0

/-- One byte of the array space: reserved addresses read 0 (10_state.md R56). -/
def arrayRead (s : State) (a : Nat) : Byte := if inArray a then readByte s.mem a else 0

/-- Four bytes as a little-endian word (20_memory.md R84). -/
def arrayReadWord (s : State) (a : Nat) : Word :=
  arrayRead s (a + 3) ++ arrayRead s (a + 2) ++ arrayRead s (a + 1) ++ arrayRead s a

/-- The stored value an accepted read returns (20_memory.md R81). -/
def storedValue (s : State) (w : Width) (off : Nat) : Word :=
  if off < 0x100 then csrRead s off
  else if off < 0x180 then readRec s (recIndex off)
  else match w with
    | .w8 => (arrayRead s off).setWidth 32
    | _ => arrayReadWord s off

/-- The locations whose reads are free draws while BUSY = 1 (20_memory.md R90): RESULT, BUF_LEN, TXT_LEN, PAY_LEN,
ERRINFO, STRk_CTL, REC and the arrays. -/
def drawnWhileBusy (off : Nat) : Bool :=
  (0x1C ≤ off && off < 0x3C) || (0x100 ≤ off && off < 0x180) || inArray off

/-- A free draw of the access's width (20_memory.md R90: "any 32-bit value, or any byte"). -/
def freeDraw (s : State) (w : Width) : Word :=
  match w with
  | .w8 => ((Config.busyRead s.draws).extractLsb' 0 8).setWidth 32
  | _ => Config.busyRead s.draws

/-- An accepted host read: the stored value, or while BUSY = 1 a free draw of an output (20_memory.md R88, R90). -/
def hostRead (w : Width) (off : Nat) (s : State) : State :=
  if s.status.busy && drawnWhileBusy off then { s with resp := .data (freeDraw s w), draws := s.draws + 1 }
  else { s with resp := .data (storedValue s w off) }

/-! ## Writes -/

/-- What a write to a plain register stores (10_state.md R35..R45): lengths clamp to their capacity (WARL). -/
def csrWrite (off : Nat) (v : Word) (s : State) : State :=
  match off with
  | 0x010 => { s with start := v }
  | 0x014 => { s with width := v }
  | 0x018 => { s with value := v }
  | 0x020 => { s with bufLen := min v.toNat Config.bufBytes }
  | 0x024 => { s with txtLen := min v.toNat Config.txtBytes }
  | 0x028 => { s with payLen := min v.toNat Config.payBytes }
  | 0x030 => { s with str0 := { len := min (v.extractLsb' 0 6).toNat Config.strBytes, present := v.getLsbD 8 } }
  | 0x034 => { s with str1 := { len := min (v.extractLsb' 0 6).toNat Config.strBytes, present := v.getLsbD 8 } }
  | 0x038 => { s with str2 := { len := min (v.extractLsb' 0 6).toNat Config.strBytes, present := v.getLsbD 8 } }
  | 0x03C => { s with now0 := { year := v.extractLsb' 0 16, month := v.extractLsb' 16 8, day := v.extractLsb' 24 8 } }
  | 0x040 => { s with now1 := { hour := v.extractLsb' 0 8, minute := v.extractLsb' 8 8, second := v.extractLsb' 16 8 } }
  | 0x044 =>
    { s with
      cfg := { armorLax := v.getLsbD 0, armorMin := v.getLsbD 1, bsFix := v.getLsbD 2, airId13 := v.getLsbD 3 } }
  | _ => s

/-- The CSR offsets `csrWrite` stores to: START, WIDTH, VALUE, the lengths, STRk_CTL, NOW0, NOW1 and CFG. -/
def plainCsr (off : Nat) : Bool :=
  off ∈ [0x010, 0x014, 0x018, 0x020, 0x024, 0x028, 0x030, 0x034, 0x038, 0x03C, 0x040, 0x044]

/-- The locations a write is dropped at while BUSY = 1 (70_reset_and_hazards.md R352(d)), CTRL apart: every writable
location but STATUS and INTEN. -/
def droppedWhileBusy (off : Nat) : Bool :=
  plainCsr off || (0x100 ≤ off && off < 0x180) || inArray off

/-- The bytes of a write of the given width, low byte first (20_memory.md R84). -/
def laneBytes (w : Width) (v : Word) : List Byte :=
  match w with
  | .w8 => [v.extractLsb' 0 8]
  | _ => [v.extractLsb' 0 8, v.extractLsb' 8 8, v.extractLsb' 16 8, v.extractLsb' 24 8]

/-- What an accepted write to a writable location other than CTRL, STATUS and INTEN stores. -/
def storeValue (w : Width) (off : Nat) (v : Word) (s : State) : State :=
  if off < 0x100 then csrWrite off v s
  else if off < 0x180 then writeRec (recIndex off) v s
  else { s with mem := writeBytes s.mem off (laneBytes w v) }

/-- A write dropped because BUSY was 1: nothing stored, WERR set (R352(d)). -/
def dropWrite (s : State) : State := { s with status := s.status.writeDropped }

/-- A write to CTRL (10_state.md R32, 30_encoding.md R110, R123): SRST runs the soft reset in every state; while
BUSY = 1 any other write is dropped; START launches; else only the fields are stored. -/
def ctrlWrite (v : Word) (s : State) : Host.Outcome State Fault Refusal :=
  match decode v with
  | .ok .srst => exec .srst s
  | _ =>
    if s.status.busy then .next (dropWrite s)
    else if fieldStart v then .next (launch v s)
    else .next { s with ctrl := Ctrl.ofWord v }

/-- A write to a location other than CTRL. Read-only and reserved locations ignore it at any time (R352(e), 10_state.md
R56). -/
def plainWrite (w : Width) (off : Nat) (v : Word) (s : State) : State :=
  if off = 0x008 then acknowledge v s
  else if off = 0x00C then { s with inten := { doneIe := v.getLsbD 0, errIe := v.getLsbD 1 } }
  else if droppedWhileBusy off then
    if s.status.busy then dropWrite s else storeValue w off v s
  else s

/-- An accepted host write; its bus response is a plain acknowledgement, whether or not it stores. -/
def hostWrite (w : Width) (off : Nat) (v : Word) (s : State) : Host.Outcome State Fault Refusal :=
  if off = 0x004 then ctrlWrite v { s with resp := .done }
  else .next (plainWrite w off v { s with resp := .done })

/-- A host access at an offset inside the aperture: refused accesses change no state, and a refused read returns 0
(20_memory.md R83). -/
def apertureAccess (a : Access) (s : State) : Host.Outcome State Fault Refusal :=
  match a with
  | .read w off =>
    if accepted w off then .next (hostRead w off s) else .next { s with resp := .error 0 }
  | .write w off v =>
    if accepted w off then hostWrite w off v s else .next { s with resp := .error 0 }

/-- The offset an access names. -/
def Access.offset : Access → Nat
  | .read _ off => off
  | .write _ off _ => off

/-- Whether the block answers an access: outside the aperture it responds to none (20_memory.md R80, log 9), and while
RST_N is asserted it accepts none (70_reset_and_hazards.md R340, log 10). -/
def answers (a : Access) (s : State) : Bool := a.offset < Config.apertureBytes && s.rstN

/-- One host access on the platform's bus: the block answers it, or goes on unchanged. -/
def hostAccess (a : Access) (s : State) : Host.Outcome State Fault Refusal :=
  if answers a s then apertureAccess a s else .next { s with resp := .noDevice }

/-! ## Engine steps (70_reset_and_hazards.md R363) -/

/-- The engine's fetch: the command held in the latch (10_state.md R34, 20_memory.md R95). -/
def latched (s : State) : Except Reject Instr := decode s.ctrl.launchedWord

/-- The engine step that completes the running operation: the latched command's meaning, or BAD_OP for a reserved OP
(30_encoding.md R113, 60_exceptions.md R303). -/
def engineComplete (s : State) : Host.Outcome State Fault Refusal :=
  match latched s with
  | .ok i => exec i s
  | .error _ => .next (raise .badOp (s.ctrl.op.setWidth 32) s)

/-- The engine step that only advances hidden ENG state. -/
def engineAdvance (s : State) : State :=
  match latched s with
  | .ok i => { s with eng := advanceEng i s }
  | .error _ => s

/-! ## The reset input (70_reset_and_hazards.md R340) -/

/-- RST_N falls: every CSR at its power-on value, any operation abandoned, no access accepted until it rises. -/
def rstAsserted (s : State) : State := { resetRegisters s with rstN := false }

/-- A canonical memory holding the given contents of the arrays. -/
def arraysFrom (cells : List Host.Cell) : Memory :=
  cells.foldl (fun m c => if inArray c.1 then writeByte m c.1 c.2 else m) []

/-- RST_N rises: the block is idle with every CSR at its power-on value; REC and the arrays hold unspecified values, an
input of the turn (10_state.md R59, log 10). -/
def rstReleased (recs : Vector Word 32) (cells : List Host.Cell) (s : State) : State :=
  { resetRegisters s with rstN := true, recs := recs, mem := arraysFrom cells }

/-! ## One turn of the schedule -/

/-- One turn. An engine step is allowed only while BUSY = 1 (R363); at any other time an engine turn does nothing
(log 1). RST_N's release has an effect only while it is asserted. -/
def takeTurn (t : Turn) (s : State) : Host.Outcome State Fault Refusal :=
  match t with
  | .host a => hostAccess a s
  | .engineAdvance => if s.status.busy then .next (engineAdvance s) else .next s
  | .engineComplete => if s.status.busy then engineComplete s else .next s
  | .rstAssert => .next (rstAsserted s)
  | .rstRelease recs cells => if s.rstN then .next s else .next (rstReleased recs cells s)

/-- The next thing to happen: the schedule's next turn, or, when it is exhausted, the running operation's completion
(70_reset_and_hazards.md R361) or nothing. -/
def nextEvent (s : State) : Host.Outcome State Fault Refusal :=
  match s.turns with
  | t :: ts => takeTurn t { s with turns := ts }
  | [] => if s.status.busy then engineComplete s else .next s

/-- Place a command word where the next step runs it (log 5): a launch word into the command latch, launched and about to
complete; any other word as the next host write to CTRL. -/
def placeCommand (w : Word) (s : State) : State :=
  if fieldStart w && !fieldSrst w then
    { launch w s with rstN := true, turns := .engineComplete :: s.turns }
  else { s with rstN := true, turns := .host (.write .w32 0x004 w) :: s.turns }

end Sys2Proof.Machine
end

