-- ==== Sys2Proof/Machine/Step.lean ====
section
/-! DEFINITION. One step of the machine: one host step, engine step or reset edge (70_reset_and_hazards.md R363). -/

namespace Sys2Proof.Machine

open Sys2Proof

/-- One step of AISCODEC-1. -/
def step (s : State) : Host.Outcome State Fault Refusal := nextEvent s

/-- `s` with the command word of `nbits` bits placed where the next step runs it: a command is one 32-bit word
(30_encoding.md R116), written to CTRL; the bits above `nbits` are 0. -/
def State.withFetchWord (s : State) (nbits w : Nat) : State :=
  placeCommand (BitVec.ofNat 32 (w % 2 ^ nbits)) s

end Sys2Proof.Machine
end

