-- ==== Sys2Proof/Machine/HostAsm.lean ====
section
/-! DEFINITION. The host's side of the bus: the base instructions of the host assembly language as bus accesses, the
pseudo-instructions' expansions, and the command word of an `op` line (30_encoding.md R120, R121, R122). A host branch is
the host's own control flow and no access (R120); a `wait` is one or more STATUS polls. -/

namespace Sys2Proof.Machine

open Sys2Proof

/-! ## Names that stand for offsets (R120) -/

/-- A register name of 10_state.md. -/
inductive RegName
  | id
  | ctrl
  | status
  | inten
  | start
  | width
  | value
  | result
  | bufLen
  | txtLen
  | payLen
  | errinfo
  | strCtl (k : StrReg)
  | now0
  | now1
  | cfg
  | record (i : Fin 32)
  deriving DecidableEq, Repr

/-- The offset a register name stands for (10_state.md R31..R47). -/
def RegName.offset : RegName → Nat
  | .id => 0x000
  | .ctrl => 0x004
  | .status => 0x008
  | .inten => 0x00C
  | .start => 0x010
  | .width => 0x014
  | .value => 0x018
  | .result => 0x01C
  | .bufLen => 0x020
  | .txtLen => 0x024
  | .payLen => 0x028
  | .errinfo => 0x02C
  | .strCtl .str0 => 0x030
  | .strCtl .str1 => 0x034
  | .strCtl .str2 => 0x038
  | .now0 => 0x03C
  | .now1 => 0x040
  | .cfg => 0x044
  | .record i => 0x100 + 4 * i.val

/-- An array name of R120: `BUF`, `TXT`, `PAY` or `STRk`. -/
inductive ArrayName
  | buf
  | txt
  | pay
  | str (k : StrReg)
  deriving DecidableEq, Repr

/-- The offset an array element's name, `BUF[j]` and the like, stands for (10_state.md R48..R51). -/
def ArrayName.offset (a : ArrayName) (j : Nat) : Nat :=
  match a with
  | .buf => bufBase + j
  | .txt => txtBase + j
  | .pay => payBase + j
  | .str k => strBase k + j

/-! ## Base instructions (R120) -/

/-- `W32 off, val`. -/
def asmW32 (off : Nat) (v : Word) : Access := .write .w32 off v

/-- `W8 off, val`. -/
def asmW8 (off : Nat) (b : Byte) : Access := .write .w8 off (b.setWidth 32)

/-- `R32 off -> t`. -/
def asmR32 (off : Nat) : Access := .read .w32 off

/-- `R8 off -> t`. -/
def asmR8 (off : Nat) : Access := .read .w8 off

/-- `MemWrite(addr, n, v)` as the access the block sees, if `addr` lies in its aperture (00_scope.md R10, 20_memory.md
R80). -/
def memWrite (base addr : Nat) (w : Width) (v : Word) : Option Access :=
  (busOffset base addr).map fun off => .write w off v

/-- `MemRead(addr, n)` as the access the block sees, if `addr` lies in its aperture. -/
def memRead (base addr : Nat) (w : Width) : Option Access :=
  (busOffset base addr).map fun off => .read w off

/-! ## Pseudo-instructions (R121) -/

/-- `wr NAME, v`, for a register name or `REC<i>`. R121 does not say which names NAME covers: these are the model's choice
(DESIGN CHOICE, log 20). -/
def asmWr (r : RegName) (v : Word) : List Access := [asmW32 r.offset v]

/-- The OP value of an operation (R111); SRST is no operation and has none. -/
def opcode : Instr → Option (BitVec 8)
  | .nop => some 0x00
  | .getu => some 0x01
  | .gets => some 0x02
  | .setu => some 0x03
  | .sets => some 0x04
  | .bufclr => some 0x05
  | .a2v => some 0x08
  | .v2a => some 0x09
  | .armdec => some 0x0A
  | .armenc => some 0x0B
  | .t2v => some 0x0C
  | .v2t => some 0x0D
  | .txtdec _ => some 0x0E
  | .txtenc _ => some 0x0F
  | .cksum => some 0x10
  | .frame => some 0x11
  | .unframe => some 0x12
  | .msgdec _ _ => some 0x20
  | .msgenc _ _ => some 0x21
  | .sog2kmh => some 0x30
  | .kmh2sog => some 0x31
  | .tsresolve => some 0x32
  | .srst => none

/-- `0x80000000 | (u<<20) | (s<<16) | (m<<8) | OP(MNEM)`, the word an `op` line writes to CTRL. -/
def asmOpWord (op : BitVec 8) (mtype : BitVec 6) (sel : BitVec 2) (units : BitVec 1) : Word :=
  0x80000000#32 ||| (units.setWidth 32 <<< 20) ||| (sel.setWidth 32 <<< 16) ||| (mtype.setWidth 32 <<< 8) |||
    op.setWidth 32

/-- `op MNEM [mtype=m] [sel=s] [units=u]`, with `op` = OP(MNEM) (`opcode`); an operand the operation's row does not use
is written all the same. -/
def asmOp (op : BitVec 8) (mtype : BitVec 6 := 0) (sel : BitVec 2 := 0) (units : BitVec 1 := 0) : List Access :=
  asmWr .ctrl (asmOpWord op mtype sel units)

/-- A `wait` whose first `again` polls of STATUS read BUSY = 1 and branch back, and whose last reads BUSY = 0: at least one
read. How many it takes is the latency's (log 18). -/
def asmWait (again : Nat) : List Access := List.replicate (again + 1) (asmR32 RegName.status.offset)

/-- One 8-bit write for each byte, in order, from an offset on. -/
def asmBytes (off : Nat) : List Byte → List Access
  | [] => []
  | b :: bs => asmW8 off b :: asmBytes (off + 1) bs

/-- `ldtxt "s"`. -/
def asmLdtxt (x : List Byte) : List Access := asmBytes (ArrayName.txt.offset 0) x ++ asmWr .txtLen (BitVec.ofNat 32 x.length)

/-- `ldstr k, "s"`. -/
def asmLdstr (k : StrReg) (x : List Byte) : List Access :=
  asmBytes ((ArrayName.str k).offset 0) x ++ asmWr (.strCtl k) (0x100#32 ||| BitVec.ofNat 32 x.length)

/-- `ldbuf b0 b1 ...`. -/
def asmLdbuf (x : List Byte) : List Access := asmBytes (ArrayName.buf.offset 0) x ++ asmWr .bufLen (BitVec.ofNat 32 x.length)

/-- `wr START, s ; wr WIDTH, w ; op MNEM ; wait`, the expansion of `getu` and `gets`. -/
def asmFieldRead (op : BitVec 8) (s w : Word) (again : Nat) : List Access :=
  asmWr .start s ++ asmWr .width w ++ asmOp op ++ asmWait again

/-- `wr START, s ; wr WIDTH, w ; wr VALUE, v ; op MNEM ; wait`, the expansion of `setu` and `sets`. -/
def asmFieldWrite (op : BitVec 8) (s w v : Word) (again : Nat) : List Access :=
  asmWr .start s ++ asmWr .width w ++ asmWr .value v ++ asmOp op ++ asmWait again

/-- `getu s, w`, its `wait` reading BUSY = 1 `again` times. -/
def asmGetu (s w : Word) (again : Nat) : List Access := asmFieldRead 0x01 s w again

/-- `gets s, w`. -/
def asmGets (s w : Word) (again : Nat) : List Access := asmFieldRead 0x02 s w again

/-- `setu s, w, v`. -/
def asmSetu (s w v : Word) (again : Nat) : List Access := asmFieldWrite 0x03 s w v again

/-- `sets s, w, v`. -/
def asmSets (s w v : Word) (again : Nat) : List Access := asmFieldWrite 0x04 s w v again

/-- `expect NAME, v` for a register name or `REC<i>` (DESIGN CHOICE, log 20): the 32-bit read of R121; the comparison is the
test harness's. -/
def asmExpect (r : RegName) : List Access := [asmR32 r.offset]

/-- `expect` of an array element: an 8-bit read. R121 writes a 32-bit one for every NAME; 95_test_vectors.md P4 encodes
`expect BUF[0], 0xAF` as an 8-bit one, and the model follows P4 (DESIGN CHOICE, log 20). -/
def asmExpectElement (a : ArrayName) (j : Nat) : List Access := [asmR8 (a.offset j)]

/-- A host program's bus transactions as turns of the schedule (R122). -/
def hostTurns (accesses : List Access) : List Turn := accesses.map .host

end Sys2Proof.Machine
end

