-- ==== Sys2Proof/Safety.lean ====
section
/-! DEFINITION. The terms claims are stated in: the invariant of AISCODEC-1's state, the states a power-on reset can
leave, the three ways a command completes written out field by field, and the bits of the stream. -/

namespace Sys2Proof.Machine

open Sys2Proof

/-! ## The invariant -/

/-- What every state of AISCODEC-1 keeps. -/
structure State.Inv (s : State) : Prop where
  /-- Memory is in its canonical form. -/
  memWf : Memory.wf s.mem = true
  /-- Only bytes of STR0..STR2, BUF, TXT and PAY are listed: the engine never reaches outside them (20_memory.md R97). -/
  memIn : Memory.inArrays s.mem = true
  /-- BUF_LEN is in 0..1024 (10_state.md R39). -/
  bufLen : s.bufLen ≤ 1024
  /-- TXT_LEN is in 0..2048 (10_state.md R40). -/
  txtLen : s.txtLen ≤ 2048
  /-- PAY_LEN is in 0..2048 (10_state.md R41). -/
  payLen : s.payLen ≤ 2048
  /-- STR0_CTL.LEN is in 0..32 (10_state.md R43). -/
  str0Len : s.str0.len ≤ 32
  /-- STR1_CTL.LEN is in 0..32 (10_state.md R43). -/
  str1Len : s.str1.len ≤ 32
  /-- STR2_CTL.LEN is in 0..32 (10_state.md R43). -/
  str2Len : s.str2.len ≤ 32
  /-- ENG.phase = RUN exactly when STATUS.BUSY = 1 (10_state.md R34). -/
  running : s.eng.phase = .run ↔ s.status.busy = true
  /-- From launch to completion DONE, ERR, ABSENT, ECODE and AREASON are clear (10_state.md R33, 60_exceptions.md
  R300(b)). -/
  launched : s.status.busy = true →
    s.status.done = false ∧ s.status.err = false ∧ s.status.absent = false ∧ s.status.ecode = .none ∧
      s.status.areason = .none
  /-- ERR = 1 only with an error code (60_exceptions.md R316(c)). -/
  errCode : s.status.err = true → s.status.ecode ≠ .none
  /-- AREASON is nonzero exactly when ABSENT = 1 (60_exceptions.md R316(c)). -/
  absentReason : s.status.absent = true ↔ s.status.areason ≠ .none
  /-- An absence carries no error code (60_exceptions.md R301). -/
  exclusive : s.status.absent = true → s.status.ecode = .none
  /-- While RST_N is asserted every CSR stands at its power-on value and the engine is idle
  (70_reset_and_hazards.md R340). -/
  heldInReset : s.rstN = false → rstAsserted s = s

/-- A state right after a power-on reset (10_state.md R58, R59; 70_reset_and_hazards.md R340): every CSR at its reset
value, the engine idle, RST_N released; REC, the array bytes and the model's own fields are free. -/
def State.PoweredOn (s : State) : Prop :=
  Memory.wf s.mem = true ∧ Memory.inArrays s.mem = true ∧
    s = { State.reset with recs := s.recs, mem := s.mem, turns := s.turns, resp := s.resp, draws := s.draws }

/-- A safe run: no step of it stops. -/
def safeFor : Nat → State → Prop
  | 0, _ => True
  | n + 1, s => ∃ t, step s = .next t ∧ safeFor n t

/-! ## Completions, field by field (60_exceptions.md R301, R302) -/

/-- The hidden engine state once nothing runs (10_state.md R34, R58). -/
def engIdle : Eng := { phase := .idle, fsm := .check, idx := 0 }

/-- Success with no other effect: BUSY 0, DONE 1, ERR 0, ABSENT 0, ECODE 0, AREASON 0, WERR and everything else as it
was. -/
def afterSuccess (s : State) : State :=
  { s with
    status := { busy := false, done := true, err := false, absent := false, werr := s.status.werr, ecode := .none,
                areason := .none }
    eng := engIdle }

/-- An error: BUSY 0, DONE 1, ERR 1, ECODE and ERRINFO written, everything else as it was. -/
def afterError (e : ECode) (info : Word) (s : State) : State :=
  { s with
    status := { busy := false, done := true, err := true, absent := false, werr := s.status.werr, ecode := e,
                areason := .none }
    errinfo := info
    eng := engIdle }

/-- An absence: BUSY 0, DONE 1, ABSENT 1, AREASON written, ERR 0, everything else as it was. -/
def afterAbsence (r : AReason) (s : State) : State :=
  { s with
    status := { busy := false, done := true, err := false, absent := true, werr := s.status.werr, ecode := .none,
                areason := r }
    eng := engIdle }

/-! ## Command words -/

/-- A CTRL word that launches OP `op`: START = 1, SRST = 0, OP in bits 7:0, every other bit free (30_encoding.md R110,
R123). -/
def LaunchesOp (op : BitVec 8) (w : Word) : Prop :=
  w.getLsbD 31 = true ∧ w.getLsbD 30 = false ∧ w.extractLsb' 0 8 = op

/-- The reserved OP values (30_encoding.md R113). -/
def ReservedOp (op : BitVec 8) : Prop :=
  op.toNat = 0x06 ∨ op.toNat = 0x07 ∨ (0x13 ≤ op.toNat ∧ op.toNat ≤ 0x1F) ∨ (0x22 ≤ op.toNat ∧ op.toNat ≤ 0x2F) ∨
    0x33 ≤ op.toNat

/-- The bits of a command word that a command of this kind reads: mask of R123, and the operand fields of R111. -/
def usedBits : Instr → Word
  | .srst => 0x40000000#32
  | .txtdec _ => 0xC00300FF#32
  | .txtenc _ => 0xC00300FF#32
  | .msgdec _ _ => 0xC0103FFF#32
  | .msgenc _ _ => 0xC0103FFF#32
  | .nop | .getu | .gets | .setu | .sets | .bufclr | .a2v | .v2a | .armdec | .armenc | .t2v | .v2t
  | .cksum | .frame | .unframe | .sog2kmh | .kmh2sog | .tsresolve => 0xC00000FF#32

/-- CTRL holding the fields of a written word (10_state.md R32). -/
def ctrlOf (w : Word) : Ctrl :=
  { op := w.extractLsb' 0 8, mtype := w.extractLsb' 8 6, sel := w.extractLsb' 16 2, units := w.extractLsb' 20 1 }

/-! ## Bytes and stream bits -/

/-- Stream bit k of BUF (00_scope.md R8): bit `7 - k mod 8` of byte `BUF[k div 8]`. -/
def streamBit (m : Memory) (k : Nat) : Bool := (readByte m (0x400 + k / 8)).getLsbD (7 - k % 8)

/-- R141's loop over a bit source: `v = 0 ; for i in 0 .. w-1: v = (v << 1) | bit(s + i)`. -/
def natOfBits (bit : Nat → Bool) (s : Nat) : Nat → Nat
  | 0 => 0
  | w + 1 => 2 * natOfBits bit s w + (bit (s + w)).toNat

/-- The unsigned value of the stream field of width `w` at `s` (40_bitaccess.md R141). -/
def fieldNat (m : Memory) (s w : Nat) : Nat := natOfBits (streamBit m) s w

/-- The same with zeros for the stream bits at and beyond bit `8 * l` (41_armor_text.md R164). -/
def paddedFieldNat (m : Memory) (l s w : Nat) : Nat :=
  natOfBits (fun k => if k < 8 * l then streamBit m k else false) s w

/-- `BUF[j]` (10_state.md R49). -/
def bufByte (m : Memory) (j : Nat) : Byte := readByte m (0x400 + j)

/-- `TXT[j]` (10_state.md R50). -/
def txtByte (m : Memory) (j : Nat) : Byte := readByte m (0x800 + j)

/-- `PAY[j]` (10_state.md R51). -/
def payByte (m : Memory) (j : Nat) : Byte := readByte m (0x1000 + j)

/-- Every byte but those at `a .. a + n - 1` reads as before. -/
def BytesKept (m m' : Memory) (a n : Nat) : Prop := ∀ x, x < a ∨ a + n ≤ x → readByte m' x = readByte m x

/-! ## The alphabets, in the spec's numbers -/

/-- A byte of the armor alphabet (41_armor_text.md R161). -/
def IsArmor (c : Byte) : Prop := (48 ≤ c.toNat ∧ c.toNat ≤ 87) ∨ (96 ≤ c.toNat ∧ c.toNat ≤ 119)

/-- R161's formula mod 64, which for a byte of the alphabet is the formula itself. -/
def armorNat (c : Byte) : Nat :=
  ((if (c.toNat : Int) - 48 > 39 then (c.toNat : Int) - 56 else (c.toNat : Int) - 48) % 64).toNat

/-- The armor character of a value: 0..39 are bytes 48..87, 40..63 are bytes 96..119 (R160). -/
def armorLetter (v : Nat) : Byte := BitVec.ofNat 8 (if v ≤ 39 then v + 48 else v + 56)

/-- TEXT_ALPHA[v] (R166): 0x40 + v below 32, v from 32 on. -/
def textLetter (v : Nat) : Byte := BitVec.ofNat 8 (if v < 32 then 0x40 + v else v)

/-- The text value of a byte, lower case counted as upper case, 63 if it has no entry (R168, R169). -/
def textNat (c : Byte) : Nat :=
  if 0x61 ≤ c.toNat ∧ c.toNat ≤ 0x7A then c.toNat - 0x60
  else if 0x40 ≤ c.toNat ∧ c.toNat ≤ 0x5F then c.toNat - 0x40
  else if 0x20 ≤ c.toNat ∧ c.toNat ≤ 0x3F then c.toNat
  else 63

/-- `x` is what a field of `n` characters at stream bit `s` decodes to: its characters, trailing spaces trimmed (R170). -/
def DecodesTo (m : Memory) (s n : Nat) (x : List Byte) : Prop :=
  x.length ≤ n ∧ (∀ i (h : i < x.length), x[i] = textLetter (fieldNat m (s + 6 * i) 6)) ∧
    (∀ i, x.length ≤ i → i < n → textLetter (fieldNat m (s + 6 * i) 6) = 0x20) ∧ x.getLast? ≠ some 0x20

/-- A field of `n` characters at stream bit `s` holds the text `x`, truncated or padded with spaces (R171). -/
def HoldsText (m : Memory) (s n : Nat) (x : List Byte) : Prop :=
  ∀ i < n, fieldNat m (s + 6 * i) 6 = textNat (x.getD i 0x20)

/-- `ord(hexDigit(d))` (42_checksum_frame.md R201). -/
def hexLetter (d : Nat) : Nat := if d ≤ 9 then 0x30 + d else 0x41 + (d - 10)

/-- CKSUM's and FRAME's RESULT for a checksum value (R203). -/
def checksumWord (cs : Byte) : Word :=
  BitVec.ofNat 32 (hexLetter (cs.toNat % 16) * 65536 + hexLetter (cs.toNat / 16) * 256 + cs.toNat)

/-- The XOR of `TXT[i .. i + n - 1]` (R200). -/
def xorText (m : Memory) (i : Nat) : Nat → Byte
  | 0 => 0
  | n + 1 => xorText m i n ^^^ txtByte m (i + n)

/-! ## Texts chosen by SEL -/

/-- The bytes of string register k: its valid ones (10_state.md R48). -/
def strText (s : State) : StrReg → List Byte
  | .str0 => (List.range s.str0.len).map fun j => readByte s.mem (0x180 + j)
  | .str1 => (List.range s.str1.len).map fun j => readByte s.mem (0x1A0 + j)
  | .str2 => (List.range s.str2.len).map fun j => readByte s.mem (0x1C0 + j)

/-- PRESENT of string register k (10_state.md R43). -/
def strPresent (s : State) : StrReg → Bool
  | .str0 => s.str0.present
  | .str1 => s.str1.present
  | .str2 => s.str2.present

/-- A string register as a source: the literal `UNKNOWN` when it is absent (41_armor_text.md R171). -/
def strOrUnknown (s : State) (k : StrReg) : List Byte :=
  if strPresent s k then strText s k else [0x55, 0x4E, 0x4B, 0x4E, 0x4F, 0x57, 0x4E]

/-- `PAY[0..PAY_LEN-1]` (10_state.md R51). -/
def payText (s : State) : List Byte := (List.range s.payLen).map fun j => payByte s.mem j

/-- The source string SEL chooses (41_armor_text.md R171). -/
def sourceText (s : State) : Sel → List Byte
  | .str0 => strOrUnknown s .str0
  | .str1 => strOrUnknown s .str1
  | .str2 => strOrUnknown s .str2
  | .pay => payText s

/-- The offset of the array SEL chooses (20_memory.md R81, 30_encoding.md R115). -/
def selOffset : Sel → Nat
  | .str0 => 0x180
  | .str1 => 0x1A0
  | .str2 => 0x1C0
  | .pay => 0x1000

/-- The length registers after `n` bytes are stored where SEL chooses (41_armor_text.md R181): LEN and PRESENT of the
string register, or PAY_LEN. -/
def withTextLength (k : Sel) (n : Nat) (s : State) : State :=
  match k with
  | .str0 => { s with str0 := { len := n, present := true } }
  | .str1 => { s with str1 := { len := n, present := true } }
  | .str2 => { s with str2 := { len := n, present := true } }
  | .pay => { s with payLen := n }

/-! ## What whole operations leave -/

/-- What SETU and SETS do (40_bitaccess.md R148, R149, with R140's checks and R143's writes): the low bits of VALUE in
the field, most significant first; no other bit and no other byte changes. -/
def FieldWrite (i : Instr) : Prop :=
  ∀ s : State,
    ((s.width.toNat < 1 ∨ 32 < s.width.toNat) → exec i s = .next (afterError .badWidth s.width s)) ∧
    (1 ≤ s.width.toNat → s.width.toNat ≤ 32 →
      (8 * s.bufLen < s.start.toNat + s.width.toNat → exec i s = .next (afterError .bitRange s.start s)) ∧
      (s.start.toNat + s.width.toNat ≤ 8 * s.bufLen → Memory.wf s.mem = true →
        ∃ m : Memory, exec i s = .next { afterSuccess s with mem := m } ∧
          (∀ j < s.width.toNat,
            streamBit m (s.start.toNat + j) = s.value.getLsbD (s.width.toNat - 1 - j)) ∧
          (∀ k, k < s.start.toNat ∨ s.start.toNat + s.width.toNat ≤ k → streamBit m k = streamBit s.mem k) ∧
          (∀ a, a < 0x400 + s.start.toNat / 8 ∨ 0x400 + (s.start.toNat + s.width.toNat - 1) / 8 < a →
            readByte m a = readByte s.mem a)))

/-- `n` armor characters at TXT[o] on hold the first `6 n` stream bits of the `l` valid bytes of BUF, zeros beyond them
(41_armor_text.md R164). -/
def ArmorsBuffer (m m' : Memory) (l n o : Nat) : Prop :=
  ∀ j < n, txtByte m' (o + j) = armorLetter (paddedFieldNat m l (6 * j) 6)

/-- The number of armor characters of l bytes (41_armor_text.md R164). -/
def armorCount (armorMin : Bool) (l : Nat) : Nat := if armorMin then (8 * l + 5) / 6 else 4 * ((l + 2) / 3)

/-! ## Layout descriptors -/

/-- The stream bits a fixed descriptor covers. -/
def descSpan : Desc → Nat × Nat
  | .u off w _ => (off, w)
  | .s off w _ => (off, w)
  | .v off w _ => (off, w)
  | .t off w _ => (off, w)
  | .bin off => (off, 0)
  | .vtxt off => (off, 0)

/-- What one descriptor of a decoded layout leaves in the record (43_message_codec.md R220, R231, R233, R236). -/
def DecodedField (u : Units) (s t : State) : Desc → Prop
  | .u off w i => (readRec t i).toNat = fieldNat s.mem off w
  | .s off w i => (readRec t i).toInt = if fieldNat s.mem off w < 2 ^ (w - 1)
      then (fieldNat s.mem off w : Int) else (fieldNat s.mem off w : Int) - 2 ^ w
  | .v off w i => (readRec t i).toNat =
      match u with
      | .wire => fieldNat s.mem off w
      | .kmh => fieldNat s.mem off w * 1852 / 10000
  | .t off w k => DecodesTo s.mem off (w / 6) (strText t k) ∧ strPresent t k = true
  | .bin off => payText t = (List.range (s.bufLen - off / 8)).map fun j => bufByte s.mem (off / 8 + j)
  | .vtxt off => DecodesTo s.mem off ((8 * s.bufLen - off) / 6) (payText t)

/-- Whether a descriptor writes record register `i`. -/
def Desc.targetsRec (i : Fin 32) : Desc → Bool
  | .u _ _ r => r == i
  | .s _ _ r => r == i
  | .v _ _ r => r == i
  | .t _ _ _ => false
  | .bin _ => false
  | .vtxt _ => false

/-- Whether a descriptor writes string register `k`. -/
def Desc.targetsStr (k : StrReg) : Desc → Bool
  | .t _ _ j => j == k
  | .u _ _ _ => false
  | .s _ _ _ => false
  | .v _ _ _ => false
  | .bin _ => false
  | .vtxt _ => false

/-- What one descriptor of an encoded layout leaves in BUF (43_message_codec.md R220, R234, R236). -/
def EncodedField (u : Units) (lay : Layout) (s : State) (m : Memory) : Desc → Prop
  | .u off w i => fieldNat m off w = (readRec s i).toNat % 2 ^ w
  | .s off w i => fieldNat m off w = (readRec s i).toNat % 2 ^ w
  | .v off w i => fieldNat m off w =
      match u with
      | .wire => (readRec s i).toNat % 2 ^ w
      | .kmh => (readRec s i).toNat * 10000 / 1852 % 2 ^ 32 % 2 ^ w
  | .t off w k => HoldsText m off (w / 6) (strOrUnknown s k)
  | .bin off => ∀ j < min s.payLen (tailCap lay), bufByte m (off / 8 + j) = payByte s.mem j
  | .vtxt off =>
    HoldsText m off (4 * ((min s.payLen (tailCap lay) + 3) / 4)) ((payText s).take (min s.payLen (tailCap lay)))

/-- What the round trip restores of one descriptor (43_message_codec.md R237): U and V fields mod 2^w, S fields as the
two's-complement value of their low bits, texts upcased, cut and right-trimmed, PAY up to the cap. With UNITS = 1 a
speed whose wire value fits comes back as k - 1 or k. -/
def RestoredField (u : Units) (lay : Layout) (s t : State) : Desc → Prop
  | .u _ w i => i ≠ 0 → (readRec t i).toNat = (readRec s i).toNat % 2 ^ w
  | .s _ w i => (readRec t i).toInt = ((readRec s i).toInt).bmod (2 ^ w)
  | .v _ w i =>
    match u with
    | .wire => (readRec t i).toNat = (readRec s i).toNat % 2 ^ w
    | .kmh => (readRec s i).toNat * 10000 / 1852 < 1024 →
        (readRec t i).toNat = (readRec s i).toNat ∨ (readRec t i).toNat + 1 = (readRec s i).toNat
  | .t _ w k => (∀ c ∈ strOrUnknown s k, textNat c ≠ 63 ∨ c = 0x3F) →
      strText t k = trimRight (((strOrUnknown s k).take (w / 6)).map upcase)
  | .bin _ => payText t = (payText s).take (tailCap lay)
  | .vtxt _ => (∀ c ∈ payText s, textNat c ≠ 63 ∨ c = 0x3F) →
      payText t = trimRight (((payText s).take (tailCap lay)).map upcase)

end Sys2Proof.Machine
end

