-- ==== Sys2Proof/Certificates/Slice0/Obligations.lean ====
section
/-! DEFINITION. The statements about AISCODEC-1 for the provers. Each docstring says which rule of spec/ it
formalises. The vocabulary (`afterSuccess`, `fieldNat`, `streamBit`, …) is Safety.lean's, written from the spec. -/

open Sys2Proof Sys2Proof.Machine

/-! ## Encoding -/

/-- 30_encoding.md R110, R111, R121, R123: every well-formed command, encoded, decodes to itself, with every operand
at every value its field admits. -/
def Obligations.DecodeOfEncodeIsIdentity : Prop :=
  ∀ i : Instr, i.wellFormed = true → decode (encode i) = .ok i

/-- 30_encoding.md R110..R112, R123: a word decodes to a command exactly if the command is well formed and the word agrees
with the command's own on every bit the command reads; every other bit is free. -/
def Obligations.DecodedWordCarriesItsFields : Prop :=
  ∀ (w : Word) (i : Instr), decode w = .ok i ↔ i.wellFormed = true ∧ w &&& usedBits i = encode i

/-- 30_encoding.md R123 (with R113): a soft reset whatever the other bits hold; a launch of the operation with that OP if
there is one, else no operation; or no command. -/
def Obligations.DecoderTellsCommandsApart : Prop :=
  ∀ w : Word,
    (w &&& 0x40000000#32 ≠ 0 → decode w = .ok .srst) ∧
    (w &&& 0xC0000000#32 = 0 → decode w = .error .noCommand) ∧
    (w &&& 0xC0000000#32 = 0x80000000#32 → ∀ op : BitVec 8, op = w.extractLsb' 0 8 →
      (ReservedOp op → decode w = .error (.reservedOp op)) ∧
      (¬ReservedOp op → ∃ i, decode w = .ok i ∧ opcode i = some op))

/-- 30_encoding.md R122 and the opcode map of R111, on words written out bit by bit. -/
def Obligations.SampleWordsDecode : Prop :=
  decode 0b10000000000000000000000000000001#32 = .ok .getu ∧
    decode 0b10000000000100000000000100100001#32 = .ok (.msgenc 1 .kmh) ∧
    decode 0b10000000000000010000000000001110#32 = .ok (.txtdec .str1) ∧
    decode 0b10000000000000000000000000010010#32 = .ok .unframe ∧
    decode 0b10000000000000000000000000110010#32 = .ok .tsresolve ∧
    decode 0b01000000000000000000000000000000#32 = .ok .srst ∧
    decode 0b00000000000000000000000000000001#32 = .error .noCommand

/-- 30_encoding.md R121, R122: the word of an `op` line, `0x80000000 | (u<<20) | (s<<16) | (m<<8) | OP(MNEM)`, decodes to
the operation, whatever it gives the operands the operation's row does not use; the two encodings R122 writes out. -/
def Obligations.OpLinesEncodeTheirCommands : Prop :=
  (∀ (op : BitVec 8) (m : BitVec 6) (s : BitVec 2) (u : BitVec 1), ∃ w : Word, asmOp op m s u = [.write .w32 0x004 w] ∧
    w.toNat = 2147483648 + 1048576 * u.toNat + 65536 * s.toNat + 256 * m.toNat + op.toNat ∧
    ∀ i : Instr, opcode i = some op →
      (∀ t, i = .txtdec t ∨ i = .txtenc t → (s, t) ∈ [(0#2, Sel.str0), (1#2, .str1), (2#2, .str2), (3#2, .pay)]) →
      (∀ n v, i = .msgdec n v ∨ i = .msgenc n v → m.toNat = n ∧ (u, v) ∈ [(0#1, Units.wire), (1#1, .kmh)]) →
      decode w = .ok i) ∧
  asmOp 0x01 = [.write .w32 0x004 0x80000001#32] ∧
  asmOp 0x21 1 0 1 = [.write .w32 0x004 0x80100121#32]

/-! ## Steps -/

/-- 60_exceptions.md R300, 30_encoding.md R110, 70_reset_and_hazards.md R352: a CTRL write with SRST = 0. With START = 1
and BUSY = 0 it stores the fields, clears STATUS but WERR, sets BUSY and ENG.phase as one event; with START = 0 it only
stores the fields; while BUSY = 1 it is dropped and sets WERR. -/
def Obligations.CtrlWritesLaunchOrStore : Prop :=
  ∀ (s : State) (w : Word) (ts : List Turn), s.rstN = true → s.turns = .host (.write .w32 0x004 w) :: ts →
    w.getLsbD 30 = false →
    (s.status.busy = false → w.getLsbD 31 = true →
      step s = .next { s with
        turns := ts
        resp := .done
        ctrl := ctrlOf w
        status := { busy := true, done := false, err := false, absent := false, werr := s.status.werr, ecode := .none,
                    areason := .none }
        eng := { phase := .run, fsm := .check, idx := 0 } }) ∧
    (s.status.busy = false → w.getLsbD 31 = false →
      step s = .next { s with turns := ts, resp := .done, ctrl := ctrlOf w }) ∧
    (s.status.busy = true →
      step s = .next { s with turns := ts, resp := .done, status := { s.status with werr := true } })

/-- 10_state.md R34, 60_exceptions.md R300, R301, 70_reset_and_hazards.md R342, R363: a step runs the decoded command.
When the latch holds a launching word's fields and BUSY = 1, the completing step (the schedule's next turn, or the step
of an exhausted schedule) is `exec` of the word's command; a CTRL write with SRST is `exec` of SRST, in every state. -/
def Obligations.StepRunsTheDecodedCommand : Prop :=
  ∀ (s : State) (w : Word) (i : Instr) (ts : List Turn), decode w = .ok i →
    (s.status.busy = true → w.getLsbD 30 = false → s.ctrl = ctrlOf w →
      (s.turns = .engineComplete :: ts ∨ s.turns = [] ∧ ts = []) → step s = exec i { s with turns := ts }) ∧
    (s.rstN = true → w.getLsbD 30 = true → s.turns = .host (.write .w32 0x004 w) :: ts →
      i = .srst ∧ step s = exec .srst { s with turns := ts, resp := .done })

/-- 30_encoding.md R113, 60_exceptions.md R303..R305: a launched reserved OP completes with BAD_OP and ERRINFO = OP and
changes no other state. -/
def Obligations.ReservedOpcodeCompletesWithBadOp : Prop :=
  ∀ (s : State) (ts : List Turn), s.status.busy = true → ReservedOp s.ctrl.op →
    (s.turns = .engineComplete :: ts ∨ s.turns = [] ∧ ts = []) →
    step s = .next (afterError .badOp (s.ctrl.op.setWidth 32) { s with turns := ts })

/-- 70_reset_and_hazards.md R363: an engine step that does not complete the operation changes only hidden ENG state, and
leaves its phase; with BUSY = 0 an engine turn does nothing (log 1). -/
def Obligations.EngineProgressIsHidden : Prop :=
  ∀ (s : State) (ts : List Turn),
    (s.turns = .engineAdvance :: ts → s.status.busy = true →
      ∃ e : Eng, e.phase = s.eng.phase ∧ step s = .next { s with turns := ts, eng := e }) ∧
    ((s.turns = .engineAdvance :: ts ∨ s.turns = .engineComplete :: ts) → s.status.busy = false →
      step s = .next { s with turns := ts })

/-- 43_message_codec.md R232: while MSGENC runs, engine progress leads from CHECK to ERROR for an unsupported id and else
to XFER at index 0, counts the fixed descriptors (none for MTYPE = 0), then TAIL, then COMMIT, which waits for the
completing step, as ERROR does. What ENG.idx holds outside XFER is the model's choice (log 7). -/
def Obligations.EncoderWalksItsLayout : Prop :=
  ∀ (s : State) (w : Word) (m : Nat) (u : Units) (fixed : List Desc) (ts : List Turn),
    decode w = .ok (.msgenc m u) → s.ctrl = ctrlOf w → s.status.busy = true → s.turns = .engineAdvance :: ts →
    (∀ lay, layoutOf m = some lay → fixed = (layoutRom lay).filter fun d => !d.isTail) →
    (layoutOf m = none → fixed = []) →
    (s.eng.fsm = .check → m ≠ 0 → layoutOf m = none →
      step s = .next { s with turns := ts, eng := { s.eng with fsm := .error, idx := 0 } }) ∧
    (s.eng.fsm = .check → (m = 0 ∨ layoutOf m ≠ none) →
      step s = .next { s with turns := ts, eng := { s.eng with fsm := .xfer, idx := 0 } }) ∧
    (s.eng.fsm = .xfer → s.eng.idx + 1 < fixed.length →
      step s = .next { s with turns := ts, eng := { s.eng with idx := s.eng.idx + 1 } }) ∧
    (s.eng.fsm = .xfer → fixed.length ≤ s.eng.idx + 1 →
      step s = .next { s with turns := ts, eng := { s.eng with fsm := .tail, idx := fixed.length } }) ∧
    (s.eng.fsm = .tail → step s = .next { s with turns := ts, eng := { s.eng with fsm := .commit } }) ∧
    ((s.eng.fsm = .commit ∨ s.eng.fsm = .error) → step s = .next { s with turns := ts })

/-- 70_reset_and_hazards.md R361, 60_exceptions.md R301: once nothing else is scheduled, a running operation completes,
whatever it is. R361 promises finitely many steps; that the very next step of an empty schedule completes is the model's
DESIGN CHOICE (log 1). -/
def Obligations.RunningOperationCompletes : Prop :=
  ∀ s : State, s.turns = [] → s.status.busy = true →
    ∃ t, step s = .next t ∧ t.status.busy = false ∧ t.status.done = true ∧ t.eng.phase = .idle

/-- 60_exceptions.md R300, R302, 20_memory.md R91, R95, 10_state.md R34: from launch to completion nothing an operation
reads can change: a step after which BUSY is still 1 leaves the command latch, every operand register, REC and every array
byte as they were at launch; so the operands seen at any later point equal those at launch, and no partial result is
visible. -/
def Obligations.RunningOperationSeesItsLaunchState : Prop :=
  ∀ s t : State, s.status.busy = true → step s = .next t → t.status.busy = true →
    t.ctrl = s.ctrl ∧ t.start = s.start ∧ t.width = s.width ∧ t.value = s.value ∧ t.bufLen = s.bufLen ∧
      t.txtLen = s.txtLen ∧ t.payLen = s.payLen ∧ t.str0 = s.str0 ∧ t.str1 = s.str1 ∧ t.str2 = s.str2 ∧
      t.now0 = s.now0 ∧ t.now1 = s.now1 ∧ t.cfg = s.cfg ∧ t.recs = s.recs ∧ t.mem = s.mem ∧
      t.result = s.result ∧ t.errinfo = s.errinfo

/-! ## The bus -/

/-- 70_reset_and_hazards.md R352: host writes while BUSY = 1. Here `w` is an accepted access width at `off`. -/
def Obligations.WritesWhileBusy : Prop :=
  ∀ (s : State) (w : Width) (off : Nat) (v : Word) (ts : List Turn), s.rstN = true → s.status.busy = true →
    s.turns = .host (.write w off v) :: ts → (w = .w32 ∧ off % 4 = 0 ∨ w = .w8 ∧ 0x180 ≤ off) → off < 0x2000 →
    (off = 0x008 →
      step s = .next { s with turns := ts, resp := .done, status := { s.status with
        done := s.status.done && !v.getLsbD 1, err := s.status.err && !v.getLsbD 2,
        werr := s.status.werr && !v.getLsbD 4 } }) ∧
    (off = 0x00C →
      step s = .next { s with turns := ts, resp := .done, inten := ⟨v.getLsbD 0, v.getLsbD 1⟩ }) ∧
    (off = 0x004 → v.getLsbD 30 = true → step s = exec .srst { s with turns := ts, resp := .done }) ∧
    ((off = 0x004 ∧ v.getLsbD 30 = false ∨ off ∈ [0x010, 0x014, 0x018, 0x020, 0x024, 0x028, 0x030, 0x034, 0x038, 0x03C,
          0x040, 0x044] ∨ (0x100 ≤ off ∧ off < 0x1E0) ∨ (0x400 ≤ off ∧ off < 0x1800)) →
      step s = .next { s with turns := ts, resp := .done, status := { s.status with werr := true } }) ∧
    ((off ∈ [0x000, 0x01C, 0x02C] ∨ (0x048 ≤ off ∧ off < 0x100) ∨ (0x1E0 ≤ off ∧ off < 0x400) ∨ 0x1800 ≤ off) →
      step s = .next { s with turns := ts, resp := .done })

/-- 20_memory.md R82, R83: an access that is not a 32-bit one at a multiple of 4 or an 8-bit one from 0x0180 on is
refused with a bus error: a refused read returns 0, a refused write changes no state, and STATUS is left alone. -/
def Obligations.RefusedAccessChangesNothing : Prop :=
  ∀ (s : State) (w : Width) (off : Nat) (v : Word) (ts : List Turn), s.rstN = true → off < 0x2000 →
    (s.turns = .host (.read w off) :: ts ∨ s.turns = .host (.write w off v) :: ts) →
    (w = .w32 → off % 4 ≠ 0) → (w = .w8 → off < 0x180) →
    step s = .next { s with turns := ts, resp := .error 0 }

/-- 20_memory.md R88, R90: a host read, answered or not, changes nothing the spec gives the block; with BUSY = 0 it draws
nothing. -/
def Obligations.ReadsHaveNoSideEffects : Prop :=
  ∀ (s : State) (w : Width) (off : Nat) (ts : List Turn), s.turns = .host (.read w off) :: ts →
    ∃ (r : Resp) (d : Nat), step s = .next { s with turns := ts, resp := r, draws := d } ∧
      (s.status.busy = false → d = s.draws)

/-- 10_state.md R31..R47, 20_memory.md R90: what a 32-bit read of a register returns: with BUSY = 0 every register, with
BUSY = 1 those that still read their stored values; reserved bits and reserved offsets read 0. -/
def Obligations.RegisterReads : Prop :=
  ∀ (s : State) (off : Nat) (ts : List Turn), s.rstN = true → s.turns = .host (.read .w32 off) :: ts →
    off % 4 = 0 → off < 0x180 →
    (s.status.busy = false ∨ off ∈ [0x000, 0x004, 0x008, 0x00C, 0x010, 0x014, 0x018, 0x03C, 0x040, 0x044]) →
    ∃ v : Word, step s = .next { s with turns := ts, resp := .data v } ∧
      (off = 0x000 → v = 0x41495301#32) ∧
      (off = 0x004 → v.toNat = s.ctrl.op.toNat + 256 * s.ctrl.mtype.toNat + 65536 * s.ctrl.sel.toNat +
        1048576 * s.ctrl.units.toNat) ∧
      (off = 0x008 → v.toNat = s.status.busy.toNat + 2 * s.status.done.toNat + 4 * s.status.err.toNat +
        8 * s.status.absent.toNat + 16 * s.status.werr.toNat + 256 * s.status.ecode.code.toNat +
        4096 * s.status.areason.code.toNat) ∧
      (off = 0x00C → v.toNat = s.inten.doneIe.toNat + 2 * s.inten.errIe.toNat) ∧
      (off = 0x010 → v = s.start) ∧ (off = 0x014 → v = s.width) ∧ (off = 0x018 → v = s.value) ∧
      (off = 0x01C → v = s.result) ∧ (off = 0x02C → v = s.errinfo) ∧
      (off = 0x020 → s.bufLen ≤ 1024 → v.toNat = s.bufLen) ∧ (off = 0x024 → s.txtLen ≤ 2048 → v.toNat = s.txtLen) ∧
      (off = 0x028 → s.payLen ≤ 2048 → v.toNat = s.payLen) ∧
      (off = 0x030 → s.str0.len ≤ 32 → v.toNat = s.str0.len + 256 * s.str0.present.toNat) ∧
      (off = 0x034 → s.str1.len ≤ 32 → v.toNat = s.str1.len + 256 * s.str1.present.toNat) ∧
      (off = 0x038 → s.str2.len ≤ 32 → v.toNat = s.str2.len + 256 * s.str2.present.toNat) ∧
      (off = 0x03C → v.toNat = s.now0.year.toNat + 65536 * s.now0.month.toNat + 16777216 * s.now0.day.toNat) ∧
      (off = 0x040 → v.toNat = s.now1.hour.toNat + 256 * s.now1.minute.toNat + 65536 * s.now1.second.toNat) ∧
      (off = 0x044 → v.toNat = s.cfg.armorLax.toNat + 2 * s.cfg.armorMin.toNat + 4 * s.cfg.bsFix.toNat +
        8 * s.cfg.airId13.toNat) ∧
      (∀ i : Fin 32, off = 0x100 + 4 * i.val → v = readRec s i) ∧
      (0x048 ≤ off → off < 0x100 → v = 0)

/-- 20_memory.md R90: with BUSY = 1 a read of an output is a free draw, the next one, whatever its value: of RESULT, the
lengths, ERRINFO, STRk_CTL, REC and the arrays by a 32-bit access, and of an array byte by an 8-bit one. (The form of the
draw is the model's, log 4: nothing is stated of its value.) -/
def Obligations.ReadsWhileBusyAreFreeDraws : Prop :=
  ∀ (s : State) (off : Nat) (ts : List Turn), s.rstN = true → s.status.busy = true →
    (s.turns = .host (.read .w32 off) :: ts → off % 4 = 0 →
      (off ∈ [0x01C, 0x020, 0x024, 0x028, 0x02C, 0x030, 0x034, 0x038] ∨ (0x100 ≤ off ∧ off < 0x1E0) ∨
        (0x400 ≤ off ∧ off < 0x1800)) →
      step s = .next { s with turns := ts, resp := .data (Config.busyRead s.draws), draws := s.draws + 1 }) ∧
    (s.turns = .host (.read .w8 off) :: ts → ((0x180 ≤ off ∧ off < 0x1E0) ∨ (0x400 ≤ off ∧ off < 0x1800)) →
      step s = .next { s with
        turns := ts
        resp := .data (BitVec.ofNat 32 ((Config.busyRead s.draws).toNat % 256))
        draws := s.draws + 1 })

/-- 10_state.md R33, R35, R36, R38..R47 (with R31, R37, R42 for the read-only registers): what a 32-bit write to a
register other than CTRL stores with BUSY = 0, and nothing else: the write-1-to-clear of STATUS, the clamp of every length
to its capacity, reserved bits dropped. -/
def Obligations.RegisterWrites : Prop :=
  ∀ (s u : State) (v : Word) (off : Nat) (ts : List Turn), s.rstN = true → s.status.busy = false →
    s.turns = .host (.write .w32 off v) :: ts → u = { s with turns := ts, resp := .done } →
    (off = 0x008 → step s = .next { u with status := { s.status with
      done := s.status.done && !v.getLsbD 1, err := s.status.err && !v.getLsbD 2,
      werr := s.status.werr && !v.getLsbD 4 } }) ∧
    (off = 0x00C → step s = .next { u with inten := ⟨v.getLsbD 0, v.getLsbD 1⟩ }) ∧
    (off = 0x010 → step s = .next { u with start := v }) ∧
    (off = 0x014 → step s = .next { u with width := v }) ∧
    (off = 0x018 → step s = .next { u with value := v }) ∧
    (off = 0x020 → step s = .next { u with bufLen := min v.toNat 1024 }) ∧
    (off = 0x024 → step s = .next { u with txtLen := min v.toNat 2048 }) ∧
    (off = 0x028 → step s = .next { u with payLen := min v.toNat 2048 }) ∧
    (off = 0x030 → step s = .next { u with str0 := ⟨min (v.toNat % 64) 32, v.getLsbD 8⟩ }) ∧
    (off = 0x034 → step s = .next { u with str1 := ⟨min (v.toNat % 64) 32, v.getLsbD 8⟩ }) ∧
    (off = 0x038 → step s = .next { u with str2 := ⟨min (v.toNat % 64) 32, v.getLsbD 8⟩ }) ∧
    (off = 0x03C → step s = .next { u with
      now0 := ⟨BitVec.ofNat 16 v.toNat, BitVec.ofNat 8 (v.toNat / 65536), BitVec.ofNat 8 (v.toNat / 16777216)⟩ }) ∧
    (off = 0x040 → step s = .next { u with
      now1 := ⟨BitVec.ofNat 8 v.toNat, BitVec.ofNat 8 (v.toNat / 256), BitVec.ofNat 8 (v.toNat / 65536)⟩ }) ∧
    (off = 0x044 → step s = .next { u with
      cfg := ⟨v.getLsbD 0, v.getLsbD 1, v.getLsbD 2, v.getLsbD 3⟩ }) ∧
    (∀ i : Fin 32, off = 0x100 + 4 * i.val → step s = .next { u with recs := s.recs.set i v }) ∧
    (off ∈ [0x000, 0x01C, 0x02C] → step s = .next u)

/-- 20_memory.md R81, R82, R84: accesses to an array with BUSY = 0. The byte lanes of a 32-bit access are little-endian,
for a read and for a write; an 8-bit access moves the one byte at its offset, in data bits 7:0, and an 8-bit read has
zeros above it (that place of the byte in the data is DEDUCED, log 15). A write stores no other byte. -/
def Obligations.WordLanesAreLittleEndian : Prop :=
  ∀ (s : State) (off : Nat) (v : Word) (ts : List Turn), s.rstN = true → s.status.busy = false →
    (0x180 ≤ off ∧ off < 0x1E0 ∨ 0x400 ≤ off ∧ off < 0x1800) →
    (s.turns = .host (.read .w32 off) :: ts → off % 4 = 0 →
      ∃ d : Word, step s = .next { s with turns := ts, resp := .data d } ∧
        ∀ j < 4, (d.extractLsb' (8 * j) 8 : Byte) = readByte s.mem (off + j)) ∧
    (s.turns = .host (.write .w32 off v) :: ts → off % 4 = 0 → Memory.wf s.mem = true →
      ∃ m : Memory, step s = .next { s with turns := ts, resp := .done, mem := m } ∧
        (∀ j < 4, readByte m (off + j) = (v.extractLsb' (8 * j) 8 : Byte)) ∧ BytesKept s.mem m off 4) ∧
    (s.turns = .host (.read .w8 off) :: ts →
      ∃ d : Word, step s = .next { s with turns := ts, resp := .data d } ∧ d.toNat = (readByte s.mem off).toNat) ∧
    (s.turns = .host (.write .w8 off v) :: ts → Memory.wf s.mem = true →
      ∃ m : Memory, step s = .next { s with turns := ts, resp := .done, mem := m } ∧
        (readByte m off).toNat = v.toNat % 256 ∧ BytesKept s.mem m off 1)

/-- 10_state.md R46, R56, 20_memory.md R81, 70_reset_and_hazards.md R352(e): reserved addresses of the aperture read 0 and
ignore writes, in every state the block accepts accesses in. That a read of one while BUSY = 1 still gives 0 is DEDUCED
(log 13). -/
def Obligations.ReservedAddressesHoldNothing : Prop :=
  ∀ (s : State) (w : Width) (off : Nat) (v : Word) (ts : List Turn), s.rstN = true →
    (w = .w32 ∧ off % 4 = 0 ∨ w = .w8 ∧ 0x180 ≤ off) →
    ((0x048 ≤ off ∧ off < 0x100) ∨ (0x1E0 ≤ off ∧ off < 0x400) ∨ (0x1800 ≤ off ∧ off < 0x2000)) →
    (s.turns = .host (.read w off) :: ts → step s = .next { s with turns := ts, resp := .data 0 }) ∧
    (s.turns = .host (.write w off v) :: ts → step s = .next { s with turns := ts, resp := .done })

/-- 10_state.md R55, 60_exceptions.md R300, R301, R309: the interrupt line is raised by an enabled DONE, ERR or WERR: a
launch leaves it to WERR, a success raises it through DONE_IE, an error through DONE_IE or ERR_IE, and clearing the
three bits by a STATUS write lowers it. -/
def Obligations.InterruptLineFollowsStatus : Prop :=
  ∀ s : State,
    ((afterSuccess s).irq = (s.inten.doneIe || (s.status.werr && s.inten.errIe))) ∧
    (∀ e i, (afterError e i s).irq = (s.inten.doneIe || s.inten.errIe)) ∧
    (∀ w, (launch w s).irq = (s.status.werr && s.inten.errIe)) ∧
    (∀ ts, s.rstN = true → s.turns = .host (.write .w32 0x008 0x16) :: ts → ∃ t, step s = .next t ∧ t.irq = false ∧
      t.status.ecode = s.status.ecode ∧ t.status.areason = s.status.areason)

/-- 60_exceptions.md R301, R304, R307, 10_state.md R33: STATUS as the host reads it right after each outcome, with
WERR = 0 before. -/
def Obligations.StatusWordsOfCompletions : Prop :=
  ∀ s : State, s.status.werr = false →
    (afterSuccess s).status.toWord = 0x00000002#32 ∧
    (∀ p ∈ [(ECode.badOp, 0x00000106#32), (.badWidth, 0x00000206#32), (.bitRange, 0x00000306#32),
        (.armorChar, 0x00000406#32), (.lenOverflow, 0x00000506#32), (.frameFormat, 0x00000606#32),
        (.unsupported, 0x00000706#32)], ∀ info, (afterError p.1 info s).status.toWord = p.2) ∧
    (∀ p ∈ [(AReason.empty, 0x0000100A#32), (.short, 0x0000200A#32), (.idMismatch, 0x0000300A#32),
        (.unknownId, 0x0000400A#32)], (afterAbsence p.1 s).status.toWord = p.2)

/-! ## Reset -/

/-- 70_reset_and_hazards.md R342, 10_state.md R58: SRST, in every state: every CSR at its reset value, ENG idle, nothing
of a running operation committed, REC and the arrays unchanged (and the model's own fields); a CTRL write with SRST = 1 is
accepted at any time, whatever START and BUSY hold. -/
def Obligations.SoftResetClearsRegistersOnly : Prop :=
  (∀ w : Word, w.getLsbD 30 = true → decode w = .ok .srst ∧
    ∀ (s : State) (ts : List Turn), s.rstN = true → s.turns = .host (.write .w32 0x004 w) :: ts →
      step s = exec .srst { s with turns := ts, resp := .done }) ∧
  ∀ s : State, exec .srst s = .next
    { ctrl := ⟨0, 0, 0, 0⟩
      status := ⟨false, false, false, false, false, .none, .none⟩
      inten := ⟨false, false⟩
      start := 0, width := 0, value := 0, result := 0
      bufLen := 0, txtLen := 0, payLen := 0, errinfo := 0
      str0 := ⟨0, false⟩, str1 := ⟨0, false⟩, str2 := ⟨0, false⟩
      now0 := ⟨0, 0, 0⟩, now1 := ⟨0, 0, 0⟩
      cfg := ⟨false, false, false, false⟩
      recs := s.recs, mem := s.mem
      eng := engIdle
      rstN := s.rstN, turns := s.turns, resp := s.resp, draws := s.draws }

/-- 10_state.md R58, R59, 70_reset_and_hazards.md R340: from any state, asserting RST_N abandons everything, with IRQ 0
and ENG idle; while it is asserted a host access is answered as for an absent device and changes nothing; its release
leaves a powered-on state whose REC and array contents are whatever the release brings. (RST_N's edges as turns, and the
contents as their data, are the model's form, log 10.) -/
def Obligations.PowerOnResetLeavesResetState : Prop :=
  ∀ (s : State) (recs : Vector Word 32) (cells : List Host.Cell) (a : Access) (ts : List Turn),
    s.turns = .rstAssert :: .host a :: .rstRelease recs cells :: ts →
    ∃ t p : State, step s = .next t ∧ t.irq = false ∧ t.status.busy = false ∧ t.eng = engIdle ∧
      step t = .next { t with turns := .rstRelease recs cells :: ts, resp := .noDevice } ∧
      step { t with turns := .rstRelease recs cells :: ts, resp := .noDevice } = .next p ∧
      p.PoweredOn ∧ p.recs = recs ∧ p.turns = ts ∧
      (Memory.wf cells = true → Memory.inArrays cells = true → p.mem = cells)

/-- 10_state.md R58: the state after reset is a powered-on state and meets the invariant. -/
def Obligations.ResetStateMeetsTheInvariant : Prop :=
  State.reset.PoweredOn ∧ ∀ s : State, s.PoweredOn → s.Inv

/-- 70_reset_and_hazards.md R341: in every powered-on state CKSUM returns 0x00303000 and MSGDEC is absent (EMPTY),
whatever the unspecified contents are. -/
def Obligations.FirstCommandsAfterReset : Prop :=
  ∀ s : State, s.PoweredOn →
    exec .cksum s = .next { afterSuccess s with result := 0x00303000#32 } ∧
    (∀ u, exec (.msgdec 0 u) s = .next (afterAbsence .empty s)) ∧
    exec .armenc s = .next { afterSuccess s with txtLen := 0 }

/-! ## Every operation -/

/-- 60_exceptions.md R301, R302, R316 (with 30_encoding.md R111's column "state written" and 10_state.md R57): every
launched operation ends in exactly one of success, absence and error; an error or an absence leaves everything but STATUS,
ERRINFO (on an error) and hidden ENG as it was; only MSGDEC is ever absent; with CFG.ARMOR_LAX = 1 no operation raises
ARMOR_CHAR; no operation changes CTRL, INTEN, the operand registers, NOW0, NOW1, CFG, WERR or RST_N. -/
def Obligations.EveryOperationHasOneOutcome : Prop :=
  ∀ (i : Instr) (s : State), i ≠ .srst → ∃ t, exec i s = .next t ∧
    (t.ctrl = s.ctrl ∧ t.inten = s.inten ∧ t.start = s.start ∧ t.width = s.width ∧ t.value = s.value ∧
      t.now0 = s.now0 ∧ t.now1 = s.now1 ∧ t.cfg = s.cfg ∧ t.status.werr = s.status.werr ∧ t.rstN = s.rstN ∧
      t.turns = s.turns ∧ t.resp = s.resp ∧ t.draws = s.draws) ∧
    ((t.status = (afterSuccess s).status ∧ t.errinfo = s.errinfo ∧ t.eng = engIdle) ∨
      (∃ e info, e ≠ .none ∧ e ≠ .badOp ∧ (s.cfg.armorLax = true → e ≠ .armorChar) ∧ t = afterError e info s) ∨
      (∃ r m u, r ≠ .none ∧ i = .msgdec m u ∧ t = afterAbsence r s))

/-! ## Bitstream accessor -/

/-- 40_bitaccess.md R145. -/
def Obligations.NopOnlyCompletes : Prop :=
  (∀ w, LaunchesOp 0x00 w → decode w = .ok .nop) ∧ ∀ s : State, exec .nop s = .next (afterSuccess s)

/-- 40_bitaccess.md R146, with R140's checks and R141's value. -/
def Obligations.GetuReadsAnUnsignedField : Prop :=
  (∀ w, LaunchesOp 0x01 w → decode w = .ok .getu) ∧
  ∀ s : State,
    ((s.width.toNat < 1 ∨ 32 < s.width.toNat) → exec .getu s = .next (afterError .badWidth s.width s)) ∧
    (1 ≤ s.width.toNat → s.width.toNat ≤ 32 →
      (8 * s.bufLen < s.start.toNat + s.width.toNat → exec .getu s = .next (afterError .bitRange s.start s)) ∧
      (s.start.toNat + s.width.toNat ≤ 8 * s.bufLen →
        exec .getu s =
          .next { afterSuccess s with result := BitVec.ofNat 32 (fieldNat s.mem s.start.toNat s.width.toNat) }))

/-- 40_bitaccess.md R147, with R140's checks and R142's sign extension: the field's two's-complement value. -/
def Obligations.GetsReadsASignedField : Prop :=
  (∀ w, LaunchesOp 0x02 w → decode w = .ok .gets) ∧
  ∀ s : State,
    ((s.width.toNat < 1 ∨ 32 < s.width.toNat) → exec .gets s = .next (afterError .badWidth s.width s)) ∧
    (1 ≤ s.width.toNat → s.width.toNat ≤ 32 →
      (8 * s.bufLen < s.start.toNat + s.width.toNat → exec .gets s = .next (afterError .bitRange s.start s)) ∧
      (s.start.toNat + s.width.toNat ≤ 8 * s.bufLen →
        ∃ v : Word, exec .gets s = .next { afterSuccess s with result := v } ∧
          v.toInt = if fieldNat s.mem s.start.toNat s.width.toNat < 2 ^ (s.width.toNat - 1)
            then (fieldNat s.mem s.start.toNat s.width.toNat : Int)
            else (fieldNat s.mem s.start.toNat s.width.toNat : Int) - 2 ^ s.width.toNat))

/-- 40_bitaccess.md R148, R149, R143, R144 (with R140's checks): SETU and SETS write the low bits of VALUE, identical bits
for identical operands. -/
def Obligations.SetuAndSetsWriteAField : Prop :=
  (∀ w, LaunchesOp 0x03 w → decode w = .ok .setu) ∧ (∀ w, LaunchesOp 0x04 w → decode w = .ok .sets) ∧
  FieldWrite .setu ∧ FieldWrite .sets ∧ ∀ s : State, exec .sets s = exec .setu s

/-- 40_bitaccess.md R150. -/
def Obligations.BufclrGivesAFreshBuffer : Prop :=
  (∀ w, LaunchesOp 0x05 w → decode w = .ok .bufclr) ∧
  ∀ s : State,
    (1024 < s.value.toNat → exec .bufclr s = .next (afterError .lenOverflow s.value s)) ∧
    (s.value.toNat ≤ 1024 → ∃ m : Memory,
      exec .bufclr s = .next { afterSuccess s with mem := m, bufLen := s.value.toNat } ∧
        (∀ j < 1024, bufByte m j = 0) ∧ BytesKept s.mem m 0x400 1024)

/-- 40_bitaccess.md R151: a field written and read back gives the value mod 2^w; a signed value that fits comes back
itself; a disjoint field reads as before. -/
def Obligations.FieldsReadBackWhatWasWritten : Prop :=
  ∀ s : State, Memory.wf s.mem = true → 1 ≤ s.width.toNat → s.width.toNat ≤ 32 →
    s.start.toNat + s.width.toNat ≤ 8 * s.bufLen →
    (∃ t u, exec .setu s = .next t ∧ exec .getu t = .next u ∧ u.result.toNat = s.value.toNat % 2 ^ s.width.toNat) ∧
    (∃ t u, exec .sets s = .next t ∧ exec .gets t = .next u ∧
      (-(2 ^ (s.width.toNat - 1)) ≤ s.value.toInt → s.value.toInt < 2 ^ (s.width.toNat - 1) → u.result = s.value)) ∧
    (∃ t, exec .setu s = .next t ∧
      ∀ a w : Word, 1 ≤ w.toNat → w.toNat ≤ 32 → a.toNat + w.toNat ≤ 8 * s.bufLen →
        (a.toNat + w.toNat ≤ s.start.toNat ∨ s.start.toNat + s.width.toNat ≤ a.toNat) →
        ∃ u u', exec .getu { t with start := a, width := w } = .next u ∧
          exec .getu { s with start := a, width := w } = .next u' ∧ u.result = u'.result)

/-! ## Armor codec and text alphabet -/

/-- 41_armor_text.md R175, with R161's formula. -/
def Obligations.A2vGivesTheArmorValue : Prop :=
  (∀ w, LaunchesOp 0x08 w → decode w = .ok .a2v) ∧
  ∀ (s : State) (c : Byte), c = s.value.extractLsb' 0 8 →
    ((IsArmor c ∨ s.cfg.armorLax = true) →
      exec .a2v s = .next { afterSuccess s with result := BitVec.ofNat 32 (armorNat c) }) ∧
    (¬IsArmor c → s.cfg.armorLax = false →
      exec .a2v s = .next (afterError .armorChar (BitVec.ofNat 32 (c.toNat * 65536)) s))

/-- 41_armor_text.md R176, with R160's formula, and that A2V undoes V2A: the alphabet is a bijection. -/
def Obligations.V2aGivesTheArmorCharacter : Prop :=
  (∀ w, LaunchesOp 0x09 w → decode w = .ok .v2a) ∧
  ∀ s : State, ∃ t u,
    t = { afterSuccess s with result := (armorLetter (s.value.toNat % 64)).setWidth 32 } ∧
    exec .v2a s = .next t ∧
    exec .a2v { t with value := t.result } = .next u ∧ u.result.toNat = s.value.toNat % 64

/-- 41_armor_text.md R177 (with R163): LEN_OVERFLOW, then ARMOR_CHAR at the least failing index, before any write; else
the characters' values packed MSB first with the last byte's unused bits 0. -/
def Obligations.ArmdecUnpacksTheText : Prop :=
  (∀ w, LaunchesOp 0x0A w → decode w = .ok .armdec) ∧
  ∀ s : State,
    (1024 < (6 * s.txtLen + 7) / 8 →
      exec .armdec s = .next (afterError .lenOverflow (BitVec.ofNat 32 ((6 * s.txtLen + 7) / 8)) s)) ∧
    ((6 * s.txtLen + 7) / 8 ≤ 1024 →
      (∀ j < s.txtLen, s.cfg.armorLax = false → ¬IsArmor (txtByte s.mem j) →
        (∀ i < j, IsArmor (txtByte s.mem i)) →
        exec .armdec s =
          .next (afterError .armorChar (BitVec.ofNat 32 ((txtByte s.mem j).toNat * 65536 + j)) s)) ∧
      ((s.cfg.armorLax = true ∨ ∀ j < s.txtLen, IsArmor (txtByte s.mem j)) → Memory.wf s.mem = true →
        ∃ m : Memory, exec .armdec s = .next { afterSuccess s with mem := m, bufLen := (6 * s.txtLen + 7) / 8 } ∧
          (∀ j < s.txtLen, fieldNat m (6 * j) 6 = armorNat (txtByte s.mem j)) ∧
          (∀ k, 6 * s.txtLen ≤ k → k < 8 * ((6 * s.txtLen + 7) / 8) → streamBit m k = false) ∧
          BytesKept s.mem m 0x400 ((6 * s.txtLen + 7) / 8)))

/-- 41_armor_text.md R178 (with R164). -/
def Obligations.ArmencPacksTheBuffer : Prop :=
  (∀ w, LaunchesOp 0x0B w → decode w = .ok .armenc) ∧
  ∀ s : State, Memory.wf s.mem = true → ∃ m : Memory,
    exec .armenc s = .next { afterSuccess s with mem := m, txtLen := armorCount s.cfg.armorMin s.bufLen } ∧
      ArmorsBuffer s.mem m s.bufLen (armorCount s.cfg.armorMin s.bufLen) 0 ∧
      BytesKept s.mem m 0x800 (armorCount s.cfg.armorMin s.bufLen)

/-- 41_armor_text.md R165 (with R177, R178): for any buffer whose packed text unpacks within BUF, ARMENC and then ARMDEC
restore the bytes, followed by the zero bytes R165 counts; the text of a full buffer unpacks to more than BUF holds,
which is R177's error (log 17). -/
def Obligations.ArmorRoundTrip : Prop :=
  ∀ s : State, Memory.wf s.mem = true →
    (s.bufLen ≤ 1023 → ∃ t u, exec .armenc s = .next t ∧ exec .armdec t = .next u ∧
      (∀ j < s.bufLen, bufByte u.mem j = bufByte s.mem j) ∧
      (∀ j, s.bufLen ≤ j → j < u.bufLen → bufByte u.mem j = 0) ∧
      u.bufLen = if s.cfg.armorMin then (6 * ((8 * s.bufLen + 5) / 6) + 7) / 8 else 3 * ((s.bufLen + 2) / 3)) ∧
    (s.bufLen = 1024 → ∃ t, exec .armenc s = .next t ∧
      exec .armdec t = .next (afterError .lenOverflow (if s.cfg.armorMin then 1025 else 1026) t))

/-- 41_armor_text.md R179 (with R168, R169). -/
def Obligations.T2vGivesTheTextValue : Prop :=
  (∀ w, LaunchesOp 0x0C w → decode w = .ok .t2v) ∧
  ∀ s : State, exec .t2v s =
    .next { afterSuccess s with result := BitVec.ofNat 32 (textNat (s.value.extractLsb' 0 8)) }

/-- 41_armor_text.md R180 (with R166, R167), and that T2V undoes V2T. -/
def Obligations.V2tGivesTheTextCharacter : Prop :=
  (∀ w, LaunchesOp 0x0D w → decode w = .ok .v2t) ∧
  ∀ s : State, ∃ t u,
    t = { afterSuccess s with result := (textLetter (s.value.toNat % 64)).setWidth 32 } ∧
    exec .v2t s = .next t ∧
    exec .t2v { t with value := t.result } = .next u ∧ u.result.toNat = s.value.toNat % 64

/-- 41_armor_text.md R181 (with R170, and SEL by 30_encoding.md R115): BIT_RANGE, then LEN_OVERFLOW for a string register, before any write; else the
decoded text in the chosen target with its length and presence, RESULT its length, and no other byte changed. -/
def Obligations.TxtdecDecodesATextField : Prop :=
  (∀ p ∈ [(0#2, Sel.str0), (1#2, .str1), (2#2, .str2), (3#2, .pay)], ∀ w, LaunchesOp 0x0E w →
    w.extractLsb' 16 2 = p.1 → decode w = .ok (.txtdec p.2)) ∧
  ∀ (s : State) (k : Sel),
    (8 * s.bufLen < s.start.toNat + s.width.toNat → exec (.txtdec k) s = .next (afterError .bitRange s.start s)) ∧
    (s.start.toNat + s.width.toNat ≤ 8 * s.bufLen →
      (k ≠ .pay → 32 < s.width.toNat / 6 →
        exec (.txtdec k) s = .next (afterError .lenOverflow (BitVec.ofNat 32 (s.width.toNat / 6)) s)) ∧
      ((k = .pay ∨ s.width.toNat / 6 ≤ 32) → Memory.wf s.mem = true →
        ∃ (x : List Byte) (m : Memory), DecodesTo s.mem s.start.toNat (s.width.toNat / 6) x ∧
          exec (.txtdec k) s = .next
            (withTextLength k x.length { afterSuccess s with mem := m, result := BitVec.ofNat 32 x.length }) ∧
          (∀ j (h : j < x.length), readByte m (selOffset k + j) = x[j]) ∧
          BytesKept s.mem m (selOffset k) x.length))

/-- 41_armor_text.md R182 (with R171, and SEL by 30_encoding.md R115): BIT_RANGE before any write; else the chosen source text, upcased, truncated or
space-padded, in the field's whole characters, RESULT their number, and no other stream bit or byte changed. -/
def Obligations.TxtencEncodesATextField : Prop :=
  (∀ p ∈ [(0#2, Sel.str0), (1#2, .str1), (2#2, .str2), (3#2, .pay)], ∀ w, LaunchesOp 0x0F w →
    w.extractLsb' 16 2 = p.1 → decode w = .ok (.txtenc p.2)) ∧
  ∀ (s : State) (k : Sel),
    (8 * s.bufLen < s.start.toNat + s.width.toNat → exec (.txtenc k) s = .next (afterError .bitRange s.start s)) ∧
    (s.start.toNat + s.width.toNat ≤ 8 * s.bufLen → Memory.wf s.mem = true →
      ∃ m : Memory,
        exec (.txtenc k) s =
          .next { afterSuccess s with mem := m, result := BitVec.ofNat 32 (s.width.toNat / 6) } ∧
        HoldsText m s.start.toNat (s.width.toNat / 6) (sourceText s k) ∧
        (∀ b, b < s.start.toNat ∨ s.start.toNat + 6 * (s.width.toNat / 6) ≤ b →
          streamBit m b = streamBit s.mem b) ∧
        (∀ a, a < 0x400 ∨ 0x400 + (s.start.toNat + 6 * (s.width.toNat / 6) + 7) / 8 ≤ a →
          readByte m a = readByte s.mem a))

/-- 41_armor_text.md R172: a present string register whose characters all have table entries, written by TXTENC and read
back by TXTDEC, comes back as its first n characters, upcased and right-trimmed. -/
def Obligations.TextRoundTrip : Prop :=
  ∀ (s : State) (k : StrReg) (sel : Sel), Memory.wf s.mem = true → s.start.toNat + s.width.toNat ≤ 8 * s.bufLen →
    s.width.toNat / 6 ≤ 32 → (k, sel) ∈ [(StrReg.str0, Sel.str0), (.str1, .str1), (.str2, .str2)] →
    strPresent s k = true → (∀ c ∈ strText s k, textNat c ≠ 63 ∨ c = 0x3F) →
    ∃ t u, exec (.txtenc sel) s = .next t ∧ exec (.txtdec sel) t = .next u ∧
      strText u k = trimRight (((strText s k).take (s.width.toNat / 6)).map upcase)

/-! ## Checksum and framer -/

/-- 42_checksum_frame.md R203 (with R200, R201): the XOR from after a leading marker to before the first `*` or the end
of the text. -/
def Obligations.CksumXorsTheSentence : Prop :=
  (∀ w, LaunchesOp 0x10 w → decode w = .ok .cksum) ∧
  ∀ s : State, ∃ b e : Nat,
    b = (if 0 < s.txtLen ∧ (txtByte s.mem 0 = 0x24 ∨ txtByte s.mem 0 = 0x21) then 1 else 0) ∧
    b ≤ e ∧ e ≤ s.txtLen ∧ (∀ j, b ≤ j → j < e → txtByte s.mem j ≠ 0x2A) ∧
    (e = s.txtLen ∨ txtByte s.mem e = 0x2A) ∧
    exec .cksum s = .next { afterSuccess s with result := checksumWord (xorText s.mem b (e - b)) }

/-- 42_checksum_frame.md R204 (with R202 and 41_armor_text.md R164): the sentence `!AIVDM,1,1,,A,<payload>,0*HH`, CR LF,
with the checksum of the bytes between `!` and `*`. -/
def Obligations.FrameWrapsTheBuffer : Prop :=
  (∀ w, LaunchesOp 0x11 w → decode w = .ok .frame) ∧
  ∀ (s : State) (n : Nat), Memory.wf s.mem = true → n = armorCount s.cfg.armorMin s.bufLen →
    ∃ (m : Memory) (cs : Byte),
      exec .frame s = .next { afterSuccess s with mem := m, txtLen := n + 21, result := checksumWord cs } ∧
      cs = xorText m 1 (n + 15) ∧
      (∀ j < 14, txtByte m j =
        [0x21, 0x41, 0x49, 0x56, 0x44, 0x4D, 0x2C, 0x31, 0x2C, 0x31, 0x2C, 0x2C, 0x41, 0x2C].getD j (0 : Byte)) ∧
      ArmorsBuffer s.mem m s.bufLen n 14 ∧
      txtByte m (n + 14) = 0x2C ∧ txtByte m (n + 15) = 0x30 ∧ txtByte m (n + 16) = 0x2A ∧
      txtByte m (n + 17) = BitVec.ofNat 8 (hexLetter (cs.toNat / 16)) ∧
      txtByte m (n + 18) = BitVec.ofNat 8 (hexLetter (cs.toNat % 16)) ∧
      txtByte m (n + 19) = 0x0D ∧ txtByte m (n + 20) = 0x0A ∧ BytesKept s.mem m 0x800 (n + 21)

/-- 42_checksum_frame.md R205 (with 41_armor_text.md R163): FRAME_FORMAT with the number of commas, then LEN_OVERFLOW,
then ARMOR_CHAR at its index in TXT, before any write; else the payload between the fifth and the sixth comma unpacked
into BUF, and RESULT its length and index. -/
def Obligations.UnframeUnpacksThePayload : Prop :=
  (∀ w, LaunchesOp 0x12 w → decode w = .ok .unframe) ∧
  ∀ (s : State) (commas : List Nat), s.txtLen ≤ 2048 →
    commas = (List.range s.txtLen).filter (fun j => txtByte s.mem j = 0x2C) →
    (commas.length < 6 → exec .unframe s = .next (afterError .frameFormat (BitVec.ofNat 32 commas.length) s)) ∧
    (6 ≤ commas.length → ∀ a b l : Nat, a = commas.getD 4 0 + 1 → b = commas.getD 5 0 → l = (6 * (b - a) + 7) / 8 →
      a ≤ b ∧
      (1024 < l → exec .unframe s = .next (afterError .lenOverflow (BitVec.ofNat 32 l) s)) ∧
      (l ≤ 1024 →
        (∀ j, a ≤ j → j < b → s.cfg.armorLax = false → ¬IsArmor (txtByte s.mem j) →
          (∀ i, a ≤ i → i < j → IsArmor (txtByte s.mem i)) →
          exec .unframe s =
            .next (afterError .armorChar (BitVec.ofNat 32 ((txtByte s.mem j).toNat * 65536 + j)) s)) ∧
        ((s.cfg.armorLax = true ∨ ∀ j, a ≤ j → j < b → IsArmor (txtByte s.mem j)) → Memory.wf s.mem = true →
          ∃ m : Memory,
            exec .unframe s = .next { afterSuccess s with
              mem := m, bufLen := l, result := BitVec.ofNat 32 ((b - a) * 65536 + a) } ∧
            (∀ j < b - a, fieldNat m (6 * j) 6 = armorNat (txtByte s.mem (a + j))) ∧
            (∀ k, 6 * (b - a) ≤ k → k < 8 * l → streamBit m k = false) ∧
            BytesKept s.mem m 0x400 l)))

/-- 42_checksum_frame.md R206(a): CKSUM of FRAME's output returns FRAME's RESULT, and its digits are the two that stand
before CR LF. -/
def Obligations.FramedSentenceHasItsChecksum : Prop :=
  ∀ s : State, Memory.wf s.mem = true →
    ∃ t u, exec .frame s = .next t ∧ exec .cksum t = .next u ∧ u.result = t.result ∧
      (txtByte t.mem (t.txtLen - 4)).toNat * 256 + (txtByte t.mem (t.txtLen - 3)).toNat * 65536 +
        t.result.toNat % 256 = t.result.toNat

/-- 42_checksum_frame.md R207 (with R204, R205): FRAME and then UNFRAME restore BUF, followed by the zero bytes of R165;
the payload of a full buffer unpacks to more than BUF holds, which is R205's error (log 17). -/
def Obligations.FrameUnframeRoundTrip : Prop :=
  ∀ s : State, Memory.wf s.mem = true →
    (s.bufLen ≤ 1023 → ∃ t u, exec .frame s = .next t ∧ exec .unframe t = .next u ∧
      (∀ j < s.bufLen, bufByte u.mem j = bufByte s.mem j) ∧
      (∀ j, s.bufLen ≤ j → j < u.bufLen → bufByte u.mem j = 0) ∧
      u.bufLen = if s.cfg.armorMin then (6 * ((8 * s.bufLen + 5) / 6) + 7) / 8 else 3 * ((s.bufLen + 2) / 3)) ∧
    (s.bufLen = 1024 → ∃ t, exec .frame s = .next t ∧
      exec .unframe t = .next (afterError .lenOverflow (if s.cfg.armorMin then 1025 else 1026) t))

/-! ## Message codec -/

/-- 43_message_codec.md R222 (the dispatch map), R221, R224, R226 (the accepted ids), R221, R223 (the minimum bytes), R235
(the encoded lengths, none of which exceeds BUF), R234 and 00_scope.md R7 (the caps of the tails). -/
def Obligations.RegistryOfLayouts : Prop :=
  (∀ m, layoutOf m = some .lA ↔ m = 1 ∨ m = 2 ∨ m = 3) ∧ (∀ m, layoutOf m = some .lBS ↔ m = 4 ∨ m = 11) ∧
  (∀ p ∈ [(5, Layout.l5), (6, .l6), (8, .l8), (9, .l9), (10, .l10), (12, .l12), (14, .l14), (18, .l18), (19, .l19)],
    ∀ m, layoutOf m = some p.2 ↔ m = p.1) ∧
  (∀ m, layoutOf m = none ↔ m ∉ [1, 2, 3, 4, 5, 6, 8, 9, 10, 11, 12, 14, 18, 19]) ∧
  (∀ m air lay, m ∈ acceptedIds air lay ↔
    if lay = .l9 ∧ air = true then m = 13 else layoutOf m = some lay) ∧
  (∀ p ∈ [(Layout.lA, 21), (.lBS, 21), (.l5, 53), (.l6, 9), (.l8, 5), (.l9, 21), (.l10, 9), (.l12, 9), (.l14, 5),
    (.l18, 21), (.l19, 39)], minBytes p.1 = p.2) ∧
  (∀ n, (∀ lay ∈ [Layout.lA, .lBS, .l9, .l18], encodedLen n lay = 21) ∧ encodedLen n .l5 = 53 ∧
    encodedLen n .l10 = 9 ∧ encodedLen n .l19 = 39 ∧ encodedLen n .l6 = 9 + min n 117 ∧
    encodedLen n .l8 = 5 + min n 121 ∧ encodedLen n .l12 = 9 + 3 * ((min n 156 + 3) / 4) ∧
    encodedLen n .l14 = 5 + 3 * ((min n 967 + 3) / 4) ∧ (∀ lay, lay ≠ .l14 → encodedLen n lay ≤ 126) ∧
    encodedLen n .l14 ≤ 731) ∧
  (∀ p ∈ [(Layout.l6, 117), (.l8, 121), (.l12, 156), (.l14, 967)], tailCap p.1 = p.2)

/-- 43_message_codec.md R229 (with R221, R223, R235): in every layout the descriptors are pairwise disjoint, in rising order of their offsets,
and lie inside the bytes a decode needs; a variable tail starts where those bytes end. -/
def Obligations.DescriptorsAreDisjointAndInside : Prop :=
  ∀ lay : Layout,
    (layoutRom lay).Pairwise (fun d e => (descSpan d).1 + (descSpan d).2 ≤ (descSpan e).1) ∧
    (∀ d ∈ layoutRom lay, (descSpan d).1 + (descSpan d).2 ≤ 8 * minBytes lay ∧
      (d.isTail = true → (descSpan d).1 = 8 * minBytes lay)) ∧
    encodedLen 0 lay = minBytes lay

/-- 43_message_codec.md R223, R224, R227, R233, 60_exceptions.md R303, R307: MSGDEC's error and absences, in order. -/
def Obligations.MsgdecRejectsInOrder : Prop :=
  ∀ (s : State) (m : Nat) (u : Units),
    (m ≠ 0 → layoutOf m = none →
      exec (.msgdec m u) s = .next (afterError .unsupported (BitVec.ofNat 32 m) s)) ∧
    ((m = 0 ∨ layoutOf m ≠ none) →
      (s.bufLen = 0 → exec (.msgdec m u) s = .next (afterAbsence .empty s)) ∧
      (s.bufLen ≠ 0 →
        (m = 0 → layoutOf (fieldNat s.mem 0 6) = none →
          exec (.msgdec m u) s = .next (afterAbsence .unknownId s)) ∧
        (∀ lay, layoutOf (if m = 0 then fieldNat s.mem 0 6 else m) = some lay →
          (s.bufLen < minBytes lay → exec (.msgdec m u) s = .next (afterAbsence .short s)) ∧
          (minBytes lay ≤ s.bufLen → fieldNat s.mem 0 6 ∉ acceptedIds s.cfg.airId13 lay →
            exec (.msgdec m u) s = .next (afterAbsence .idMismatch s)))))

/-- 43_message_codec.md R233 (with R231, R236, R240): a successful MSGDEC moves every descriptor of the layout, zeroes the
REC registers and the lengths the layout does not name, sets RESULT to the id, and changes nothing else: no byte but
the valid bytes of the strings and of PAY it stores. -/
def Obligations.MsgdecDecodesTheRecord : Prop :=
  (∀ w : Word, LaunchesOp 0x20 w → ∃ u, decode w = .ok (.msgdec (w.extractLsb' 8 6).toNat u) ∧
    (u = .kmh ↔ w.getLsbD 20 = true)) ∧
  ∀ (s : State) (m : Nat) (u : Units) (lay : Layout), Memory.wf s.mem = true →
    layoutOf (if m = 0 then fieldNat s.mem 0 6 else m) = some lay → minBytes lay ≤ s.bufLen →
    fieldNat s.mem 0 6 ∈ acceptedIds s.cfg.airId13 lay →
    ∃ t : State, exec (.msgdec m u) s = .next t ∧
      t = { afterSuccess s with
        recs := t.recs, str0 := t.str0, str1 := t.str1, str2 := t.str2, payLen := t.payLen, mem := t.mem
        result := BitVec.ofNat 32 (fieldNat s.mem 0 6) } ∧
      (∀ d ∈ layoutRom lay, DecodedField u s t d) ∧
      (∀ i, (∀ d ∈ layoutRom lay, d.targetsRec i = false) → readRec t i = 0) ∧
      (∀ k, (∀ d ∈ layoutRom lay, d.targetsStr k = false) → strText t k = [] ∧ strPresent t k = false) ∧
      ((∀ d ∈ layoutRom lay, d.isTail = false) → t.payLen = 0) ∧
      (∀ a, (∀ j < t.payLen, a ≠ 0x1000 + j) →
        (∀ k, (∀ d ∈ layoutRom lay, d.targetsStr k = false) ∨ ∀ j < (strText t k).length, a ≠ strBase k + j) →
        readByte t.mem a = readByte s.mem a)

/-- 43_message_codec.md R228, R234, R235 (with R240): MSGENC of a supported id gives the encoded length, the id from
MTYPE, every field of the record, zero for every stream bit no field covers and for the rest of BUF, and changes no byte
outside BUF; MTYPE = 0 gives a zero-length result and no error; an unsupported id is an error. -/
def Obligations.MsgencEncodesTheRecord : Prop :=
  (∀ w : Word, LaunchesOp 0x21 w → ∃ u, decode w = .ok (.msgenc (w.extractLsb' 8 6).toNat u) ∧
    (u = .kmh ↔ w.getLsbD 20 = true)) ∧
  ∀ (s : State) (m : Nat) (u : Units),
    (m = 0 → exec (.msgenc m u) s = .next { afterSuccess s with bufLen := 0, result := 0 }) ∧
    (m ≠ 0 → layoutOf m = none →
      exec (.msgenc m u) s = .next (afterError .unsupported (BitVec.ofNat 32 m) s)) ∧
    (∀ lay, layoutOf m = some lay → Memory.wf s.mem = true →
      ∃ mem : Memory,
        exec (.msgenc m u) s = .next { afterSuccess s with
          mem := mem, bufLen := encodedLen s.payLen lay, result := BitVec.ofNat 32 (encodedLen s.payLen lay) } ∧
        fieldNat mem 0 6 = m ∧
        (∀ d ∈ (layoutRom lay).drop 1, EncodedField u lay s mem d) ∧
        (∀ k < 8192, (8 * encodedLen s.payLen lay ≤ k ∨
            (∀ d ∈ layoutRom lay, d.isTail = false ∧ (k < (descSpan d).1 ∨ (descSpan d).1 + (descSpan d).2 ≤ k) ∨
              d.isTail = true ∧ k < (descSpan d).1)) → streamBit mem k = false) ∧
        BytesKept s.mem mem 0x400 1024)

/-- 43_message_codec.md R237: MSGENC(m) and then MSGDEC(m) or MSGDEC(0) restore the record of every supported id, unless
CFG.AIR_ID13 = 1 and m = 9, which decodes absent. -/
def Obligations.MessageRoundTrip : Prop :=
  (∀ (s : State) (m' : Nat) (u : Units), Memory.wf s.mem = true → s.cfg.airId13 = true → (m' = 9 ∨ m' = 0) →
    ∃ t, exec (.msgenc 9 u) s = .next t ∧ exec (.msgdec m' u) t = .next (afterAbsence .idMismatch t)) ∧
  ∀ (s : State) (m m' : Nat) (u : Units) (lay : Layout), Memory.wf s.mem = true → layoutOf m = some lay →
    (m' = m ∨ m' = 0) → ¬(m = 9 ∧ s.cfg.airId13 = true) →
    ∃ t v, exec (.msgenc m u) s = .next t ∧ exec (.msgdec m' u) t = .next v ∧
      (readRec v 0).toNat = m ∧ v.result.toNat = m ∧ v.status.absent = false ∧ v.status.err = false ∧
      ∀ d ∈ layoutRom lay, RestoredField u lay s v d

/-! ## Scaling and timestamps -/

/-- 44_scaling_time.md R284 with R280. -/
def Obligations.Sog2kmhIsTheExactFloor : Prop :=
  (∀ w, LaunchesOp 0x30 w → decode w = .ok .sog2kmh) ∧
  ∀ s : State, ∃ v : Word, exec .sog2kmh s = .next { afterSuccess s with result := v } ∧
    10000 * v.toNat ≤ s.value.toNat * 1852 ∧ s.value.toNat * 1852 < 10000 * (v.toNat + 1)

/-- 44_scaling_time.md R285 with R281. -/
def Obligations.Kmh2sogIsTheFloorModWord : Prop :=
  (∀ w, LaunchesOp 0x31 w → decode w = .ok .kmh2sog) ∧
  ∀ s : State, ∃ q : Nat, 1852 * q ≤ s.value.toNat * 10000 ∧ s.value.toNat * 10000 < 1852 * (q + 1) ∧
    exec .kmh2sog s = .next { afterSuccess s with result := BitVec.ofNat 32 q }

/-- 44_scaling_time.md R287: a speed k whose wire value fits 32 bits comes back as k - 1 or k; up to 189 km/h the wire
value fits 10 bits; and no wire value grows by the way back. -/
def Obligations.SpeedRoundTripLosesAtMostOne : Prop :=
  ∀ s : State,
    (s.value.toNat * 10000 / 1852 < 2 ^ 32 →
      ∃ t u, exec .kmh2sog s = .next t ∧ exec .sog2kmh { t with value := t.result } = .next u ∧
        (u.result.toNat = s.value.toNat ∨ u.result.toNat + 1 = s.value.toNat) ∧
        (s.value.toNat ≤ 189 → t.result.toNat ≤ 1020)) ∧
    (∃ t u, exec .sog2kmh s = .next t ∧ exec .kmh2sog { t with value := t.result } = .next u ∧
      u.result.toNat ≤ s.value.toNat)

/-- 44_scaling_time.md R282, R283, R286: TSRESOLVE. The guards are on the operand values; REC[3..8] alone change. -/
def Obligations.TsresolveBackfillsTheTimestamp : Prop :=
  (∀ w, LaunchesOp 0x32 w → decode w = .ok .tsresolve) ∧
  ∀ s : State, ∀ y mo d h mi sec : Nat,
    y = (readRec s 3).toNat → mo = (readRec s 4).toNat → d = (readRec s 5).toNat → h = (readRec s 6).toNat →
    mi = (readRec s 7).toNat → sec = (readRec s 8).toNat →
    ((y = 0 ∧ mo = 0 ∧ d = 0 ∧ h = 24 ∧ mi = 60 ∧ sec = 60) →
      exec .tsresolve s = .next { afterSuccess s with result := 1 }) ∧
    (¬(y = 0 ∧ mo = 0 ∧ d = 0 ∧ h = 24 ∧ mi = 60 ∧ sec = 60) →
      ∃ (r : Vector Word 32) (gmi gsec : Bool) (t : State),
        (gmi = true ↔ if s.cfg.bsFix then mi = 60 else h = 60) ∧
        (gsec = true ↔ if s.cfg.bsFix then sec = 60 else h = 60) ∧
        exec .tsresolve s = .next t ∧
        t = { afterSuccess s with
          recs := r
          result := BitVec.ofNat 32 (256 * ((if y = 0 then 1 else 0) + (if mo = 0 then 2 else 0) +
            (if d = 0 then 4 else 0) + (if h = 24 then 8 else 0) + (if gmi then 16 else 0) +
            (if gsec then 32 else 0))) } ∧
        (readRec t 3).toNat = (if y = 0 then s.now0.year.toNat else y) ∧
        (readRec t 4).toNat = (if mo = 0 then s.now0.month.toNat else mo) ∧
        (readRec t 5).toNat = (if d = 0 then s.now0.day.toNat else d) ∧
        (readRec t 6).toNat = (if h = 24 then s.now1.hour.toNat else h) ∧
        (readRec t 7).toNat = (if gmi then s.now1.minute.toNat else mi) ∧
        (readRec t 8).toNat = (if gsec then s.now1.second.toNat else sec) ∧
        ∀ i : Fin 32, i.val < 3 ∨ 8 < i.val → readRec t i = readRec s i)

/-! ## Invariant and safety -/

/-- 10_state.md R34, R39..R43, 20_memory.md R97, 60_exceptions.md R316, 70_reset_and_hazards.md R340: every step, whatever
the schedule holds, keeps the invariant. -/
def Obligations.EveryStepKeepsTheInvariant : Prop :=
  ∀ s t : State, s.Inv → step s = .next t → t.Inv

/-- 60_exceptions.md R301, R306, R310, 20_memory.md R80: no run stops, of whatever length, from whatever state and on
whatever schedule; and an access outside the aperture is not the block's: it goes on unchanged. (The bus's own answer is
the platform's, log 9.) -/
def Obligations.RunsNeverStop : Prop :=
  (∀ (n : Nat) (s : State), safeFor n s) ∧
  ∀ (s : State) (a : Access) (ts : List Turn), s.turns = .host a :: ts → 0x2000 ≤ a.offset →
    step s = .next { s with turns := ts, resp := .noDevice }
end

