-- ==== Sys2Proof/Laws/Memory.lean ====
section
/-! SUPPORT. The laws of the byte memory: a read after a write, and that every memory operation keeps the canonical
form (`Memory.wf`) and stays inside the arrays. -/

namespace Sys2Proof.Machine

open Sys2Proof

theorem wf_cons {k : Nat} {b : Byte} {m : Memory} :
    Memory.wf ((k, b) :: m) = true ↔ b ≠ unlistedByte ∧ (∀ c ∈ m, k < c.1) ∧ Memory.wf m = true := by
  simp [Memory.wf, and_assoc]

theorem readByte_of_lt {m : Memory} {a : Nat} (h : ∀ c ∈ m, a < c.1) : readByte m a = unlistedByte := by
  induction m with
  | nil => rfl
  | cons c m ih =>
    obtain ⟨k, b⟩ := c
    have hk : a < k := h (k, b) (by simp)
    rw [readByte, if_neg (by omega)]
    exact ih fun c hc => h c (List.mem_cons_of_mem _ hc)

theorem mem_writeByte {m : Memory} {a : Nat} {b : Byte} {c : Host.Cell} (h : c ∈ writeByte m a b) :
    c = (a, b) ∨ c ∈ m := by
  induction m with
  | nil =>
    unfold writeByte at h
    split at h <;> simp_all
  | cons d m ih =>
    obtain ⟨k, x⟩ := d
    unfold writeByte at h
    split at h
    · split at h
      · exact .inr h
      · simpa using h
    · split at h
      · split at h
        · exact .inr (List.mem_cons_of_mem _ h)
        · rcases List.mem_cons.1 h with h | h
          · exact .inl h
          · exact .inr (List.mem_cons_of_mem _ h)
      · rcases List.mem_cons.1 h with h | h
        · exact .inr (by simp [h])
        · rcases ih h with h | h
          · exact .inl h
          · exact .inr (List.mem_cons_of_mem _ h)

/-- Writing a byte keeps the canonical form. -/
theorem wf_writeByte {m : Memory} (h : Memory.wf m = true) (a : Nat) (b : Byte) :
    Memory.wf (writeByte m a b) = true := by
  induction m with
  | nil =>
    unfold writeByte
    split
    · rfl
    · rename_i hb
      exact wf_cons.2 ⟨hb, by simp, rfl⟩
  | cons c m ih =>
    obtain ⟨k, x⟩ := c
    obtain ⟨hx, hlt, hm⟩ := wf_cons.1 h
    unfold writeByte
    split
    · rename_i hak
      split
      · exact h
      · rename_i hb
        refine wf_cons.2 ⟨hb, fun c hc => ?_, h⟩
        rcases List.mem_cons.1 hc with rfl | hc
        · exact hak
        · exact hak.trans (hlt c hc)
    · rename_i hak
      split
      · rename_i hek
        split
        · exact hm
        · rename_i hb
          exact wf_cons.2 ⟨hb, fun c hc => hek ▸ hlt c hc, hm⟩
      · rename_i hek
        refine wf_cons.2 ⟨hx, fun c hc => ?_, ih hm⟩
        rcases mem_writeByte hc with rfl | hc
        · show k < a
          omega
        · exact hlt c hc

/-- A read after a write: the written byte there, every other byte as before. -/
theorem readByte_writeByte {m : Memory} (h : Memory.wf m = true) (a a' : Nat) (b : Byte) :
    readByte (writeByte m a b) a' = if a' = a then b else readByte m a' := by
  induction m with
  | nil =>
    unfold writeByte
    split
    · rename_i hb
      subst hb
      simp [readByte]
    · simp [readByte]
  | cons c m ih =>
    obtain ⟨k, x⟩ := c
    obtain ⟨hx, hlt, hm⟩ := wf_cons.1 h
    unfold writeByte
    split
    · rename_i hak
      split
      · rename_i hb
        split
        · rename_i ha
          subst ha hb
          rw [readByte, if_neg (by omega)]
          exact readByte_of_lt fun c hc => hak.trans (hlt c hc)
        · rfl
      · rw [readByte]
    · rename_i hak
      split
      · rename_i hek
        subst hek
        split
        · rename_i hb
          by_cases ha : a' = a
          · subst ha hb
            simp only [if_true]
            exact readByte_of_lt hlt
          · simp [readByte, ha]
        · by_cases ha : a' = a <;> simp [readByte, ha]
      · rename_i hek
        simp only [readByte, ih hm]
        by_cases ha : a' = k
        · have : a' ≠ a := by omega
          simp [ha, Ne.symm hek]
        · simp [ha]

theorem wf_writeBytes {m : Memory} (h : Memory.wf m = true) (a : Nat) (bs : List Byte) :
    Memory.wf (writeBytes m a bs) = true := by
  induction bs generalizing m a with
  | nil => exact h
  | cons b bs ih => exact ih (wf_writeByte h a b) _

/-- A read after a write of several bytes. -/
theorem readByte_writeBytes {m : Memory} (h : Memory.wf m = true) (a : Nat) (bs : List Byte) (a' : Nat) :
    readByte (writeBytes m a bs) a' =
      if a ≤ a' ∧ a' < a + bs.length then bs.getD (a' - a) 0 else readByte m a' := by
  induction bs generalizing m a with
  | nil =>
    rw [if_neg (by simp only [List.length_nil]; omega)]
    rfl
  | cons b bs ih =>
    rw [writeBytes, ih (wf_writeByte h a b), readByte_writeByte h]
    simp only [List.length_cons]
    by_cases h1 : a + 1 ≤ a' ∧ a' < a + 1 + bs.length
    · rw [if_pos h1, if_pos (by omega)]
      obtain ⟨n, hn⟩ : ∃ n, a' - a = n + 1 := ⟨a' - a - 1, by omega⟩
      rw [hn, List.getD_cons_succ]
      congr 1
      omega
    · rw [if_neg h1]
      by_cases h2 : a' = a
      · rw [if_pos h2, if_pos (by omega), h2]
        simp
      · rw [if_neg h2, if_neg (by omega)]

@[simp] theorem length_readBytes (m : Memory) (a n : Nat) : (readBytes m a n).length = n := by
  induction n generalizing a with
  | zero => rfl
  | succ n ih => simp [readBytes, ih]

theorem getElem_readBytes (m : Memory) (a n i : Nat) (h : i < (readBytes m a n).length) :
    (readBytes m a n)[i] = readByte m (a + i) := by
  induction n generalizing a i with
  | zero => simp at h
  | succ n ih =>
    cases i with
    | zero => rfl
    | succ i =>
      simp only [readBytes, List.getElem_cons_succ]
      rw [ih, Nat.add_assoc, Nat.add_comm 1 i]

/-- Two ranges read alike when each of their bytes does. -/
theorem readBytes_congr {m m' : Memory} {a n : Nat} (h : ∀ i < n, readByte m (a + i) = readByte m' (a + i)) :
    readBytes m a n = readBytes m' a n :=
  List.ext_getElem (by simp) fun i h1 h2 => by
    rw [getElem_readBytes, getElem_readBytes]
    exact h i (by simpa using h1)

/-- Reading back what was written gives the bytes written. -/
theorem readBytes_writeBytes_same {m : Memory} (h : Memory.wf m = true) (a : Nat) (bs : List Byte) :
    readBytes (writeBytes m a bs) a bs.length = bs :=
  List.ext_getElem (by simp) fun i h1 h2 => by
    rw [getElem_readBytes, readByte_writeBytes h, if_pos (by omega)]
    simp [h2]

/-- A write elsewhere leaves a range as it was. -/
theorem readBytes_writeBytes_disjoint {m : Memory} (h : Memory.wf m = true) {a n a' : Nat} {bs : List Byte}
    (hd : a + n ≤ a' ∨ a' + bs.length ≤ a) : readBytes (writeBytes m a' bs) a n = readBytes m a n :=
  readBytes_congr fun i hi => by rw [readByte_writeBytes h, if_neg (by omega)]

theorem wf_filter {m : Memory} (h : Memory.wf m = true) (p : Host.Cell → Bool) : Memory.wf (m.filter p) = true := by
  induction m with
  | nil => rfl
  | cons c m ih =>
    obtain ⟨k, x⟩ := c
    obtain ⟨hx, hlt, hm⟩ := wf_cons.1 h
    rw [List.filter_cons]
    split
    · exact wf_cons.2 ⟨hx, fun c hc => hlt c (List.mem_of_mem_filter hc), ih hm⟩
    · exact ih hm

theorem zeroBytes_eq (m : Memory) (a n : Nat) :
    zeroBytes m a n = m.filter (fun c => c.1 < a || a + n ≤ c.1) := rfl

theorem wf_zeroBytes {m : Memory} (h : Memory.wf m = true) (a n : Nat) : Memory.wf (zeroBytes m a n) = true :=
  wf_filter h _

/-- A read after zeroing a range. -/
theorem readByte_zeroBytes {m : Memory} (a n a' : Nat) :
    readByte (zeroBytes m a n) a' = if a ≤ a' ∧ a' < a + n then 0 else readByte m a' := by
  rw [zeroBytes_eq]
  induction m with
  | nil => simp [readByte, unlistedByte]
  | cons c m ih =>
    obtain ⟨k, x⟩ := c
    rw [List.filter_cons]
    by_cases hk : k < a ∨ a + n ≤ k
    · simp only [hk, Bool.or_eq_true, decide_eq_true_eq, if_true, readByte]
      by_cases ha : a' = k
      · rw [if_pos ha, if_pos ha, if_neg (by omega)]
      · rw [if_neg ha, if_neg ha, ih]
    · simp only [hk, Bool.or_eq_true, decide_eq_true_eq, if_false]
      rw [ih, readByte]
      by_cases ha : a' = k
      · rw [if_pos (by omega), if_pos (by omega)]
      · rw [if_neg ha]

/-! ## Staying inside the arrays -/

theorem inArrays_iff {m : Memory} : Memory.inArrays m = true ↔ ∀ c ∈ m, inArray c.1 = true := by
  simp [Memory.inArrays]

theorem inArrays_writeByte {m : Memory} (h : Memory.inArrays m = true) {a : Nat} (ha : inArray a = true) (b : Byte) :
    Memory.inArrays (writeByte m a b) = true :=
  inArrays_iff.2 fun c hc => (mem_writeByte hc).elim (fun e => by simp [e, ha]) (inArrays_iff.1 h c)

theorem inArrays_writeBytes {m : Memory} (h : Memory.inArrays m = true) {a : Nat} {bs : List Byte}
    (ha : ∀ i < bs.length, inArray (a + i) = true) : Memory.inArrays (writeBytes m a bs) = true := by
  induction bs generalizing m a with
  | nil => exact h
  | cons b bs ih =>
    refine ih (inArrays_writeByte h (ha 0 (by simp)) b) fun i hi => ?_
    rw [Nat.add_assoc, Nat.add_comm 1 i]
    exact ha (i + 1) (by simp; omega)

theorem inArrays_zeroBytes {m : Memory} (h : Memory.inArrays m = true) (a n : Nat) :
    Memory.inArrays (zeroBytes m a n) = true := by
  rw [zeroBytes_eq]
  exact inArrays_iff.2 fun c hc => inArrays_iff.1 h c (List.mem_of_mem_filter hc)

end Sys2Proof.Machine
end

