-- ==== Sys2Proof/Laws/Bits.lean ====
section
/-! SUPPORT. The laws of bit lists and of BUF's bit stream: reading a field after writing it, fields that do not
overlap, and the bytes a field write leaves alone (40_bitaccess.md R141..R144, R151). -/

namespace Sys2Proof.Machine

open Sys2Proof

/-! ## Bit lists and numbers -/

@[simp] theorem length_natBits (w v : Nat) : (natBits w v).length = w := by
  induction w with
  | zero => rfl
  | succ w ih => simp [natBits, ih]

theorem getElem_natBits (w v i : Nat) (h : i < (natBits w v).length) : (natBits w v)[i] = v.testBit (w - 1 - i) := by
  induction w generalizing i with
  | zero => simp at h
  | succ w ih =>
    cases i with
    | zero => simp [natBits]
    | succ i =>
      simp only [natBits, List.getElem_cons_succ]
      rw [ih]
      congr 1
      omega

theorem bitsNat_foldl (a : Nat) (bs : List Bool) :
    bs.foldl (fun v b => 2 * v + b.toNat) a = a * 2 ^ bs.length + bitsNat bs := by
  induction bs generalizing a with
  | nil => simp [bitsNat]
  | cons b bs ih =>
    rw [bitsNat, List.foldl_cons, List.foldl_cons, ih, ih, List.length_cons, Nat.pow_succ]
    ring

theorem bitsNat_cons (b : Bool) (bs : List Bool) : bitsNat (b :: bs) = b.toNat * 2 ^ bs.length + bitsNat bs := by
  have h := bitsNat_foldl (2 * 0 + b.toNat) bs
  rw [bitsNat, List.foldl_cons, h]
  simp

@[simp] theorem bitsNat_nil : bitsNat [] = 0 := rfl

theorem bitsNat_lt (bs : List Bool) : bitsNat bs < 2 ^ bs.length := by
  induction bs with
  | nil => simp
  | cons b bs ih =>
    rw [bitsNat_cons, List.length_cons, Nat.pow_succ]
    cases b <;> simp <;> omega

/-- The bits of a number, as a number again. -/
theorem bitsNat_natBits (w v : Nat) : bitsNat (natBits w v) = v % 2 ^ w := by
  induction w with
  | zero => simp [natBits, Nat.mod_one]
  | succ w ih =>
    rw [natBits, bitsNat_cons, ih, length_natBits, Nat.mod_pow_succ, Nat.add_comm, Nat.mul_comm, Nat.testBit_eq_decide_div_mod_eq]
    congr 2
    rcases Nat.mod_two_eq_zero_or_one (v / 2 ^ w) with e | e <;> simp [e]

theorem testBit_bitsNat (bs : List Bool) (j : Nat) (h : j < bs.length) :
    (bitsNat bs).testBit j = bs[bs.length - 1 - j] := by
  induction bs with
  | nil => simp at h
  | cons b bs ih =>
    rw [bitsNat_cons, Nat.mul_comm]
    simp only [List.length_cons] at h
    rcases Nat.lt_or_ge j bs.length with hj | hj
    · rw [Nat.testBit_two_pow_mul_add _ (bitsNat_lt bs), if_pos hj, ih hj]
      have : bs.length + 1 - 1 - j = (bs.length - 1 - j) + 1 := by omega
      simp only [List.length_cons, this, List.getElem_cons_succ]
    · have : j = bs.length := by omega
      subst this
      rw [Nat.testBit_two_pow_mul_add _ (bitsNat_lt bs)]
      cases b <;> simp

/-- A bit list, through the number it stands for, and back. -/
theorem natBits_bitsNat (bs : List Bool) : natBits bs.length (bitsNat bs) = bs :=
  List.ext_getElem (by simp) fun i h1 h2 => by
    rw [getElem_natBits, testBit_bitsNat _ _ (by omega)]
    congr 1
    omega

theorem bitsNat_replicate_false (n : Nat) : bitsNat (List.replicate n false) = 0 := by
  induction n with
  | zero => rfl
  | succ n ih => simp [List.replicate_succ, bitsNat_cons, ih]

theorem natBits_zero_value (w : Nat) : natBits w 0 = List.replicate w false :=
  List.ext_getElem (by simp) fun i h1 h2 => by simp [getElem_natBits]

/-- Only the low `w` bits count. -/
theorem natBits_mod (w v : Nat) : natBits w (v % 2 ^ w) = natBits w v :=
  List.ext_getElem (by simp) fun i h1 h2 => by
    rw [getElem_natBits, getElem_natBits, Nat.testBit_mod_two_pow]
    simp only [length_natBits] at h2
    have : w - 1 - i < w := by omega
    simp [this]

/-! ## Groups -/

@[simp] theorem length_groups (k n : Nat) (bs : List Bool) : (groups k n bs).length = n := by
  induction n generalizing bs with
  | zero => rfl
  | succ n ih => simp [groups, ih]

theorem groups_lt (k n : Nat) (bs : List Bool) : ∀ v ∈ groups k n bs, v < 2 ^ k := by
  induction n generalizing bs with
  | zero => simp [groups]
  | succ n ih =>
    intro v hv
    rcases List.mem_cons.1 hv with rfl | hv
    · refine lt_of_lt_of_le (bitsNat_lt _) (Nat.pow_le_pow_right (by omega) ?_)
      simp
    · exact ih _ v hv

theorem groups_add (k a b : Nat) (bs : List Bool) :
    groups k (a + b) bs = groups k a bs ++ groups k b (bs.drop (k * a)) := by
  induction a generalizing bs with
  | zero => simp [groups]
  | succ a ih =>
    rw [Nat.add_right_comm, groups, groups, ih, List.drop_drop, List.cons_append]
    congr 4
    ring

theorem take_append_replicate (k : Nat) (bs : List Bool) :
    (bs ++ List.replicate k false).take k = bs.take k ++ List.replicate (k - bs.length) false := by
  rw [List.take_append, List.take_replicate]
  congr 2
  omega

/-- The groups written out as bits again: the bit list, cut or filled with zeros to `k * n` bits. -/
theorem groups_flatMap (k n : Nat) (bs : List Bool) :
    (groups k n bs).flatMap (natBits k) = bs.take (k * n) ++ List.replicate (k * n - bs.length) false := by
  induction n generalizing bs with
  | zero => simp [groups]
  | succ n ih =>
    have hl : ((bs ++ List.replicate k false).take k).length = k := by simp
    have hb := natBits_bitsNat ((bs ++ List.replicate k false).take k)
    rw [hl] at hb
    rw [groups, List.flatMap_cons, ih, hb, take_append_replicate, Nat.mul_succ, List.length_drop]
    rcases Nat.lt_or_ge bs.length k with h | h
    · have hle : bs.length ≤ k * n + k := by omega
      rw [List.take_of_length_le h.le, List.drop_of_length_le h.le, List.take_of_length_le hle, List.take_nil,
        List.nil_append, List.append_assoc, List.replicate_append_replicate]
      congr 2
      omega
    · rw [show k - bs.length = 0 by omega, show k * n + k = k + k * n by ring, List.take_add]
      simp only [List.replicate_zero, List.append_nil, List.append_assoc]
      congr 3
      omega

/-- Cutting written-out values gives the values back. -/
theorem groups_of_values (k : Nat) (vs : List Nat) (h : ∀ v ∈ vs, v < 2 ^ k) (rest : List Bool) :
    groups k vs.length (vs.flatMap (natBits k) ++ rest) = vs := by
  induction vs with
  | nil => rfl
  | cons v vs ih =>
    have hl : (natBits k v).length = k := by simp
    simp only [List.length_cons, groups, List.flatMap_cons, List.append_assoc]
    rw [List.take_left' hl, List.drop_left' hl, bitsNat_natBits, Nat.mod_eq_of_lt (h v (by simp)),
      ih fun v hv => h v (List.mem_cons_of_mem _ hv)]

theorem groups_replicate_false (k n l : Nat) : groups k n (List.replicate l false) = List.replicate n 0 := by
  induction n generalizing l with
  | zero => rfl
  | succ n ih =>
    rw [groups, List.drop_replicate, ih, List.replicate_append_replicate, List.take_replicate, bitsNat_replicate_false,
      List.replicate_succ]

/-! ## One bit of the stream -/

theorem getLsbD_putBit {x : Byte} {i j : Nat} (hi : i < 8) (hj : j < 8) (b : Bool) :
    (putBit x i b).getLsbD j = if j = i then b else x.getLsbD j := by
  unfold putBit
  cases b
  · simp only [Bool.false_eq_true, if_false, BitVec.getLsbD_and, BitVec.getLsbD_not, BitVec.getLsbD_shiftLeft,
      BitVec.getLsbD_one]
    by_cases h : j = i
    · subst h
      simp [hj]
    · have : ¬(j - i = 0 ∧ i ≤ j) := by omega
      rcases Nat.lt_or_ge j i with h' | h'
      · simp [hj, h, h']
      · have : j - i ≠ 0 := by omega
        simp [hj, h, this]
  · simp only [if_true, BitVec.getLsbD_or, BitVec.getLsbD_shiftLeft, BitVec.getLsbD_one]
    by_cases h : j = i
    · subst h
      simp [hj]
    · rcases Nat.lt_or_ge j i with h' | h'
      · simp [hj, h, h']
      · have : j - i ≠ 0 := by omega
        simp [hj, h, this]

theorem wf_bitWr {m : Memory} (h : Memory.wf m = true) (k : Nat) (b : Bool) : Memory.wf (bitWr m k b) = true :=
  wf_writeByte h _ _

/-- `BitWr` replaces only its own bit of the stream. -/
theorem bitRd_bitWr {m : Memory} (h : Memory.wf m = true) (k k' : Nat) (b : Bool) :
    bitRd (bitWr m k b) k' = if k' = k then b else bitRd m k' := by
  unfold bitRd bitWr
  rw [readByte_writeByte h]
  by_cases hb : bufBase + k' / 8 = bufBase + k / 8
  · rw [if_pos hb, getLsbD_putBit (by omega) (by omega)]
    have : 7 - k' % 8 = 7 - k % 8 ↔ k' = k := by omega
    simp only [this, hb]
  · have : k' ≠ k := fun e => hb (by rw [e])
    rw [if_neg hb, if_neg this]

theorem readByte_bitWr_of_ne {m : Memory} (h : Memory.wf m = true) {k a : Nat} (ha : a ≠ bufBase + k / 8) (b : Bool) :
    readByte (bitWr m k b) a = readByte m a := by
  rw [bitWr, readByte_writeByte h, if_neg ha]

/-! ## Runs of bits -/

@[simp] theorem length_getBits (m : Memory) (s n : Nat) : (getBits m s n).length = n := by
  induction n generalizing s with
  | zero => rfl
  | succ n ih => simp [getBits, ih]

theorem getElem_getBits (m : Memory) (s n i : Nat) (h : i < (getBits m s n).length) :
    (getBits m s n)[i] = bitRd m (s + i) := by
  induction n generalizing s i with
  | zero => simp at h
  | succ n ih =>
    cases i with
    | zero => rfl
    | succ i =>
      simp only [getBits, List.getElem_cons_succ]
      rw [ih, Nat.add_assoc, Nat.add_comm 1 i]

theorem getBits_congr {m m' : Memory} {s n : Nat} (h : ∀ i < n, bitRd m (s + i) = bitRd m' (s + i)) :
    getBits m s n = getBits m' s n :=
  List.ext_getElem (by simp) fun i h1 h2 => by
    rw [getElem_getBits, getElem_getBits]
    exact h i (by simpa using h1)

theorem wf_setBits {m : Memory} (h : Memory.wf m = true) (s : Nat) (bs : List Bool) :
    Memory.wf (setBits m s bs) = true := by
  induction bs generalizing m s with
  | nil => exact h
  | cons b bs ih => exact ih (wf_bitWr h s b) _

/-- A stream bit after a run of bits is written. -/
theorem bitRd_setBits {m : Memory} (h : Memory.wf m = true) (s : Nat) (bs : List Bool) (k : Nat) :
    bitRd (setBits m s bs) k = if s ≤ k ∧ k < s + bs.length then bs.getD (k - s) false else bitRd m k := by
  induction bs generalizing m s with
  | nil =>
    rw [if_neg (by simp only [List.length_nil]; omega)]
    rfl
  | cons b bs ih =>
    rw [setBits, ih (wf_bitWr h s b), bitRd_bitWr h]
    simp only [List.length_cons]
    by_cases h1 : s + 1 ≤ k ∧ k < s + 1 + bs.length
    · rw [if_pos h1, if_pos (by omega)]
      obtain ⟨n, hn⟩ : ∃ n, k - s = n + 1 := ⟨k - s - 1, by omega⟩
      rw [hn, List.getD_cons_succ]
      congr 1
      omega
    · rw [if_neg h1]
      by_cases h2 : k = s
      · rw [if_pos h2, if_pos (by omega), h2]
        simp
      · rw [if_neg h2, if_neg (by omega)]

/-- The bytes a run of bits does not touch keep their values. -/
theorem readByte_setBits_outside {m : Memory} (h : Memory.wf m = true) {s a : Nat} {bs : List Bool}
    (ha : a < bufBase + s / 8 ∨ bufBase + (s + bs.length + 7) / 8 ≤ a) :
    readByte (setBits m s bs) a = readByte m a := by
  induction bs generalizing m s with
  | nil => rfl
  | cons b bs ih =>
    simp only [List.length_cons] at ha
    rw [setBits, ih (wf_bitWr h s b) (by omega), readByte_bitWr_of_ne h (by omega)]

theorem inArrays_setBits {m : Memory} (h : Memory.inArrays m = true) {s : Nat} {bs : List Bool}
    (hs : s + bs.length ≤ 8192) : Memory.inArrays (setBits m s bs) = true := by
  induction bs generalizing m s with
  | nil => exact h
  | cons b bs ih =>
    simp only [List.length_cons] at hs
    refine ih (inArrays_writeByte h ?_ _) (by omega)
    have : s / 8 < 1024 := by omega
    simp [inArray, bufBase]
    omega

/-- Reading a run back gives the bits written. -/
theorem getBits_setBits_same {m : Memory} (h : Memory.wf m = true) (s : Nat) (bs : List Bool) :
    getBits (setBits m s bs) s bs.length = bs :=
  List.ext_getElem (by simp) fun i h1 h2 => by
    rw [getElem_getBits, bitRd_setBits h, if_pos (by omega)]
    simp [h2]

/-- A run that does not overlap the written one reads as before. -/
theorem getBits_setBits_disjoint {m : Memory} (h : Memory.wf m = true) {s n s' : Nat} {bs : List Bool}
    (hd : s + n ≤ s' ∨ s' + bs.length ≤ s) : getBits (setBits m s' bs) s n = getBits m s n :=
  getBits_congr fun i hi => by rw [bitRd_setBits h, if_neg (by omega)]

theorem getBits_add (m : Memory) (s a b : Nat) : getBits m s (a + b) = getBits m s a ++ getBits m (s + a) b := by
  induction a generalizing s with
  | zero => simp [getBits]
  | succ a ih => rw [Nat.add_right_comm, getBits, getBits, ih, List.cons_append, Nat.add_assoc, Nat.add_comm 1 a]

theorem setBits_append (m : Memory) (s : Nat) (as bs : List Bool) :
    setBits m s (as ++ bs) = setBits (setBits m s as) (s + as.length) bs := by
  induction as generalizing m s with
  | nil => rfl
  | cons a as ih => rw [List.cons_append, setBits, setBits, ih, List.length_cons, Nat.add_assoc, Nat.add_comm 1]

/-! ## Fields -/

theorem getUnsigned_toNat {w : Nat} (hw : w ≤ 32) (m : Memory) (s : Nat) :
    (getUnsigned m s w).toNat = bitsNat (getBits m s w) := by
  rw [getUnsigned, BitVec.toNat_ofNat, Nat.mod_eq_of_lt]
  exact lt_of_lt_of_le (bitsNat_lt _) (by simpa using Nat.pow_le_pow_right (n := 2) (by omega) hw)

theorem getUnsigned_lt {w : Nat} (hw : w ≤ 32) (m : Memory) (s : Nat) : (getUnsigned m s w).toNat < 2 ^ w := by
  rw [getUnsigned_toNat hw]
  simpa using bitsNat_lt (getBits m s w)

/-- Stream bit `s + i` is bit `w - 1 - i` of the field's value (R141). -/
theorem getLsbD_getUnsigned {w : Nat} (hw : w ≤ 32) (m : Memory) (s i : Nat) (hi : i < w) :
    (getUnsigned m s w).getLsbD (w - 1 - i) = bitRd m (s + i) := by
  rw [← BitVec.testBit_toNat, getUnsigned_toNat hw, testBit_bitsNat _ _ (by simp; omega), getElem_getBits]
  congr 1
  simp
  omega

/-- The bits of a field's value above its width are 0 (R141). -/
theorem getLsbD_getUnsigned_high {w : Nat} (hw : w ≤ 32) (m : Memory) (s i : Nat) (hi : w ≤ i) :
    (getUnsigned m s w).getLsbD i = false := by
  rw [← BitVec.testBit_toNat]
  exact Nat.testBit_lt_two_pow (lt_of_lt_of_le (getUnsigned_lt hw m s) (Nat.pow_le_pow_right (by omega) hi))

theorem wf_setUnsigned {m : Memory} (h : Memory.wf m = true) (s w : Nat) (v : Word) :
    Memory.wf (setUnsigned m s w v) = true := wf_setBits h _ _

theorem inArrays_setUnsigned {m : Memory} (h : Memory.inArrays m = true) {s w : Nat} (hs : s + w ≤ 8192) (v : Word) :
    Memory.inArrays (setUnsigned m s w v) = true := inArrays_setBits h (by simpa using hs)

/-- A stream bit after a field is written (R143). -/
theorem bitRd_setUnsigned {m : Memory} (h : Memory.wf m = true) (s w : Nat) (v : Word) (k : Nat) :
    bitRd (setUnsigned m s w v) k =
      if s ≤ k ∧ k < s + w then v.getLsbD (w - 1 - (k - s)) else bitRd m k := by
  rw [setUnsigned, bitRd_setBits h]
  simp only [length_natBits]
  by_cases hk : s ≤ k ∧ k < s + w
  · rw [if_pos hk, if_pos hk, List.getD_eq_getElem _ _ (by simp; omega), getElem_natBits, BitVec.testBit_toNat]
  · rw [if_neg hk, if_neg hk]

theorem readByte_setUnsigned_outside {m : Memory} (h : Memory.wf m = true) {s w a : Nat} {v : Word}
    (ha : a < bufBase + s / 8 ∨ bufBase + (s + w + 7) / 8 ≤ a) :
    readByte (setUnsigned m s w v) a = readByte m a :=
  readByte_setBits_outside h (by simpa using ha)

/-- Writing a field and reading it back gives the value's low `w` bits (R151(a)). -/
theorem getUnsigned_setUnsigned_same {m : Memory} (h : Memory.wf m = true) (s : Nat) {w : Nat} (hw : w ≤ 32) (v : Word) :
    (getUnsigned (setUnsigned m s w v) s w).toNat = v.toNat % 2 ^ w := by
  have hb := getBits_setBits_same h s (natBits w v.toNat)
  rw [length_natBits] at hb
  rw [getUnsigned_toNat hw, setUnsigned, hb, bitsNat_natBits]

/-- A disjoint field reads as before (R151(c)). -/
theorem getUnsigned_setUnsigned_disjoint {m : Memory} (h : Memory.wf m = true) {s w s' w' : Nat}
    (hd : s + w ≤ s' ∨ s' + w' ≤ s) (v : Word) :
    getUnsigned (setUnsigned m s' w' v) s w = getUnsigned m s w := by
  rw [getUnsigned, setUnsigned, getBits_setBits_disjoint h (by simpa using hd), getUnsigned]

end Sys2Proof.Machine
end

