-- ==== Sys2Proof/Laws/ArmorText.lean ====
section
/-! SUPPORT. The laws of the armor codec and the text alphabet: the alphabets are inverse to each other, packing and
unpacking, text fields written and read back (41_armor_text.md R160..R173). -/

namespace Sys2Proof.Machine

open Sys2Proof

/-! ## Armor -/

theorem armorChar_valid : ∀ v : Fin 64, armorValid (armorChar v.val) = true := by decide

theorem armorValue_armorChar_fin : ∀ v : Fin 64, armorValue (armorChar v.val) = v.val := by decide

/-- A character of the alphabet has its value (R160, R161). -/
theorem armorValue_armorChar {v : Nat} (h : v < 64) : armorValue (armorChar v) = v := armorValue_armorChar_fin ⟨v, h⟩

theorem armorChar_ne_comma : ∀ v : Fin 64, armorChar v.val ≠ 0x2C := by decide

theorem armorChar_ne_star : ∀ v : Fin 64, armorChar v.val ≠ 0x2A := by decide

theorem armorValue_lt (c : Byte) : armorValue c < 64 := by
  unfold armorValue
  split
  · rename_i h
    simp only [armorValid, Bool.or_eq_true, Bool.and_eq_true, decide_eq_true_eq] at h
    unfold armorFormula
    split <;> omega
  · omega

@[simp] theorem length_encodeArmor (mn : Bool) (bs : List Byte) :
    (encodeArmor mn bs).length = armorLen mn bs.length := by simp [encodeArmor]

@[simp] theorem length_decodeArmor (cs : List Byte) : (decodeArmor cs).length = unpackedLen cs.length := by
  simp [decodeArmor]

/-- Every character ARMENC produces is `armorChar` of a 6-bit value. -/
theorem mem_encodeArmor {mn : Bool} {bs : List Byte} {c : Byte} (h : c ∈ encodeArmor mn bs) :
    ∃ v : Fin 64, c = armorChar v.val := by
  obtain ⟨v, hv, rfl⟩ := List.mem_map.1 h
  exact ⟨⟨v, groups_lt _ _ _ v hv⟩, rfl⟩

theorem firstInvalid_eq_none {j : Nat} {cs : List Byte} (h : ∀ c ∈ cs, armorValid c = true) :
    firstInvalid j cs = none := by
  induction cs generalizing j with
  | nil => rfl
  | cons c cs ih =>
    rw [firstInvalid, if_pos (h c (by simp))]
    exact ih fun d hd => h d (List.mem_cons_of_mem _ hd)

/-- The scan finds the least index of an invalid character. -/
theorem firstInvalid_eq_some {j : Nat} {cs : List Byte} {i : Nat} {c : Byte} (h : firstInvalid j cs = some (i, c)) :
    j ≤ i ∧ cs[i - j]? = some c ∧ armorValid c = false ∧
      ∀ n, n < i - j → ∀ d, cs[n]? = some d → armorValid d = true := by
  induction cs generalizing j with
  | nil => simp [firstInvalid] at h
  | cons d cs ih =>
    rw [firstInvalid] at h
    split at h
    · rename_i hd
      obtain ⟨h1, h2, h3, h4⟩ := ih h
      obtain ⟨n, hn⟩ : ∃ n, i - j = n + 1 := ⟨i - j - 1, by omega⟩
      refine ⟨by omega, ?_, h3, fun n' hn' e he => ?_⟩
      · rw [hn, List.getElem?_cons_succ, ← h2]
        congr 1
        omega
      · cases n' with
        | zero => simpa [← Option.some.inj he] using hd
        | succ n' => exact h4 n' (by omega) e (by simpa using he)
    · rename_i hd
      obtain ⟨rfl, rfl⟩ := Prod.mk.inj (Option.some.inj h)
      exact ⟨le_refl _, by simp, by simpa using hd, fun n hn => by omega⟩

theorem firstInvalid_isSome {j : Nat} {cs : List Byte} (h : ∃ c ∈ cs, armorValid c = false) :
    ∃ i c, firstInvalid j cs = some (i, c) := by
  induction cs generalizing j with
  | nil => simp at h
  | cons d cs ih =>
    rw [firstInvalid]
    split
    · rename_i hd
      refine ih ?_
      obtain ⟨c, hc, hv⟩ := h
      rcases List.mem_cons.1 hc with rfl | hc
      · simp_all
      · exact ⟨c, hc, hv⟩
    · exact ⟨j, d, rfl⟩

/-- The bits of a byte list, most significant first. -/
def byteBits (bs : List Byte) : List Bool := bs.flatMap (fun b => natBits 8 b.toNat)

@[simp] theorem length_byteBits (bs : List Byte) : (byteBits bs).length = 8 * bs.length := by
  simp [byteBits, Nat.mul_comm]

/-- The values of ARMENC's characters are the 6-bit groups of the bytes. -/
theorem flatMap_encodeArmor (mn : Bool) (bs : List Byte) :
    (encodeArmor mn bs).flatMap (fun c => natBits 6 (armorValue c)) =
      (byteBits bs).take (6 * armorLen mn bs.length) ++
        List.replicate (6 * armorLen mn bs.length - 8 * bs.length) false := by
  have h : (encodeArmor mn bs).flatMap (fun c => natBits 6 (armorValue c)) =
      (groups 6 (armorLen mn bs.length) (byteBits bs)).flatMap (natBits 6) := by
    rw [encodeArmor, List.flatMap_map]
    refine List.flatMap_congr fun v hv => ?_
    rw [armorValue_armorChar (groups_lt 6 _ _ v hv)]
  rw [h, groups_flatMap, length_byteBits]

theorem armorLen_covers (mn : Bool) (l : Nat) : 8 * l ≤ 6 * armorLen mn l := by
  unfold armorLen
  split <;> omega

theorem le_unpackedLen_armorLen (mn : Bool) (l : Nat) : l ≤ unpackedLen (armorLen mn l) := by
  have := armorLen_covers mn l
  unfold unpackedLen
  omega

/-- The bytes of a bit list that starts with a byte list's bits and goes on with zeros. -/
theorem groups_byteBits (bs : List Byte) (z n : Nat) :
    (groups 8 (bs.length + n) (byteBits bs ++ List.replicate z false)).map (BitVec.ofNat 8) =
      bs ++ List.replicate n 0 := by
  have hb : byteBits bs = (bs.map BitVec.toNat).flatMap (natBits 8) := by
    rw [byteBits, List.flatMap_map]
  rw [groups_add, List.map_append]
  congr 1
  · have h := groups_of_values 8 (bs.map BitVec.toNat) (by simp; intro b _; exact b.isLt)
      (List.replicate z false)
    rw [List.length_map] at h
    rw [hb, h, List.map_map]
    simp [Function.comp_def]
  · have hl : (byteBits bs).length = 8 * bs.length := length_byteBits bs
    rw [List.drop_left' hl, groups_replicate_false, List.map_replicate]
    rfl

/-- R165: unpacking what was packed gives the bytes, then zero bytes up to the unpacked length. -/
theorem decodeArmor_encodeArmor (mn : Bool) (bs : List Byte) :
    decodeArmor (encodeArmor mn bs) =
      bs ++ List.replicate (unpackedLen (armorLen mn bs.length) - bs.length) 0 := by
  have h1 := armorLen_covers mn bs.length
  have h2 := le_unpackedLen_armorLen mn bs.length
  rw [decodeArmor, length_encodeArmor, flatMap_encodeArmor, List.take_of_length_le (by simpa using h1)]
  obtain ⟨n, hn⟩ : ∃ n, unpackedLen (armorLen mn bs.length) = bs.length + n :=
    ⟨unpackedLen (armorLen mn bs.length) - bs.length, by omega⟩
  rw [hn, groups_byteBits, Nat.add_sub_cancel_left]

/-! ## Text -/

theorem textValue_lt (c : Byte) : textValue c < 64 := by
  unfold textValue
  split
  · rename_i i h
    obtain ⟨hi, -⟩ := List.findIdx?_eq_some_iff_getElem.1 h
    simpa [textAlpha] using hi
  · omega

theorem textValue_textChar_fin : ∀ v : Fin 64, textValue (textChar v.val) = v.val := by decide

/-- The text alphabet's values and characters are inverse (R166..R168). -/
theorem textValue_textChar {v : Nat} (h : v < 64) : textValue (textChar v) = v := textValue_textChar_fin ⟨v, h⟩

/-- The characters `encodeText` keeps: a byte whose upcased form stands in TEXT_ALPHA. -/
def inTextAlphabet (c : Byte) : Bool := textAlpha.contains (upcase c)

theorem textChar_textValue_of_mem : ∀ c : Byte, inTextAlphabet c = true → textChar (textValue c) = upcase c := by
  decide +kernel

theorem upcase_upcase : ∀ c : Byte, upcase (upcase c) = upcase c := by decide +kernel

theorem textValue_upcase (c : Byte) : textValue (upcase c) = textValue c := by
  rw [textValue, upcase_upcase, textValue]

theorem textChar_eq_space_iff : ∀ v : Fin 64, textChar v.val = 0x20 ↔ v.val = 32 := by decide

@[simp] theorem length_fitText (n : Nat) (x : List Byte) : (fitText n x).length = n := by
  unfold fitText
  split
  · simpa using ‹n ≤ x.length›
  · rename_i h
    simp only [List.length_append, List.length_map, List.length_replicate]
    omega

theorem length_trimRight_le (x : List Byte) : (trimRight x).length ≤ x.length := by
  have h := List.length_dropWhile_le (fun c => decide (c = 0x20)) x.reverse
  simpa [trimRight] using h

theorem length_decodeText_le (m : Memory) (s w : Nat) : (decodeText m s w).length ≤ w / 6 := by
  have h := length_trimRight_le ((List.range (w / 6)).map fun i => textChar (getUnsigned m (s + 6 * i) 6).toNat)
  simpa [decodeText] using h

theorem trimRight_append_spaces (x : List Byte) (n : Nat) : trimRight (x ++ List.replicate n 0x20) = trimRight x := by
  unfold trimRight
  rw [List.reverse_append, List.reverse_replicate]
  congr 1
  induction n with
  | zero => rfl
  | succ n ih => rw [List.replicate_succ, List.cons_append, List.dropWhile_cons_of_pos (by simp), ih]

/-- A text with no trailing space is not trimmed. -/
theorem trimRight_of_last_ne {x : List Byte} (h : x.getLast? ≠ some 0x20) : trimRight x = x := by
  unfold trimRight
  rw [← List.head?_reverse] at h
  generalize hr : x.reverse = r at h
  have hx : x = r.reverse := by rw [← hr, List.reverse_reverse]
  cases r with
  | nil => simp [hx]
  | cons c r =>
    have hc : c ≠ 0x20 := fun e => h (by simp [e])
    rw [List.dropWhile_cons_of_neg (by simpa using hc), hx]

/-! ### Sextets in the stream -/

theorem wf_setSextets {m : Memory} (h : Memory.wf m = true) (s : Nat) (vs : List Nat) :
    Memory.wf (setSextets m s vs) = true := by
  induction vs generalizing m s with
  | nil => exact h
  | cons v vs ih => exact ih (wf_setUnsigned h _ _ _) _

theorem wf_encodeText {m : Memory} (h : Memory.wf m = true) (s w : Nat) (x : List Byte) :
    Memory.wf (encodeText m s w x) = true := wf_setSextets h _ _

/-- A run of 6-bit values is a run of bits. -/
theorem setSextets_eq_setBits (m : Memory) (s : Nat) (vs : List Nat) (h : ∀ v ∈ vs, v < 64) :
    setSextets m s vs = setBits m s (vs.flatMap (natBits 6)) := by
  induction vs generalizing m s with
  | nil => rfl
  | cons v vs ih =>
    have hv : v < 64 := h v (by simp)
    rw [setSextets, ih _ _ fun u hu => h u (List.mem_cons_of_mem _ hu), List.flatMap_cons, setBits_append,
      length_natBits, setUnsigned, BitVec.toNat_ofNat, Nat.mod_eq_of_lt (by omega)]

/-- The bits `encodeText` writes. -/
def textBits (n : Nat) (x : List Byte) : List Bool := ((fitText n x).map textValue).flatMap (natBits 6)

theorem length_flatMap_natBits (k : Nat) (vs : List Nat) : (vs.flatMap (natBits k)).length = k * vs.length := by
  simp [Nat.mul_comm]

@[simp] theorem length_textBits (n : Nat) (x : List Byte) : (textBits n x).length = 6 * n := by
  rw [textBits, length_flatMap_natBits, List.length_map, length_fitText]

theorem encodeText_eq_setBits (m : Memory) (s w : Nat) (x : List Byte) :
    encodeText m s w x = setBits m s (textBits (w / 6) x) :=
  setSextets_eq_setBits _ _ _ fun v hv => by
    obtain ⟨c, -, rfl⟩ := List.mem_map.1 hv
    exact textValue_lt c

theorem getElem_flatMap_natBits (k : Nat) (vs : List Nat) (i j : Nat) (hi : i < vs.length) (hj : j < k)
    (h : k * i + j < (vs.flatMap (natBits k)).length) :
    (vs.flatMap (natBits k))[k * i + j] = vs[i].testBit (k - 1 - j) := by
  induction vs generalizing i with
  | nil => simp at hi
  | cons v vs ih =>
    simp only [List.flatMap_cons]
    cases i with
    | zero =>
      rw [List.getElem_append_left (by simp; omega)]
      rw [getElem_natBits]
      simp
    | succ i =>
      rw [List.getElem_append_right (by rw [length_natBits, Nat.mul_succ]; omega)]
      have he : k * (i + 1) + j - (natBits k v).length = k * i + j := by
        rw [length_natBits, Nat.mul_succ]
        omega
      simp only [he, List.getElem_cons_succ]
      exact ih i (by simpa using hi) _

/-- The bits of a field read out of a run of bits. -/
theorem getBits_eq_of_bitRd {m : Memory} {s n : Nat} {bs : List Bool} (hl : bs.length = n)
    (h : ∀ i (hi : i < bs.length), bitRd m (s + i) = bs[i]) : getBits m s n = bs :=
  List.ext_getElem (by simp [hl]) fun i h1 h2 => by rw [getElem_getBits, h i h2]

/-- Reading 6-bit values out of a stream that holds them. -/
theorem getUnsigned_of_sextets {m : Memory} {s : Nat} {vs : List Nat} (hv : ∀ v ∈ vs, v < 64)
    (h : ∀ i (hi : i < (vs.flatMap (natBits 6)).length), bitRd m (s + i) = (vs.flatMap (natBits 6))[i])
    (i : Nat) (hi : i < vs.length) : (getUnsigned m (s + 6 * i) 6).toNat = vs[i] := by
  rw [getUnsigned_toNat (by omega)]
  have hlt : vs[i] < 2 ^ 6 := hv _ (List.getElem_mem hi)
  rw [← Nat.mod_eq_of_lt hlt, ← bitsNat_natBits]
  congr 1
  refine getBits_eq_of_bitRd (by simp) fun j hj => ?_
  rw [length_natBits] at hj
  have hlen := length_flatMap_natBits 6 vs
  rw [Nat.add_assoc, h (6 * i + j) (by rw [hlen]; omega), getElem_flatMap_natBits 6 vs i j hi hj, getElem_natBits]

/-- `decodeText` of a stream that holds a text field (R170, R171). -/
theorem decodeText_of_textBits {m : Memory} {s w : Nat} {x : List Byte}
    (h : ∀ i (hi : i < (textBits (w / 6) x).length), bitRd m (s + i) = (textBits (w / 6) x)[i]) :
    decodeText m s w = trimRight ((fitText (w / 6) x).map fun c => textChar (textValue c)) := by
  rw [decodeText]
  congr 1
  refine List.ext_getElem (by simp) fun i h1 h2 => ?_
  have hi : i < ((fitText (w / 6) x).map textValue).length := by simpa using h2
  rw [List.getElem_map, List.getElem_map, List.getElem_range, getUnsigned_of_sextets ?_ h i hi, List.getElem_map]
  intro v hv
  obtain ⟨c, -, rfl⟩ := List.mem_map.1 hv
  exact textValue_lt c

/-- The decoded text of a field just encoded (R170, R171). -/
theorem decodeText_encodeText {m : Memory} (h : Memory.wf m = true) (s w : Nat) (x : List Byte) :
    decodeText (encodeText m s w x) s w = trimRight ((fitText (w / 6) x).map fun c => textChar (textValue c)) := by
  refine decodeText_of_textBits fun i hi => ?_
  rw [encodeText_eq_setBits, bitRd_setBits h, if_pos (by omega), Nat.add_sub_cancel_left, List.getD_eq_getElem _ _ hi]

/-- What a fitted text reads back as when every character has a table entry: its first `n` characters, upcased and
right-trimmed (R172). -/
theorem trimRight_fitText {n : Nat} {x : List Byte} (hx : ∀ c ∈ x, inTextAlphabet c = true) :
    trimRight ((fitText n x).map fun c => textChar (textValue c)) = trimRight ((x.take n).map upcase) := by
  have key : ∀ y : List Byte, (∀ c ∈ y, inTextAlphabet c = true) →
      (y.map upcase).map (fun c => textChar (textValue c)) = y.map upcase := fun y hy => by
    rw [List.map_map]
    refine List.map_congr_left fun c hc => ?_
    show textChar (textValue (upcase c)) = upcase c
    rw [textValue_upcase, textChar_textValue_of_mem c (hy c hc)]
  unfold fitText
  split
  · rw [← List.map_take, key _ fun c hc => hx c (List.mem_of_mem_take hc)]
  · rename_i hn
    have hs : textChar (textValue 0x20) = 0x20 := by decide
    rw [List.map_append, key _ hx, List.map_replicate, hs, trimRight_append_spaces, List.take_of_length_le (by omega)]

theorem inArrays_encodeText {m : Memory} (h : Memory.inArrays m = true) {s w : Nat} (hs : s + 6 * (w / 6) ≤ 8192)
    (x : List Byte) : Memory.inArrays (encodeText m s w x) = true := by
  rw [encodeText_eq_setBits]
  exact inArrays_setBits h (by simpa using hs)

end Sys2Proof.Machine
end

