-- ==== Sys2Proof/Laws/State.lean ====
section
/-! SUPPORT. One lemma for each field of `State` under each named update, so that no proof unfolds a record update. -/

namespace Sys2Proof.Machine

open Sys2Proof

/-! ## `writeRec` -/

@[simp] theorem writeRec_ctrl (i : Fin 32) (v : Word) (s : State) : (writeRec i v s).ctrl = s.ctrl := rfl
@[simp] theorem writeRec_status (i : Fin 32) (v : Word) (s : State) : (writeRec i v s).status = s.status := rfl
@[simp] theorem writeRec_inten (i : Fin 32) (v : Word) (s : State) : (writeRec i v s).inten = s.inten := rfl
@[simp] theorem writeRec_start (i : Fin 32) (v : Word) (s : State) : (writeRec i v s).start = s.start := rfl
@[simp] theorem writeRec_width (i : Fin 32) (v : Word) (s : State) : (writeRec i v s).width = s.width := rfl
@[simp] theorem writeRec_value (i : Fin 32) (v : Word) (s : State) : (writeRec i v s).value = s.value := rfl
@[simp] theorem writeRec_result (i : Fin 32) (v : Word) (s : State) : (writeRec i v s).result = s.result := rfl
@[simp] theorem writeRec_bufLen (i : Fin 32) (v : Word) (s : State) : (writeRec i v s).bufLen = s.bufLen := rfl
@[simp] theorem writeRec_txtLen (i : Fin 32) (v : Word) (s : State) : (writeRec i v s).txtLen = s.txtLen := rfl
@[simp] theorem writeRec_payLen (i : Fin 32) (v : Word) (s : State) : (writeRec i v s).payLen = s.payLen := rfl
@[simp] theorem writeRec_errinfo (i : Fin 32) (v : Word) (s : State) : (writeRec i v s).errinfo = s.errinfo := rfl
@[simp] theorem writeRec_str0 (i : Fin 32) (v : Word) (s : State) : (writeRec i v s).str0 = s.str0 := rfl
@[simp] theorem writeRec_str1 (i : Fin 32) (v : Word) (s : State) : (writeRec i v s).str1 = s.str1 := rfl
@[simp] theorem writeRec_str2 (i : Fin 32) (v : Word) (s : State) : (writeRec i v s).str2 = s.str2 := rfl
@[simp] theorem writeRec_now0 (i : Fin 32) (v : Word) (s : State) : (writeRec i v s).now0 = s.now0 := rfl
@[simp] theorem writeRec_now1 (i : Fin 32) (v : Word) (s : State) : (writeRec i v s).now1 = s.now1 := rfl
@[simp] theorem writeRec_cfg (i : Fin 32) (v : Word) (s : State) : (writeRec i v s).cfg = s.cfg := rfl
@[simp] theorem writeRec_recs (i : Fin 32) (v : Word) (s : State) : (writeRec i v s).recs = s.recs.set i v := rfl
@[simp] theorem writeRec_mem (i : Fin 32) (v : Word) (s : State) : (writeRec i v s).mem = s.mem := rfl
@[simp] theorem writeRec_eng (i : Fin 32) (v : Word) (s : State) : (writeRec i v s).eng = s.eng := rfl
@[simp] theorem writeRec_rstN (i : Fin 32) (v : Word) (s : State) : (writeRec i v s).rstN = s.rstN := rfl
@[simp] theorem writeRec_turns (i : Fin 32) (v : Word) (s : State) : (writeRec i v s).turns = s.turns := rfl
@[simp] theorem writeRec_resp (i : Fin 32) (v : Word) (s : State) : (writeRec i v s).resp = s.resp := rfl
@[simp] theorem writeRec_draws (i : Fin 32) (v : Word) (s : State) : (writeRec i v s).draws = s.draws := rfl

/-! ## `loadBuf` -/

@[simp] theorem loadBuf_ctrl (bs : List Byte) (s : State) : (loadBuf bs s).ctrl = s.ctrl := rfl
@[simp] theorem loadBuf_status (bs : List Byte) (s : State) : (loadBuf bs s).status = s.status := rfl
@[simp] theorem loadBuf_inten (bs : List Byte) (s : State) : (loadBuf bs s).inten = s.inten := rfl
@[simp] theorem loadBuf_start (bs : List Byte) (s : State) : (loadBuf bs s).start = s.start := rfl
@[simp] theorem loadBuf_width (bs : List Byte) (s : State) : (loadBuf bs s).width = s.width := rfl
@[simp] theorem loadBuf_value (bs : List Byte) (s : State) : (loadBuf bs s).value = s.value := rfl
@[simp] theorem loadBuf_result (bs : List Byte) (s : State) : (loadBuf bs s).result = s.result := rfl
@[simp] theorem loadBuf_bufLen (bs : List Byte) (s : State) : (loadBuf bs s).bufLen = bs.length := rfl
@[simp] theorem loadBuf_txtLen (bs : List Byte) (s : State) : (loadBuf bs s).txtLen = s.txtLen := rfl
@[simp] theorem loadBuf_payLen (bs : List Byte) (s : State) : (loadBuf bs s).payLen = s.payLen := rfl
@[simp] theorem loadBuf_errinfo (bs : List Byte) (s : State) : (loadBuf bs s).errinfo = s.errinfo := rfl
@[simp] theorem loadBuf_str0 (bs : List Byte) (s : State) : (loadBuf bs s).str0 = s.str0 := rfl
@[simp] theorem loadBuf_str1 (bs : List Byte) (s : State) : (loadBuf bs s).str1 = s.str1 := rfl
@[simp] theorem loadBuf_str2 (bs : List Byte) (s : State) : (loadBuf bs s).str2 = s.str2 := rfl
@[simp] theorem loadBuf_now0 (bs : List Byte) (s : State) : (loadBuf bs s).now0 = s.now0 := rfl
@[simp] theorem loadBuf_now1 (bs : List Byte) (s : State) : (loadBuf bs s).now1 = s.now1 := rfl
@[simp] theorem loadBuf_cfg (bs : List Byte) (s : State) : (loadBuf bs s).cfg = s.cfg := rfl
@[simp] theorem loadBuf_recs (bs : List Byte) (s : State) : (loadBuf bs s).recs = s.recs := rfl
@[simp] theorem loadBuf_mem (bs : List Byte) (s : State) : (loadBuf bs s).mem = writeBytes s.mem bufBase bs := rfl
@[simp] theorem loadBuf_eng (bs : List Byte) (s : State) : (loadBuf bs s).eng = s.eng := rfl
@[simp] theorem loadBuf_rstN (bs : List Byte) (s : State) : (loadBuf bs s).rstN = s.rstN := rfl
@[simp] theorem loadBuf_turns (bs : List Byte) (s : State) : (loadBuf bs s).turns = s.turns := rfl
@[simp] theorem loadBuf_resp (bs : List Byte) (s : State) : (loadBuf bs s).resp = s.resp := rfl
@[simp] theorem loadBuf_draws (bs : List Byte) (s : State) : (loadBuf bs s).draws = s.draws := rfl

/-! ## `loadTxt` -/

@[simp] theorem loadTxt_ctrl (bs : List Byte) (s : State) : (loadTxt bs s).ctrl = s.ctrl := rfl
@[simp] theorem loadTxt_status (bs : List Byte) (s : State) : (loadTxt bs s).status = s.status := rfl
@[simp] theorem loadTxt_inten (bs : List Byte) (s : State) : (loadTxt bs s).inten = s.inten := rfl
@[simp] theorem loadTxt_start (bs : List Byte) (s : State) : (loadTxt bs s).start = s.start := rfl
@[simp] theorem loadTxt_width (bs : List Byte) (s : State) : (loadTxt bs s).width = s.width := rfl
@[simp] theorem loadTxt_value (bs : List Byte) (s : State) : (loadTxt bs s).value = s.value := rfl
@[simp] theorem loadTxt_result (bs : List Byte) (s : State) : (loadTxt bs s).result = s.result := rfl
@[simp] theorem loadTxt_bufLen (bs : List Byte) (s : State) : (loadTxt bs s).bufLen = s.bufLen := rfl
@[simp] theorem loadTxt_txtLen (bs : List Byte) (s : State) : (loadTxt bs s).txtLen = bs.length := rfl
@[simp] theorem loadTxt_payLen (bs : List Byte) (s : State) : (loadTxt bs s).payLen = s.payLen := rfl
@[simp] theorem loadTxt_errinfo (bs : List Byte) (s : State) : (loadTxt bs s).errinfo = s.errinfo := rfl
@[simp] theorem loadTxt_str0 (bs : List Byte) (s : State) : (loadTxt bs s).str0 = s.str0 := rfl
@[simp] theorem loadTxt_str1 (bs : List Byte) (s : State) : (loadTxt bs s).str1 = s.str1 := rfl
@[simp] theorem loadTxt_str2 (bs : List Byte) (s : State) : (loadTxt bs s).str2 = s.str2 := rfl
@[simp] theorem loadTxt_now0 (bs : List Byte) (s : State) : (loadTxt bs s).now0 = s.now0 := rfl
@[simp] theorem loadTxt_now1 (bs : List Byte) (s : State) : (loadTxt bs s).now1 = s.now1 := rfl
@[simp] theorem loadTxt_cfg (bs : List Byte) (s : State) : (loadTxt bs s).cfg = s.cfg := rfl
@[simp] theorem loadTxt_recs (bs : List Byte) (s : State) : (loadTxt bs s).recs = s.recs := rfl
@[simp] theorem loadTxt_mem (bs : List Byte) (s : State) : (loadTxt bs s).mem = writeBytes s.mem txtBase bs := rfl
@[simp] theorem loadTxt_eng (bs : List Byte) (s : State) : (loadTxt bs s).eng = s.eng := rfl
@[simp] theorem loadTxt_rstN (bs : List Byte) (s : State) : (loadTxt bs s).rstN = s.rstN := rfl
@[simp] theorem loadTxt_turns (bs : List Byte) (s : State) : (loadTxt bs s).turns = s.turns := rfl
@[simp] theorem loadTxt_resp (bs : List Byte) (s : State) : (loadTxt bs s).resp = s.resp := rfl
@[simp] theorem loadTxt_draws (bs : List Byte) (s : State) : (loadTxt bs s).draws = s.draws := rfl

/-! ## `loadPay` -/

@[simp] theorem loadPay_ctrl (bs : List Byte) (s : State) : (loadPay bs s).ctrl = s.ctrl := rfl
@[simp] theorem loadPay_status (bs : List Byte) (s : State) : (loadPay bs s).status = s.status := rfl
@[simp] theorem loadPay_inten (bs : List Byte) (s : State) : (loadPay bs s).inten = s.inten := rfl
@[simp] theorem loadPay_start (bs : List Byte) (s : State) : (loadPay bs s).start = s.start := rfl
@[simp] theorem loadPay_width (bs : List Byte) (s : State) : (loadPay bs s).width = s.width := rfl
@[simp] theorem loadPay_value (bs : List Byte) (s : State) : (loadPay bs s).value = s.value := rfl
@[simp] theorem loadPay_result (bs : List Byte) (s : State) : (loadPay bs s).result = s.result := rfl
@[simp] theorem loadPay_bufLen (bs : List Byte) (s : State) : (loadPay bs s).bufLen = s.bufLen := rfl
@[simp] theorem loadPay_txtLen (bs : List Byte) (s : State) : (loadPay bs s).txtLen = s.txtLen := rfl
@[simp] theorem loadPay_payLen (bs : List Byte) (s : State) : (loadPay bs s).payLen = bs.length := rfl
@[simp] theorem loadPay_errinfo (bs : List Byte) (s : State) : (loadPay bs s).errinfo = s.errinfo := rfl
@[simp] theorem loadPay_str0 (bs : List Byte) (s : State) : (loadPay bs s).str0 = s.str0 := rfl
@[simp] theorem loadPay_str1 (bs : List Byte) (s : State) : (loadPay bs s).str1 = s.str1 := rfl
@[simp] theorem loadPay_str2 (bs : List Byte) (s : State) : (loadPay bs s).str2 = s.str2 := rfl
@[simp] theorem loadPay_now0 (bs : List Byte) (s : State) : (loadPay bs s).now0 = s.now0 := rfl
@[simp] theorem loadPay_now1 (bs : List Byte) (s : State) : (loadPay bs s).now1 = s.now1 := rfl
@[simp] theorem loadPay_cfg (bs : List Byte) (s : State) : (loadPay bs s).cfg = s.cfg := rfl
@[simp] theorem loadPay_recs (bs : List Byte) (s : State) : (loadPay bs s).recs = s.recs := rfl
@[simp] theorem loadPay_mem (bs : List Byte) (s : State) : (loadPay bs s).mem = writeBytes s.mem payBase bs := rfl
@[simp] theorem loadPay_eng (bs : List Byte) (s : State) : (loadPay bs s).eng = s.eng := rfl
@[simp] theorem loadPay_rstN (bs : List Byte) (s : State) : (loadPay bs s).rstN = s.rstN := rfl
@[simp] theorem loadPay_turns (bs : List Byte) (s : State) : (loadPay bs s).turns = s.turns := rfl
@[simp] theorem loadPay_resp (bs : List Byte) (s : State) : (loadPay bs s).resp = s.resp := rfl
@[simp] theorem loadPay_draws (bs : List Byte) (s : State) : (loadPay bs s).draws = s.draws := rfl

/-! ## `setResult` -/

@[simp] theorem setResult_ctrl (v : Word) (s : State) : (setResult v s).ctrl = s.ctrl := rfl
@[simp] theorem setResult_status (v : Word) (s : State) : (setResult v s).status = s.status := rfl
@[simp] theorem setResult_inten (v : Word) (s : State) : (setResult v s).inten = s.inten := rfl
@[simp] theorem setResult_start (v : Word) (s : State) : (setResult v s).start = s.start := rfl
@[simp] theorem setResult_width (v : Word) (s : State) : (setResult v s).width = s.width := rfl
@[simp] theorem setResult_value (v : Word) (s : State) : (setResult v s).value = s.value := rfl
@[simp] theorem setResult_result (v : Word) (s : State) : (setResult v s).result = v := rfl
@[simp] theorem setResult_bufLen (v : Word) (s : State) : (setResult v s).bufLen = s.bufLen := rfl
@[simp] theorem setResult_txtLen (v : Word) (s : State) : (setResult v s).txtLen = s.txtLen := rfl
@[simp] theorem setResult_payLen (v : Word) (s : State) : (setResult v s).payLen = s.payLen := rfl
@[simp] theorem setResult_errinfo (v : Word) (s : State) : (setResult v s).errinfo = s.errinfo := rfl
@[simp] theorem setResult_str0 (v : Word) (s : State) : (setResult v s).str0 = s.str0 := rfl
@[simp] theorem setResult_str1 (v : Word) (s : State) : (setResult v s).str1 = s.str1 := rfl
@[simp] theorem setResult_str2 (v : Word) (s : State) : (setResult v s).str2 = s.str2 := rfl
@[simp] theorem setResult_now0 (v : Word) (s : State) : (setResult v s).now0 = s.now0 := rfl
@[simp] theorem setResult_now1 (v : Word) (s : State) : (setResult v s).now1 = s.now1 := rfl
@[simp] theorem setResult_cfg (v : Word) (s : State) : (setResult v s).cfg = s.cfg := rfl
@[simp] theorem setResult_recs (v : Word) (s : State) : (setResult v s).recs = s.recs := rfl
@[simp] theorem setResult_mem (v : Word) (s : State) : (setResult v s).mem = s.mem := rfl
@[simp] theorem setResult_eng (v : Word) (s : State) : (setResult v s).eng = s.eng := rfl
@[simp] theorem setResult_rstN (v : Word) (s : State) : (setResult v s).rstN = s.rstN := rfl
@[simp] theorem setResult_turns (v : Word) (s : State) : (setResult v s).turns = s.turns := rfl
@[simp] theorem setResult_resp (v : Word) (s : State) : (setResult v s).resp = s.resp := rfl
@[simp] theorem setResult_draws (v : Word) (s : State) : (setResult v s).draws = s.draws := rfl

/-! ## `launch` -/

@[simp] theorem launch_ctrl (w : Word) (s : State) : (launch w s).ctrl = Ctrl.ofWord w := rfl
@[simp] theorem launch_status (w : Word) (s : State) : (launch w s).status = s.status.launched := rfl
@[simp] theorem launch_inten (w : Word) (s : State) : (launch w s).inten = s.inten := rfl
@[simp] theorem launch_start (w : Word) (s : State) : (launch w s).start = s.start := rfl
@[simp] theorem launch_width (w : Word) (s : State) : (launch w s).width = s.width := rfl
@[simp] theorem launch_value (w : Word) (s : State) : (launch w s).value = s.value := rfl
@[simp] theorem launch_result (w : Word) (s : State) : (launch w s).result = s.result := rfl
@[simp] theorem launch_bufLen (w : Word) (s : State) : (launch w s).bufLen = s.bufLen := rfl
@[simp] theorem launch_txtLen (w : Word) (s : State) : (launch w s).txtLen = s.txtLen := rfl
@[simp] theorem launch_payLen (w : Word) (s : State) : (launch w s).payLen = s.payLen := rfl
@[simp] theorem launch_errinfo (w : Word) (s : State) : (launch w s).errinfo = s.errinfo := rfl
@[simp] theorem launch_str0 (w : Word) (s : State) : (launch w s).str0 = s.str0 := rfl
@[simp] theorem launch_str1 (w : Word) (s : State) : (launch w s).str1 = s.str1 := rfl
@[simp] theorem launch_str2 (w : Word) (s : State) : (launch w s).str2 = s.str2 := rfl
@[simp] theorem launch_now0 (w : Word) (s : State) : (launch w s).now0 = s.now0 := rfl
@[simp] theorem launch_now1 (w : Word) (s : State) : (launch w s).now1 = s.now1 := rfl
@[simp] theorem launch_cfg (w : Word) (s : State) : (launch w s).cfg = s.cfg := rfl
@[simp] theorem launch_recs (w : Word) (s : State) : (launch w s).recs = s.recs := rfl
@[simp] theorem launch_mem (w : Word) (s : State) : (launch w s).mem = s.mem := rfl
@[simp] theorem launch_eng (w : Word) (s : State) : (launch w s).eng = Eng.launched := rfl
@[simp] theorem launch_rstN (w : Word) (s : State) : (launch w s).rstN = s.rstN := rfl
@[simp] theorem launch_turns (w : Word) (s : State) : (launch w s).turns = s.turns := rfl
@[simp] theorem launch_resp (w : Word) (s : State) : (launch w s).resp = s.resp := rfl
@[simp] theorem launch_draws (w : Word) (s : State) : (launch w s).draws = s.draws := rfl

/-! ## `succeed` -/

@[simp] theorem succeed_ctrl (s : State) : (succeed s).ctrl = s.ctrl := rfl
@[simp] theorem succeed_status (s : State) : (succeed s).status = s.status.succeeded := rfl
@[simp] theorem succeed_inten (s : State) : (succeed s).inten = s.inten := rfl
@[simp] theorem succeed_start (s : State) : (succeed s).start = s.start := rfl
@[simp] theorem succeed_width (s : State) : (succeed s).width = s.width := rfl
@[simp] theorem succeed_value (s : State) : (succeed s).value = s.value := rfl
@[simp] theorem succeed_result (s : State) : (succeed s).result = s.result := rfl
@[simp] theorem succeed_bufLen (s : State) : (succeed s).bufLen = s.bufLen := rfl
@[simp] theorem succeed_txtLen (s : State) : (succeed s).txtLen = s.txtLen := rfl
@[simp] theorem succeed_payLen (s : State) : (succeed s).payLen = s.payLen := rfl
@[simp] theorem succeed_errinfo (s : State) : (succeed s).errinfo = s.errinfo := rfl
@[simp] theorem succeed_str0 (s : State) : (succeed s).str0 = s.str0 := rfl
@[simp] theorem succeed_str1 (s : State) : (succeed s).str1 = s.str1 := rfl
@[simp] theorem succeed_str2 (s : State) : (succeed s).str2 = s.str2 := rfl
@[simp] theorem succeed_now0 (s : State) : (succeed s).now0 = s.now0 := rfl
@[simp] theorem succeed_now1 (s : State) : (succeed s).now1 = s.now1 := rfl
@[simp] theorem succeed_cfg (s : State) : (succeed s).cfg = s.cfg := rfl
@[simp] theorem succeed_recs (s : State) : (succeed s).recs = s.recs := rfl
@[simp] theorem succeed_mem (s : State) : (succeed s).mem = s.mem := rfl
@[simp] theorem succeed_eng (s : State) : (succeed s).eng = Eng.idle := rfl
@[simp] theorem succeed_rstN (s : State) : (succeed s).rstN = s.rstN := rfl
@[simp] theorem succeed_turns (s : State) : (succeed s).turns = s.turns := rfl
@[simp] theorem succeed_resp (s : State) : (succeed s).resp = s.resp := rfl
@[simp] theorem succeed_draws (s : State) : (succeed s).draws = s.draws := rfl

/-! ## `raise` -/

@[simp] theorem raise_ctrl (e : ECode) (info : Word) (s : State) : (raise e info s).ctrl = s.ctrl := rfl
@[simp] theorem raise_status (e : ECode) (info : Word) (s : State) : (raise e info s).status = s.status.failed e := rfl
@[simp] theorem raise_inten (e : ECode) (info : Word) (s : State) : (raise e info s).inten = s.inten := rfl
@[simp] theorem raise_start (e : ECode) (info : Word) (s : State) : (raise e info s).start = s.start := rfl
@[simp] theorem raise_width (e : ECode) (info : Word) (s : State) : (raise e info s).width = s.width := rfl
@[simp] theorem raise_value (e : ECode) (info : Word) (s : State) : (raise e info s).value = s.value := rfl
@[simp] theorem raise_result (e : ECode) (info : Word) (s : State) : (raise e info s).result = s.result := rfl
@[simp] theorem raise_bufLen (e : ECode) (info : Word) (s : State) : (raise e info s).bufLen = s.bufLen := rfl
@[simp] theorem raise_txtLen (e : ECode) (info : Word) (s : State) : (raise e info s).txtLen = s.txtLen := rfl
@[simp] theorem raise_payLen (e : ECode) (info : Word) (s : State) : (raise e info s).payLen = s.payLen := rfl
@[simp] theorem raise_errinfo (e : ECode) (info : Word) (s : State) : (raise e info s).errinfo = info := rfl
@[simp] theorem raise_str0 (e : ECode) (info : Word) (s : State) : (raise e info s).str0 = s.str0 := rfl
@[simp] theorem raise_str1 (e : ECode) (info : Word) (s : State) : (raise e info s).str1 = s.str1 := rfl
@[simp] theorem raise_str2 (e : ECode) (info : Word) (s : State) : (raise e info s).str2 = s.str2 := rfl
@[simp] theorem raise_now0 (e : ECode) (info : Word) (s : State) : (raise e info s).now0 = s.now0 := rfl
@[simp] theorem raise_now1 (e : ECode) (info : Word) (s : State) : (raise e info s).now1 = s.now1 := rfl
@[simp] theorem raise_cfg (e : ECode) (info : Word) (s : State) : (raise e info s).cfg = s.cfg := rfl
@[simp] theorem raise_recs (e : ECode) (info : Word) (s : State) : (raise e info s).recs = s.recs := rfl
@[simp] theorem raise_mem (e : ECode) (info : Word) (s : State) : (raise e info s).mem = s.mem := rfl
@[simp] theorem raise_eng (e : ECode) (info : Word) (s : State) : (raise e info s).eng = Eng.idle := rfl
@[simp] theorem raise_rstN (e : ECode) (info : Word) (s : State) : (raise e info s).rstN = s.rstN := rfl
@[simp] theorem raise_turns (e : ECode) (info : Word) (s : State) : (raise e info s).turns = s.turns := rfl
@[simp] theorem raise_resp (e : ECode) (info : Word) (s : State) : (raise e info s).resp = s.resp := rfl
@[simp] theorem raise_draws (e : ECode) (info : Word) (s : State) : (raise e info s).draws = s.draws := rfl

/-! ## `goAbsent` -/

@[simp] theorem goAbsent_ctrl (r : AReason) (s : State) : (goAbsent r s).ctrl = s.ctrl := rfl
@[simp] theorem goAbsent_status (r : AReason) (s : State) : (goAbsent r s).status = s.status.wentAbsent r := rfl
@[simp] theorem goAbsent_inten (r : AReason) (s : State) : (goAbsent r s).inten = s.inten := rfl
@[simp] theorem goAbsent_start (r : AReason) (s : State) : (goAbsent r s).start = s.start := rfl
@[simp] theorem goAbsent_width (r : AReason) (s : State) : (goAbsent r s).width = s.width := rfl
@[simp] theorem goAbsent_value (r : AReason) (s : State) : (goAbsent r s).value = s.value := rfl
@[simp] theorem goAbsent_result (r : AReason) (s : State) : (goAbsent r s).result = s.result := rfl
@[simp] theorem goAbsent_bufLen (r : AReason) (s : State) : (goAbsent r s).bufLen = s.bufLen := rfl
@[simp] theorem goAbsent_txtLen (r : AReason) (s : State) : (goAbsent r s).txtLen = s.txtLen := rfl
@[simp] theorem goAbsent_payLen (r : AReason) (s : State) : (goAbsent r s).payLen = s.payLen := rfl
@[simp] theorem goAbsent_errinfo (r : AReason) (s : State) : (goAbsent r s).errinfo = s.errinfo := rfl
@[simp] theorem goAbsent_str0 (r : AReason) (s : State) : (goAbsent r s).str0 = s.str0 := rfl
@[simp] theorem goAbsent_str1 (r : AReason) (s : State) : (goAbsent r s).str1 = s.str1 := rfl
@[simp] theorem goAbsent_str2 (r : AReason) (s : State) : (goAbsent r s).str2 = s.str2 := rfl
@[simp] theorem goAbsent_now0 (r : AReason) (s : State) : (goAbsent r s).now0 = s.now0 := rfl
@[simp] theorem goAbsent_now1 (r : AReason) (s : State) : (goAbsent r s).now1 = s.now1 := rfl
@[simp] theorem goAbsent_cfg (r : AReason) (s : State) : (goAbsent r s).cfg = s.cfg := rfl
@[simp] theorem goAbsent_recs (r : AReason) (s : State) : (goAbsent r s).recs = s.recs := rfl
@[simp] theorem goAbsent_mem (r : AReason) (s : State) : (goAbsent r s).mem = s.mem := rfl
@[simp] theorem goAbsent_eng (r : AReason) (s : State) : (goAbsent r s).eng = Eng.idle := rfl
@[simp] theorem goAbsent_rstN (r : AReason) (s : State) : (goAbsent r s).rstN = s.rstN := rfl
@[simp] theorem goAbsent_turns (r : AReason) (s : State) : (goAbsent r s).turns = s.turns := rfl
@[simp] theorem goAbsent_resp (r : AReason) (s : State) : (goAbsent r s).resp = s.resp := rfl
@[simp] theorem goAbsent_draws (r : AReason) (s : State) : (goAbsent r s).draws = s.draws := rfl

/-! ## `acknowledge` -/

@[simp] theorem acknowledge_ctrl (w : Word) (s : State) : (acknowledge w s).ctrl = s.ctrl := rfl
@[simp] theorem acknowledge_status (w : Word) (s : State) : (acknowledge w s).status = s.status.acknowledged w := rfl
@[simp] theorem acknowledge_inten (w : Word) (s : State) : (acknowledge w s).inten = s.inten := rfl
@[simp] theorem acknowledge_start (w : Word) (s : State) : (acknowledge w s).start = s.start := rfl
@[simp] theorem acknowledge_width (w : Word) (s : State) : (acknowledge w s).width = s.width := rfl
@[simp] theorem acknowledge_value (w : Word) (s : State) : (acknowledge w s).value = s.value := rfl
@[simp] theorem acknowledge_result (w : Word) (s : State) : (acknowledge w s).result = s.result := rfl
@[simp] theorem acknowledge_bufLen (w : Word) (s : State) : (acknowledge w s).bufLen = s.bufLen := rfl
@[simp] theorem acknowledge_txtLen (w : Word) (s : State) : (acknowledge w s).txtLen = s.txtLen := rfl
@[simp] theorem acknowledge_payLen (w : Word) (s : State) : (acknowledge w s).payLen = s.payLen := rfl
@[simp] theorem acknowledge_errinfo (w : Word) (s : State) : (acknowledge w s).errinfo = s.errinfo := rfl
@[simp] theorem acknowledge_str0 (w : Word) (s : State) : (acknowledge w s).str0 = s.str0 := rfl
@[simp] theorem acknowledge_str1 (w : Word) (s : State) : (acknowledge w s).str1 = s.str1 := rfl
@[simp] theorem acknowledge_str2 (w : Word) (s : State) : (acknowledge w s).str2 = s.str2 := rfl
@[simp] theorem acknowledge_now0 (w : Word) (s : State) : (acknowledge w s).now0 = s.now0 := rfl
@[simp] theorem acknowledge_now1 (w : Word) (s : State) : (acknowledge w s).now1 = s.now1 := rfl
@[simp] theorem acknowledge_cfg (w : Word) (s : State) : (acknowledge w s).cfg = s.cfg := rfl
@[simp] theorem acknowledge_recs (w : Word) (s : State) : (acknowledge w s).recs = s.recs := rfl
@[simp] theorem acknowledge_mem (w : Word) (s : State) : (acknowledge w s).mem = s.mem := rfl
@[simp] theorem acknowledge_eng (w : Word) (s : State) : (acknowledge w s).eng = s.eng := rfl
@[simp] theorem acknowledge_rstN (w : Word) (s : State) : (acknowledge w s).rstN = s.rstN := rfl
@[simp] theorem acknowledge_turns (w : Word) (s : State) : (acknowledge w s).turns = s.turns := rfl
@[simp] theorem acknowledge_resp (w : Word) (s : State) : (acknowledge w s).resp = s.resp := rfl
@[simp] theorem acknowledge_draws (w : Word) (s : State) : (acknowledge w s).draws = s.draws := rfl

/-! ## `clearRecord` -/

@[simp] theorem clearRecord_ctrl (s : State) : (clearRecord s).ctrl = s.ctrl := rfl
@[simp] theorem clearRecord_status (s : State) : (clearRecord s).status = s.status := rfl
@[simp] theorem clearRecord_inten (s : State) : (clearRecord s).inten = s.inten := rfl
@[simp] theorem clearRecord_start (s : State) : (clearRecord s).start = s.start := rfl
@[simp] theorem clearRecord_width (s : State) : (clearRecord s).width = s.width := rfl
@[simp] theorem clearRecord_value (s : State) : (clearRecord s).value = s.value := rfl
@[simp] theorem clearRecord_result (s : State) : (clearRecord s).result = s.result := rfl
@[simp] theorem clearRecord_bufLen (s : State) : (clearRecord s).bufLen = s.bufLen := rfl
@[simp] theorem clearRecord_txtLen (s : State) : (clearRecord s).txtLen = s.txtLen := rfl
@[simp] theorem clearRecord_payLen (s : State) : (clearRecord s).payLen = 0 := rfl
@[simp] theorem clearRecord_errinfo (s : State) : (clearRecord s).errinfo = s.errinfo := rfl
@[simp] theorem clearRecord_str0 (s : State) : (clearRecord s).str0 = StrCtl.reset := rfl
@[simp] theorem clearRecord_str1 (s : State) : (clearRecord s).str1 = StrCtl.reset := rfl
@[simp] theorem clearRecord_str2 (s : State) : (clearRecord s).str2 = StrCtl.reset := rfl
@[simp] theorem clearRecord_now0 (s : State) : (clearRecord s).now0 = s.now0 := rfl
@[simp] theorem clearRecord_now1 (s : State) : (clearRecord s).now1 = s.now1 := rfl
@[simp] theorem clearRecord_cfg (s : State) : (clearRecord s).cfg = s.cfg := rfl
@[simp] theorem clearRecord_recs (s : State) : (clearRecord s).recs = Vector.replicate 32 0 := rfl
@[simp] theorem clearRecord_mem (s : State) : (clearRecord s).mem = s.mem := rfl
@[simp] theorem clearRecord_eng (s : State) : (clearRecord s).eng = s.eng := rfl
@[simp] theorem clearRecord_rstN (s : State) : (clearRecord s).rstN = s.rstN := rfl
@[simp] theorem clearRecord_turns (s : State) : (clearRecord s).turns = s.turns := rfl
@[simp] theorem clearRecord_resp (s : State) : (clearRecord s).resp = s.resp := rfl
@[simp] theorem clearRecord_draws (s : State) : (clearRecord s).draws = s.draws := rfl

/-! ## `writeStrCtl` and `loadStr` -/

@[simp] theorem writeStrCtl_ctrl (k : StrReg) (c : StrCtl) (s : State) : (writeStrCtl k c s).ctrl = s.ctrl := by
  cases k <;> rfl
@[simp] theorem writeStrCtl_status (k : StrReg) (c : StrCtl) (s : State) : (writeStrCtl k c s).status = s.status := by
  cases k <;> rfl
@[simp] theorem writeStrCtl_inten (k : StrReg) (c : StrCtl) (s : State) : (writeStrCtl k c s).inten = s.inten := by
  cases k <;> rfl
@[simp] theorem writeStrCtl_start (k : StrReg) (c : StrCtl) (s : State) : (writeStrCtl k c s).start = s.start := by
  cases k <;> rfl
@[simp] theorem writeStrCtl_width (k : StrReg) (c : StrCtl) (s : State) : (writeStrCtl k c s).width = s.width := by
  cases k <;> rfl
@[simp] theorem writeStrCtl_value (k : StrReg) (c : StrCtl) (s : State) : (writeStrCtl k c s).value = s.value := by
  cases k <;> rfl
@[simp] theorem writeStrCtl_result (k : StrReg) (c : StrCtl) (s : State) : (writeStrCtl k c s).result = s.result := by
  cases k <;> rfl
@[simp] theorem writeStrCtl_bufLen (k : StrReg) (c : StrCtl) (s : State) : (writeStrCtl k c s).bufLen = s.bufLen := by
  cases k <;> rfl
@[simp] theorem writeStrCtl_txtLen (k : StrReg) (c : StrCtl) (s : State) : (writeStrCtl k c s).txtLen = s.txtLen := by
  cases k <;> rfl
@[simp] theorem writeStrCtl_payLen (k : StrReg) (c : StrCtl) (s : State) : (writeStrCtl k c s).payLen = s.payLen := by
  cases k <;> rfl
@[simp] theorem writeStrCtl_errinfo (k : StrReg) (c : StrCtl) (s : State) : (writeStrCtl k c s).errinfo = s.errinfo := by
  cases k <;> rfl
theorem writeStrCtl_str0 (k : StrReg) (c : StrCtl) (s : State) :
    (writeStrCtl k c s).str0 = if k = .str0 then c else s.str0 := by
  cases k <;> rfl
theorem writeStrCtl_str1 (k : StrReg) (c : StrCtl) (s : State) :
    (writeStrCtl k c s).str1 = if k = .str1 then c else s.str1 := by
  cases k <;> rfl
theorem writeStrCtl_str2 (k : StrReg) (c : StrCtl) (s : State) :
    (writeStrCtl k c s).str2 = if k = .str2 then c else s.str2 := by
  cases k <;> rfl
@[simp] theorem writeStrCtl_now0 (k : StrReg) (c : StrCtl) (s : State) : (writeStrCtl k c s).now0 = s.now0 := by
  cases k <;> rfl
@[simp] theorem writeStrCtl_now1 (k : StrReg) (c : StrCtl) (s : State) : (writeStrCtl k c s).now1 = s.now1 := by
  cases k <;> rfl
@[simp] theorem writeStrCtl_cfg (k : StrReg) (c : StrCtl) (s : State) : (writeStrCtl k c s).cfg = s.cfg := by
  cases k <;> rfl
@[simp] theorem writeStrCtl_recs (k : StrReg) (c : StrCtl) (s : State) : (writeStrCtl k c s).recs = s.recs := by
  cases k <;> rfl
@[simp] theorem writeStrCtl_mem (k : StrReg) (c : StrCtl) (s : State) : (writeStrCtl k c s).mem = s.mem := by
  cases k <;> rfl
@[simp] theorem writeStrCtl_eng (k : StrReg) (c : StrCtl) (s : State) : (writeStrCtl k c s).eng = s.eng := by
  cases k <;> rfl
@[simp] theorem writeStrCtl_rstN (k : StrReg) (c : StrCtl) (s : State) : (writeStrCtl k c s).rstN = s.rstN := by
  cases k <;> rfl
@[simp] theorem writeStrCtl_turns (k : StrReg) (c : StrCtl) (s : State) : (writeStrCtl k c s).turns = s.turns := by
  cases k <;> rfl
@[simp] theorem writeStrCtl_resp (k : StrReg) (c : StrCtl) (s : State) : (writeStrCtl k c s).resp = s.resp := by
  cases k <;> rfl
@[simp] theorem writeStrCtl_draws (k : StrReg) (c : StrCtl) (s : State) : (writeStrCtl k c s).draws = s.draws := by
  cases k <;> rfl
@[simp] theorem loadStr_ctrl (k : StrReg) (bs : List Byte) (s : State) : (loadStr k bs s).ctrl = s.ctrl := by
  cases k <;> rfl
@[simp] theorem loadStr_status (k : StrReg) (bs : List Byte) (s : State) : (loadStr k bs s).status = s.status := by
  cases k <;> rfl
@[simp] theorem loadStr_inten (k : StrReg) (bs : List Byte) (s : State) : (loadStr k bs s).inten = s.inten := by
  cases k <;> rfl
@[simp] theorem loadStr_start (k : StrReg) (bs : List Byte) (s : State) : (loadStr k bs s).start = s.start := by
  cases k <;> rfl
@[simp] theorem loadStr_width (k : StrReg) (bs : List Byte) (s : State) : (loadStr k bs s).width = s.width := by
  cases k <;> rfl
@[simp] theorem loadStr_value (k : StrReg) (bs : List Byte) (s : State) : (loadStr k bs s).value = s.value := by
  cases k <;> rfl
@[simp] theorem loadStr_result (k : StrReg) (bs : List Byte) (s : State) : (loadStr k bs s).result = s.result := by
  cases k <;> rfl
@[simp] theorem loadStr_bufLen (k : StrReg) (bs : List Byte) (s : State) : (loadStr k bs s).bufLen = s.bufLen := by
  cases k <;> rfl
@[simp] theorem loadStr_txtLen (k : StrReg) (bs : List Byte) (s : State) : (loadStr k bs s).txtLen = s.txtLen := by
  cases k <;> rfl
@[simp] theorem loadStr_payLen (k : StrReg) (bs : List Byte) (s : State) : (loadStr k bs s).payLen = s.payLen := by
  cases k <;> rfl
@[simp] theorem loadStr_errinfo (k : StrReg) (bs : List Byte) (s : State) : (loadStr k bs s).errinfo = s.errinfo := by
  cases k <;> rfl
theorem loadStr_str0 (k : StrReg) (bs : List Byte) (s : State) :
    (loadStr k bs s).str0 = if k = .str0 then ⟨bs.length, true⟩ else s.str0 := by
  cases k <;> rfl
theorem loadStr_str1 (k : StrReg) (bs : List Byte) (s : State) :
    (loadStr k bs s).str1 = if k = .str1 then ⟨bs.length, true⟩ else s.str1 := by
  cases k <;> rfl
theorem loadStr_str2 (k : StrReg) (bs : List Byte) (s : State) :
    (loadStr k bs s).str2 = if k = .str2 then ⟨bs.length, true⟩ else s.str2 := by
  cases k <;> rfl
@[simp] theorem loadStr_now0 (k : StrReg) (bs : List Byte) (s : State) : (loadStr k bs s).now0 = s.now0 := by
  cases k <;> rfl
@[simp] theorem loadStr_now1 (k : StrReg) (bs : List Byte) (s : State) : (loadStr k bs s).now1 = s.now1 := by
  cases k <;> rfl
@[simp] theorem loadStr_cfg (k : StrReg) (bs : List Byte) (s : State) : (loadStr k bs s).cfg = s.cfg := by
  cases k <;> rfl
@[simp] theorem loadStr_recs (k : StrReg) (bs : List Byte) (s : State) : (loadStr k bs s).recs = s.recs := by
  cases k <;> rfl
@[simp] theorem loadStr_mem (k : StrReg) (bs : List Byte) (s : State) : (loadStr k bs s).mem = writeBytes s.mem (strBase k) bs := by
  cases k <;> rfl
@[simp] theorem loadStr_eng (k : StrReg) (bs : List Byte) (s : State) : (loadStr k bs s).eng = s.eng := by
  cases k <;> rfl
@[simp] theorem loadStr_rstN (k : StrReg) (bs : List Byte) (s : State) : (loadStr k bs s).rstN = s.rstN := by
  cases k <;> rfl
@[simp] theorem loadStr_turns (k : StrReg) (bs : List Byte) (s : State) : (loadStr k bs s).turns = s.turns := by
  cases k <;> rfl
@[simp] theorem loadStr_resp (k : StrReg) (bs : List Byte) (s : State) : (loadStr k bs s).resp = s.resp := by
  cases k <;> rfl
@[simp] theorem loadStr_draws (k : StrReg) (bs : List Byte) (s : State) : (loadStr k bs s).draws = s.draws := by
  cases k <;> rfl

/-! ## `resetRegisters` -/

@[simp] theorem resetRegisters_ctrl (s : State) : (resetRegisters s).ctrl = State.reset.ctrl := rfl
@[simp] theorem resetRegisters_status (s : State) : (resetRegisters s).status = State.reset.status := rfl
@[simp] theorem resetRegisters_inten (s : State) : (resetRegisters s).inten = State.reset.inten := rfl
@[simp] theorem resetRegisters_start (s : State) : (resetRegisters s).start = State.reset.start := rfl
@[simp] theorem resetRegisters_width (s : State) : (resetRegisters s).width = State.reset.width := rfl
@[simp] theorem resetRegisters_value (s : State) : (resetRegisters s).value = State.reset.value := rfl
@[simp] theorem resetRegisters_result (s : State) : (resetRegisters s).result = State.reset.result := rfl
@[simp] theorem resetRegisters_bufLen (s : State) : (resetRegisters s).bufLen = State.reset.bufLen := rfl
@[simp] theorem resetRegisters_txtLen (s : State) : (resetRegisters s).txtLen = State.reset.txtLen := rfl
@[simp] theorem resetRegisters_payLen (s : State) : (resetRegisters s).payLen = State.reset.payLen := rfl
@[simp] theorem resetRegisters_errinfo (s : State) : (resetRegisters s).errinfo = State.reset.errinfo := rfl
@[simp] theorem resetRegisters_str0 (s : State) : (resetRegisters s).str0 = State.reset.str0 := rfl
@[simp] theorem resetRegisters_str1 (s : State) : (resetRegisters s).str1 = State.reset.str1 := rfl
@[simp] theorem resetRegisters_str2 (s : State) : (resetRegisters s).str2 = State.reset.str2 := rfl
@[simp] theorem resetRegisters_now0 (s : State) : (resetRegisters s).now0 = State.reset.now0 := rfl
@[simp] theorem resetRegisters_now1 (s : State) : (resetRegisters s).now1 = State.reset.now1 := rfl
@[simp] theorem resetRegisters_cfg (s : State) : (resetRegisters s).cfg = State.reset.cfg := rfl
@[simp] theorem resetRegisters_recs (s : State) : (resetRegisters s).recs = s.recs := rfl
@[simp] theorem resetRegisters_mem (s : State) : (resetRegisters s).mem = s.mem := rfl
@[simp] theorem resetRegisters_eng (s : State) : (resetRegisters s).eng = State.reset.eng := rfl
@[simp] theorem resetRegisters_rstN (s : State) : (resetRegisters s).rstN = s.rstN := rfl
@[simp] theorem resetRegisters_turns (s : State) : (resetRegisters s).turns = s.turns := rfl
@[simp] theorem resetRegisters_resp (s : State) : (resetRegisters s).resp = s.resp := rfl
@[simp] theorem resetRegisters_draws (s : State) : (resetRegisters s).draws = s.draws := rfl

/-! ## Registers read after a write -/

/-- `REC[j]` after `REC[i] <- v`. -/
theorem readRec_writeRec (i j : Fin 32) (v : Word) (s : State) :
    readRec (writeRec i v s) j = if i = j then v else readRec s j := by
  unfold readRec writeRec
  simp only [Vector.get_eq_getElem]
  rw [Vector.getElem_set]
  simp only [Fin.val_inj]

/-- `STRk_CTL` after a write of another or the same. -/
theorem strCtl_writeStrCtl (k j : StrReg) (c : StrCtl) (s : State) :
    strCtl (writeStrCtl k c s) j = if k = j then c else strCtl s j := by
  cases k <;> cases j <;> rfl

theorem strCtl_loadStr (k j : StrReg) (bs : List Byte) (s : State) :
    strCtl (loadStr k bs s) j = if k = j then ⟨bs.length, true⟩ else strCtl s j := by
  cases k <;> cases j <;> rfl

theorem readRec_clearRecord (s : State) (i : Fin 32) : readRec (clearRecord s) i = 0 := by
  simp [readRec, Vector.get_eq_getElem]

@[simp] theorem readRec_loadStr (k : StrReg) (bs : List Byte) (s : State) (i : Fin 32) :
    readRec (loadStr k bs s) i = readRec s i := by
  simp [readRec]

@[simp] theorem readRec_loadPay (bs : List Byte) (s : State) (i : Fin 32) :
    readRec (loadPay bs s) i = readRec s i := rfl

end Sys2Proof.Machine
end

