-- ==== Sys2Proof/Laws/Vocabulary.lean ====
section
/-! SUPPORT. The words Safety.lean states claims in, equal to the model's own functions: one lemma for each word. -/

namespace Sys2Proof.Machine

open Sys2Proof

/-! ## Completions -/

/-- A success is R301's three writes on the effect. -/
theorem succeed_eq_afterSuccess (s : State) : succeed s = afterSuccess s := rfl

theorem raise_eq_afterError (e : ECode) (info : Word) (s : State) : raise e info s = afterError e info s := rfl

theorem goAbsent_eq_afterAbsence (r : AReason) (s : State) : goAbsent r s = afterAbsence r s := rfl

theorem conclude_some {e : ECode} {info : Word} {f : Option (ECode × Word)} (h : f = some (e, info)) (t s : State) :
    conclude f t s = .next (afterError e info s) := by rw [h]; rfl

theorem conclude_none {f : Option (ECode × Word)} (h : f = none) (t s : State) :
    conclude f t s = .next (afterSuccess t) := by rw [h]; rfl

/-! ## A success changes STATUS and ENG alone -/

@[simp] theorem afterSuccess_ctrl (s : State) : (afterSuccess s).ctrl = s.ctrl := rfl
@[simp] theorem afterSuccess_inten (s : State) : (afterSuccess s).inten = s.inten := rfl
@[simp] theorem afterSuccess_start (s : State) : (afterSuccess s).start = s.start := rfl
@[simp] theorem afterSuccess_width (s : State) : (afterSuccess s).width = s.width := rfl
@[simp] theorem afterSuccess_value (s : State) : (afterSuccess s).value = s.value := rfl
@[simp] theorem afterSuccess_result (s : State) : (afterSuccess s).result = s.result := rfl
@[simp] theorem afterSuccess_bufLen (s : State) : (afterSuccess s).bufLen = s.bufLen := rfl
@[simp] theorem afterSuccess_txtLen (s : State) : (afterSuccess s).txtLen = s.txtLen := rfl
@[simp] theorem afterSuccess_payLen (s : State) : (afterSuccess s).payLen = s.payLen := rfl
@[simp] theorem afterSuccess_errinfo (s : State) : (afterSuccess s).errinfo = s.errinfo := rfl
@[simp] theorem afterSuccess_str0 (s : State) : (afterSuccess s).str0 = s.str0 := rfl
@[simp] theorem afterSuccess_str1 (s : State) : (afterSuccess s).str1 = s.str1 := rfl
@[simp] theorem afterSuccess_str2 (s : State) : (afterSuccess s).str2 = s.str2 := rfl
@[simp] theorem afterSuccess_now0 (s : State) : (afterSuccess s).now0 = s.now0 := rfl
@[simp] theorem afterSuccess_now1 (s : State) : (afterSuccess s).now1 = s.now1 := rfl
@[simp] theorem afterSuccess_cfg (s : State) : (afterSuccess s).cfg = s.cfg := rfl
@[simp] theorem afterSuccess_recs (s : State) : (afterSuccess s).recs = s.recs := rfl
@[simp] theorem afterSuccess_mem (s : State) : (afterSuccess s).mem = s.mem := rfl
@[simp] theorem afterSuccess_rstN (s : State) : (afterSuccess s).rstN = s.rstN := rfl
@[simp] theorem afterSuccess_turns (s : State) : (afterSuccess s).turns = s.turns := rfl
@[simp] theorem afterSuccess_resp (s : State) : (afterSuccess s).resp = s.resp := rfl
@[simp] theorem afterSuccess_draws (s : State) : (afterSuccess s).draws = s.draws := rfl
@[simp] theorem afterSuccess_eng (s : State) : (afterSuccess s).eng = engIdle := rfl

/-! ## The stream -/

theorem bitsNat_append (as : List Bool) (b : Bool) : bitsNat (as ++ [b]) = 2 * bitsNat as + b.toNat := by
  simp [bitsNat, List.foldl_append]

/-- R141's loop as the value of a bit list. -/
theorem natOfBits_eq (bit : Nat → Bool) (s w : Nat) :
    natOfBits bit s w = bitsNat ((List.range w).map fun i => bit (s + i)) := by
  induction w with
  | zero => rfl
  | succ w ih => rw [natOfBits, ih, List.range_succ, List.map_append, List.map_singleton, bitsNat_append]

theorem streamBit_eq (m : Memory) (k : Nat) : streamBit m k = bitRd m k := rfl

theorem getBits_eq_map (m : Memory) (s w : Nat) : getBits m s w = (List.range w).map fun i => bitRd m (s + i) :=
  List.ext_getElem (by simp) fun i h1 h2 => by simp [getElem_getBits]

theorem fieldNat_eq (m : Memory) (s w : Nat) : fieldNat m s w = bitsNat (getBits m s w) := by
  rw [fieldNat, natOfBits_eq, getBits_eq_map]; rfl

theorem fieldNat_lt (m : Memory) (s w : Nat) : fieldNat m s w < 2 ^ w := by
  rw [fieldNat_eq]; simpa using bitsNat_lt (getBits m s w)

theorem getUnsigned_eq_fieldNat (m : Memory) (s w : Nat) : getUnsigned m s w = BitVec.ofNat 32 (fieldNat m s w) := by
  rw [fieldNat_eq]; rfl

theorem getUnsigned_toNat_eq {w : Nat} (hw : w ≤ 32) (m : Memory) (s : Nat) :
    (getUnsigned m s w).toNat = fieldNat m s w := by rw [fieldNat_eq, getUnsigned_toNat hw]

/-- A field's value is decided by its stream bits. -/
theorem fieldNat_congr {m m' : Memory} {s s' w : Nat} (h : ∀ i < w, streamBit m (s + i) = streamBit m' (s' + i)) :
    fieldNat m s w = fieldNat m' s' w := by
  rw [fieldNat, fieldNat, natOfBits_eq, natOfBits_eq]
  congr 1
  exact List.map_congr_left fun i hi => h i (List.mem_range.1 hi)

/-- Sign extension gives the two's-complement value (00_scope.md R11, R142). -/
theorem toInt_signExtendFrom {w : Nat} (h1 : 1 ≤ w) (h2 : w ≤ 32) {v : Word} (hv : v.toNat < 2 ^ w) :
    (signExtendFrom w v).toInt = if v.toNat < 2 ^ (w - 1) then (v.toNat : Int) else (v.toNat : Int) - 2 ^ w := by
  have hw : (2 : Nat) ^ w = 2 * 2 ^ (w - 1) := by
    obtain ⟨k, rfl⟩ : ∃ k, w = k + 1 := ⟨w - 1, by omega⟩
    simp [Nat.pow_succ, Nat.mul_comm]
  have hle : (2 : Nat) ^ w ≤ 2 ^ 32 := Nat.pow_le_pow_right (by omega) h2
  have hb : v.getLsbD (w - 1) = decide (2 ^ (w - 1) ≤ v.toNat) := by
    rw [← BitVec.testBit_toNat, Nat.testBit_eq_decide_div_mod_eq]
    rcases Nat.lt_or_ge v.toNat (2 ^ (w - 1)) with h | h
    · rw [Nat.div_eq_of_lt h]; simp; omega
    · have : v.toNat / 2 ^ (w - 1) = 1 := by
        rw [Nat.div_eq_iff (by positivity)]; omega
      rw [this]; simp; omega
  unfold signExtendFrom
  rw [hb]
  by_cases h : 2 ^ (w - 1) ≤ v.toNat
  · rw [if_pos (by simpa using h), if_neg (by omega)]
    have hor : (v ||| BitVec.allOnes 32 <<< w).toNat = v.toNat + (2 ^ 32 - 2 ^ w) := by
      have hs : (BitVec.allOnes 32 <<< w).toNat = (2 ^ (32 - w) - 1) <<< w := by
        rw [BitVec.toNat_shiftLeft, BitVec.toNat_allOnes, Nat.shiftLeft_eq, Nat.shiftLeft_eq]
        have hp : (2 : Nat) ^ 32 = 2 ^ (32 - w) * 2 ^ w := by rw [← pow_add]; congr 1; omega
        obtain ⟨q, hq⟩ : ∃ q, (2 : Nat) ^ w = q + 1 := ⟨2 ^ w - 1, by have := Nat.pos_of_ne_zero (n := 2 ^ w) (by positivity); omega⟩
        rw [hp, Nat.mul_mod_mul_right]
        congr 1
        have h0 : 0 < 2 ^ (32 - w) := by positivity
        rw [show 2 ^ (32 - w) * 2 ^ w - 1 = (2 ^ (32 - w) - 1) + 2 ^ (32 - w) * (2 ^ w - 1) by
          rw [hq]
          have : 2 ^ (32 - w) * (q + 1) = 2 ^ (32 - w) * q + 2 ^ (32 - w) := by ring
          simp only [Nat.add_sub_cancel]
          omega]
        rw [Nat.add_mul_mod_self_left, Nat.mod_eq_of_lt (by omega)]
      rw [BitVec.toNat_or, hs, Nat.or_comm, ← Nat.shiftLeft_add_eq_or_of_lt hv, Nat.shiftLeft_eq]
      have hp : (2 : Nat) ^ 32 = 2 ^ (32 - w) * 2 ^ w := by rw [← pow_add]; congr 1; omega
      rw [Nat.sub_mul, one_mul, ← hp]
      omega
    rw [BitVec.toInt_eq_toNat_cond, hor, if_neg (by omega)]
    have hc : ((2 ^ w : Nat) : Int) = 2 ^ w := by push_cast; rfl
    omega
  · rw [if_neg (by simpa using h), if_pos (by omega), BitVec.toInt_eq_toNat_cond, if_pos (by omega)]

/-- GETS's value (R142). -/
theorem toInt_getSigned {w : Nat} (h1 : 1 ≤ w) (h2 : w ≤ 32) (m : Memory) (s : Nat) :
    (getSigned m s w).toInt =
      if fieldNat m s w < 2 ^ (w - 1) then (fieldNat m s w : Int) else (fieldNat m s w : Int) - 2 ^ w := by
  have h : (getUnsigned m s w).toNat < 2 ^ w := getUnsigned_lt h2 m s
  rw [getSigned, toInt_signExtendFrom h1 h2 h, getUnsigned_toNat_eq h2]

/-- The two's-complement value of a word's low bits (R237). -/
theorem bmod_of_low_bits {v : Word} {w f : Nat} (h1 : 1 ≤ w) (h2 : w ≤ 32) (hf : f = v.toNat % 2 ^ w) :
    (if f < 2 ^ (w - 1) then (f : Int) else (f : Int) - 2 ^ w) = (v.toInt).bmod (2 ^ w) := by
  have hw : (2 : Nat) ^ w = 2 * 2 ^ (w - 1) := by
    obtain ⟨k, rfl⟩ : ∃ k, w = k + 1 := ⟨w - 1, by omega⟩
    simp [Nat.pow_succ, Nat.mul_comm]
  have hv : (v.toInt).bmod (2 ^ w) = ((v.toNat : Int)).bmod (2 ^ w) := by
    rw [BitVec.toInt_eq_toNat_bmod, Int.bmod_bmod_of_dvd (Nat.pow_dvd_pow 2 h2)]
  have hc : (2 : Int) ^ w = ((2 ^ w : Nat) : Int) := by push_cast; rfl
  have hm : ((v.toNat : Int) % ((2 ^ w : Nat) : Int)) = ((v.toNat % 2 ^ w : Nat) : Int) := by push_cast; rfl
  have hpos : 0 < 2 ^ (w - 1) := Nat.pos_of_ne_zero (by simp)
  rw [hv, hf, Int.bmod_def, hc, hm]
  generalize v.toNat % 2 ^ w = f
  rw [hw]
  generalize 2 ^ (w - 1) = P at *
  split <;> split <;> omega

/-- Writing a signed field and reading it back gives a value that fits the field, negative or not (40_bitaccess.md
R151(b)). -/
theorem getSigned_setSigned_same {m : Memory} (h : Memory.wf m = true) (s : Nat) {w : Nat} (h1 : 1 ≤ w) (h2 : w ≤ 32)
    {v : Word} (hlo : -(2 ^ (w - 1)) ≤ v.toInt) (hhi : v.toInt < 2 ^ (w - 1)) :
    getSigned (setSigned m s w v) s w = v := by
  have hf : fieldNat (setSigned m s w v) s w = v.toNat % 2 ^ w := by
    rw [← getUnsigned_toNat_eq h2]
    exact getUnsigned_setUnsigned_same h s h2 v
  have hw : (2 : Nat) ^ w = 2 * 2 ^ (w - 1) := by rw [← pow_succ', Nat.sub_add_cancel h1]
  apply BitVec.eq_of_toInt_eq
  rw [toInt_getSigned h1 h2, bmod_of_low_bits h1 h2 hf]
  apply Int.bmod_eq_of_le <;> rw [hw] <;> push_cast <;> omega

/-! ## The alphabets -/

theorem isArmor_iff (c : Byte) : IsArmor c ↔ armorValid c = true := by
  simp [IsArmor, armorValid]

theorem armorNat_eq (c : Byte) : armorNat c = armorValue c := by
  have h : ∀ c : Byte, armorNat c = armorValue c := by decide +kernel
  exact h c

theorem armorLetter_eq (v : Nat) : armorLetter v = armorChar v := by
  unfold armorLetter armorChar
  congr 1
  split <;> split <;> omega

theorem textLetter_eq (v : Nat) : textLetter v = textChar v := rfl

theorem textNat_eq (c : Byte) : textNat c = textValue c := by
  have h : ∀ c : Byte, textNat c = textValue c := by decide +kernel
  exact h c

/-- A character with a table entry (R168, R172). -/
theorem inTextAlphabet_iff (c : Byte) : inTextAlphabet c = true ↔ textNat c ≠ 63 ∨ c = 0x3F := by
  have h : ∀ c : Byte, inTextAlphabet c = true ↔ textNat c ≠ 63 ∨ c = 0x3F := by decide +kernel
  exact h c

theorem checksumWord_eq (cs : Byte) : checksumWord cs = checksumResult cs := by
  have h : ∀ c : Byte, checksumWord c = checksumResult c := by decide +kernel
  exact h cs

/-! ## Texts -/

theorem readBytes_eq_map (m : Memory) (a n : Nat) : readBytes m a n = (List.range n).map fun j => readByte m (a + j) :=
  List.ext_getElem (by simp) fun i h1 h2 => by simp [getElem_readBytes]

theorem strText_eq (s : State) (k : StrReg) : strText s k = strContents s k := by
  cases k <;> simp [strText, strContents, strCtl, strBase, readBytes_eq_map]

theorem strPresent_eq (s : State) (k : StrReg) : strPresent s k = (strCtl s k).present := by cases k <;> rfl

theorem strOrUnknown_eq (s : State) (k : StrReg) : strOrUnknown s k = strSource s k := by
  rw [strOrUnknown, strSource, strPresent_eq, strText_eq]; rfl

theorem payText_eq (s : State) : payText s = payContents s := by
  rw [payText, payContents, readBytes_eq_map]; rfl

theorem sourceText_eq (s : State) (k : Sel) : sourceText s k = textSource s k := by
  cases k <;> simp [sourceText, textSource, strOrUnknown_eq, payText_eq]

/-- `decodeText` is what `DecodesTo` says (R170). -/
theorem decodesTo_decodeText (m : Memory) (s w : Nat) : DecodesTo m s (w / 6) (decodeText m s w) := by
  set y := (List.range (w / 6)).map fun i => textChar (getUnsigned m (s + 6 * i) 6).toNat with hy
  have hyl : y.length = w / 6 := by simp [hy]
  have hdef : decodeText m s w = trimRight y := rfl
  obtain ⟨k, hk⟩ : ∃ k, y = trimRight y ++ List.replicate k 0x20 := by
    have h := List.takeWhile_append_dropWhile (p := fun c : Byte => decide (c = 0x20)) (l := y.reverse)
    refine ⟨(y.reverse.takeWhile fun c => decide (c = 0x20)).length, ?_⟩
    have hrep : y.reverse.takeWhile (fun c => decide (c = 0x20)) =
        List.replicate (y.reverse.takeWhile fun c => decide (c = 0x20)).length 0x20 :=
      List.eq_replicate_of_mem fun b hb => by simpa using List.mem_takeWhile_imp hb
    conv_lhs => rw [← List.reverse_reverse y, ← h, List.reverse_append]
    rw [trimRight]
    congr 1
    conv_lhs => rw [hrep, List.reverse_replicate]
  have helem : ∀ i, i < w / 6 → textLetter (fieldNat m (s + 6 * i) 6) = y.getD i 0 := fun i hi => by
    rw [List.getD_eq_getElem _ _ (by omega)]
    simp [hy, textLetter_eq, getUnsigned_toNat_eq]
  rw [hdef]
  have hlen : (trimRight y).length + k = w / 6 := by
    have := congrArg List.length hk
    rw [List.length_append, List.length_replicate] at this
    omega
  refine ⟨by omega, fun i h => ?_, fun i h1 h2 => ?_, ?_⟩
  · have hg : y.getD i 0 = (trimRight y ++ List.replicate k 0x20).getD i 0 := by rw [← hk]
    rw [helem i (by omega), hg, List.getD_append _ _ _ _ h, List.getD_eq_getElem _ _ h]
  · have hg : y.getD i 0 = (trimRight y ++ List.replicate k 0x20).getD i 0 := by rw [← hk]
    rw [helem i h2, hg, List.getD_append_right _ _ _ _ h1, List.getD_eq_getElem _ _ (by simp; omega),
      List.getElem_replicate]
  · rw [trimRight, List.getLast?_reverse]
    intro hc
    have hd := List.head?_dropWhile_not (fun c : Byte => decide (c = 0x20)) y.reverse
    rw [hc] at hd
    simp at hd

end Sys2Proof.Machine
end

