-- ==== Sys2Proof/Laws/Outcome.lean ====
section
/-! SUPPORT. What every operation can do, said once: the three outcomes of 60_exceptions.md R301, and the state no
operation writes (30_encoding.md R111). -/

namespace Sys2Proof.Machine

open Sys2Proof

/-- The state no operation's effect writes. -/
structure ControlKept (s t : State) : Prop where
  ctrl : t.ctrl = s.ctrl
  status : t.status = s.status
  inten : t.inten = s.inten
  start : t.start = s.start
  width : t.width = s.width
  value : t.value = s.value
  errinfo : t.errinfo = s.errinfo
  now0 : t.now0 = s.now0
  now1 : t.now1 = s.now1
  cfg : t.cfg = s.cfg
  eng : t.eng = s.eng
  rstN : t.rstN = s.rstN
  turns : t.turns = s.turns
  resp : t.resp = s.resp
  draws : t.draws = s.draws

theorem ControlKept.refl (s : State) : ControlKept s s := by constructor <;> rfl

theorem ControlKept.trans {s t u : State} (h : ControlKept s t) (k : ControlKept t u) : ControlKept s u where
  ctrl := k.ctrl.trans h.ctrl
  status := k.status.trans h.status
  inten := k.inten.trans h.inten
  start := k.start.trans h.start
  width := k.width.trans h.width
  value := k.value.trans h.value
  errinfo := k.errinfo.trans h.errinfo
  now0 := k.now0.trans h.now0
  now1 := k.now1.trans h.now1
  cfg := k.cfg.trans h.cfg
  eng := k.eng.trans h.eng
  rstN := k.rstN.trans h.rstN
  turns := k.turns.trans h.turns
  resp := k.resp.trans h.resp
  draws := k.draws.trans h.draws

theorem controlKept_setResult (v : Word) (s : State) : ControlKept s (setResult v s) := by constructor <;> rfl

theorem controlKept_loadBuf (x : List Byte) (s : State) : ControlKept s (loadBuf x s) := by constructor <;> rfl

theorem controlKept_loadTxt (x : List Byte) (s : State) : ControlKept s (loadTxt x s) := by constructor <;> rfl

theorem controlKept_loadPay (x : List Byte) (s : State) : ControlKept s (loadPay x s) := by constructor <;> rfl

theorem controlKept_loadStr (k : StrReg) (x : List Byte) (s : State) : ControlKept s (loadStr k x s) := by
  cases k <;> constructor <;> rfl

theorem controlKept_storeText (k : Sel) (x : List Byte) (s : State) : ControlKept s (storeText k x s) := by
  cases k <;> constructor <;> rfl

theorem controlKept_mem (m : Memory) (s : State) : ControlKept s { s with mem := m } := by constructor <;> rfl

theorem controlKept_writeRec (i : Fin 32) (v : Word) (s : State) : ControlKept s (writeRec i v s) := by
  constructor <;> rfl

theorem controlKept_clearRecord (s : State) : ControlKept s (clearRecord s) := by constructor <;> rfl

theorem controlKept_backfill (g : Bool) (i : Fin 32) (v : Word) (s : State) : ControlKept s (backfill g i v s) := by
  cases g
  · exact .refl s
  · exact controlKept_writeRec i v s

theorem controlKept_backfillAll (s : State) : ControlKept s (backfillAll s) := by
  unfold backfillAll
  iterate 6 first | exact controlKept_backfill _ _ _ _ | refine .trans ?_ (controlKept_backfill _ _ _ _)

theorem controlKept_decodeField (u : Units) (s0 s : State) (d : Desc) : ControlKept s (decodeField u s0 s d) := by
  cases d
  · exact controlKept_writeRec _ _ s
  · exact controlKept_writeRec _ _ s
  · exact controlKept_writeRec _ _ s
  · exact controlKept_loadStr _ _ s
  · exact controlKept_loadPay _ s
  · exact controlKept_loadPay _ s

theorem controlKept_foldl_decodeField (u : Units) (s0 : State) (ds : List Desc) (s : State) :
    ControlKept s (ds.foldl (decodeField u s0) s) := by
  induction ds generalizing s with
  | nil => exact .refl s
  | cons d ds ih => exact (controlKept_decodeField u s0 s d).trans (ih _)

theorem controlKept_decodeRecord (u : Units) (lay : Layout) (id : Nat) (s : State) :
    ControlKept s (decodeRecord u lay id s) :=
  ((controlKept_clearRecord s).trans (controlKept_foldl_decodeField u s _ _)).trans (controlKept_setResult _ _)

/-- The errors a launched operation of the map can end in (60_exceptions.md R303, R304). -/
def LegalError (s : State) (e : ECode) : Prop :=
  e ≠ .none ∧ e ≠ .badOp ∧ (s.cfg.armorLax = true → e ≠ .armorChar)

theorem fieldCheck_legal {s : State} {e : ECode} {i : Word} (h : fieldCheck s = some (e, i)) : LegalError s e := by
  unfold fieldCheck rangeCheck at h
  split at h
  · cases h; simp [LegalError]
  · split at h
    · cases h; simp [LegalError]
    · cases h

theorem rangeCheck_legal {s : State} {e : ECode} {i : Word} (h : rangeCheck s = some (e, i)) : LegalError s e := by
  unfold rangeCheck at h
  split at h
  · cases h; simp [LegalError]
  · cases h

theorem armorCheck_legal {s : State} {j : Nat} {cs : List Byte} {e : ECode} {i : Word}
    (h : armorCheck s.cfg j cs = some (e, i)) : LegalError s e := by
  unfold armorCheck at h
  split at h
  · cases h
  · rename_i hl
    split at h
    · cases h; simp [LegalError, hl]
    · cases h

theorem unpackCheck_legal {s : State} {j : Nat} {cs : List Byte} {e : ECode} {i : Word}
    (h : unpackCheck s.cfg j cs = some (e, i)) : LegalError s e := by
  unfold unpackCheck at h
  split at h
  · cases h; simp [LegalError]
  · exact armorCheck_legal h

theorem textCapacityCheck_legal {k : Sel} {s : State} {e : ECode} {i : Word}
    (h : textCapacityCheck k s = some (e, i)) : LegalError s e := by
  unfold textCapacityCheck at h
  split at h
  · cases h
  all_goals
    split at h
    · cases h; simp [LegalError]
    · cases h

/-- The three outcomes of a launched operation (R301, R302, R316): success over an effect that keeps the control state,
one of its errors, or MSGDEC's absence. -/
inductive Ends (i : Instr) (s : State) : Host.Outcome State Fault Refusal → Prop
  | success (t : State) (h : ControlKept s t) : Ends i s (.next (afterSuccess t))
  | error (e : ECode) (info : Word) (h : LegalError s e) : Ends i s (.next (afterError e info s))
  | absence (r : AReason) (m : Nat) (u : Units) (h : r ≠ .none) (hi : i = .msgdec m u) : Ends i s (.next (afterAbsence r s))

theorem ends_conclude {i : Instr} {s t : State} {f : Option (ECode × Word)}
    (hf : ∀ e w, f = some (e, w) → LegalError s e) (ht : ControlKept s t) : Ends i s (conclude f t s) := by
  cases f with
  | none => exact .success t ht
  | some p => exact .error p.1 p.2 (hf p.1 p.2 rfl)

theorem ends_conclude_none {i : Instr} {s t : State} (ht : ControlKept s t) : Ends i s (conclude none t s) :=
  .success t ht

theorem absent_ne_none {m : Nat} {s : State} {r : AReason} (h : msgdecVerdict m s = .absent r) : r ≠ .none := by
  have hd : ∀ lay, decodeWith lay s = .absent r → r ≠ .none := fun lay hl => by
    unfold decodeWith at hl
    split at hl
    · cases hl; simp
    · split at hl
      · cases hl
      · cases hl; simp
  unfold msgdecVerdict at h
  split at h
  · cases h
  · split at h
    · cases h; simp
    · split at h
      · cases h; simp
      · exact hd _ h

/-- Every operation ends in one of the three outcomes (R301). -/
theorem exec_ends {i : Instr} (hi : i ≠ .srst) (s : State) : Ends i s (exec i s) := by
  cases i with
  | srst => exact absurd rfl hi
  | nop => exact .success s (.refl s)
  | getu => exact ends_conclude (fun _ _ => fieldCheck_legal) (controlKept_setResult _ s)
  | gets => exact ends_conclude (fun _ _ => fieldCheck_legal) (controlKept_setResult _ s)
  | setu => exact ends_conclude (fun _ _ => fieldCheck_legal) (controlKept_mem _ s)
  | sets => exact ends_conclude (fun _ _ => fieldCheck_legal) (controlKept_mem _ s)
  | bufclr =>
    refine ends_conclude (fun e w h => ?_) (by constructor <;> rfl)
    split at h
    · cases h; simp [LegalError]
    · cases h
  | a2v => exact ends_conclude (fun _ _ => armorCheck_legal) (controlKept_setResult _ s)
  | v2a => exact ends_conclude_none (controlKept_setResult _ s)
  | armdec => exact ends_conclude (fun _ _ => unpackCheck_legal) (controlKept_loadBuf _ s)
  | armenc => exact ends_conclude_none (controlKept_loadTxt _ s)
  | t2v => exact ends_conclude_none (controlKept_setResult _ s)
  | v2t => exact ends_conclude_none (controlKept_setResult _ s)
  | txtdec k =>
    refine ends_conclude (fun e w h => ?_) ((controlKept_storeText k _ s).trans (controlKept_setResult _ _))
    cases hr : rangeCheck s with
    | none => rw [hr] at h; exact textCapacityCheck_legal h
    | some p => rw [hr] at h; cases h; exact rangeCheck_legal hr
  | txtenc k =>
    exact ends_conclude (fun _ _ => rangeCheck_legal) ((controlKept_mem _ s).trans (controlKept_setResult _ _))
  | cksum => exact ends_conclude_none (controlKept_setResult _ s)
  | frame => exact ends_conclude_none ((controlKept_loadTxt _ s).trans (controlKept_setResult _ _))
  | unframe =>
    show Ends _ s (execUnframe s)
    unfold execUnframe
    simp only
    split
    · exact ends_conclude (fun _ _ => unpackCheck_legal) ((controlKept_loadBuf _ s).trans (controlKept_setResult _ _))
    · exact .error _ _ (by simp [LegalError])
  | msgdec m u =>
    show Ends _ s (execMsgdec m u s)
    unfold execMsgdec
    split
    · exact .error _ _ (by simp [LegalError])
    · rename_i r hv
      exact .absence r m u (absent_ne_none hv) rfl
    · exact .success _ (controlKept_decodeRecord _ _ _ s)
  | msgenc m u =>
    show Ends _ s (execMsgenc m u s)
    unfold execMsgenc
    split
    · exact .success _ (by constructor <;> rfl)
    · split
      · exact .error _ _ (by simp [LegalError])
      · exact .success _ (by constructor <;> rfl)
  | sog2kmh => exact ends_conclude_none (controlKept_setResult _ s)
  | kmh2sog => exact ends_conclude_none (controlKept_setResult _ s)
  | tsresolve =>
    refine ends_conclude_none ?_
    split
    · exact controlKept_setResult _ s
    · exact (controlKept_backfillAll s).trans (controlKept_setResult _ _)

/-- Every command answers a next state and leaves the schedule alone (60_exceptions.md R301). -/
theorem exec_next (i : Instr) (s : State) : ∃ t, exec i s = .next t ∧ t.turns = s.turns := by
  by_cases hi : i = .srst
  · subst hi; exact ⟨_, rfl, rfl⟩
  · have h := exec_ends hi s
    generalize exec i s = o at h
    cases h with
    | success t h => exact ⟨_, rfl, h.turns⟩
    | error => exact ⟨_, rfl, rfl⟩
    | absence => exact ⟨_, rfl, rfl⟩

/-- SRST's next state (70_reset_and_hazards.md R342). -/
theorem exec_srst (s : State) : exec .srst s = .next (resetRegisters s) := rfl

end Sys2Proof.Machine
end

