-- ==== Sys2Proof/Laws/Step.lean ====
section
/-! SUPPORT. What one step can do: one lemma for each kind of turn, and the engine's fetch from the command latch. -/

namespace Sys2Proof.Machine

open Sys2Proof

/-! ## Turns -/

theorem step_cons {s : State} {t : Turn} {ts : List Turn} (h : s.turns = t :: ts) :
    step s = takeTurn t { s with turns := ts } := by simp only [step, nextEvent, h]

theorem step_nil {s : State} (h : s.turns = []) : step s = if s.status.busy then engineComplete s else .next s := by
  simp only [step, nextEvent, h]

theorem withTurns_self {s : State} {ts : List Turn} (h : s.turns = ts) : { s with turns := ts } = s := by
  subst h; rfl

/-- The block answers an access in its aperture while RST_N is deasserted (20_memory.md R80, 70_reset_and_hazards.md
R340). -/
theorem step_answered {s : State} {a : Access} {ts : List Turn} (hr : s.rstN = true) (h : s.turns = .host a :: ts)
    (ho : a.offset < 0x2000) : step s = apertureAccess a { s with turns := ts } := by
  rw [step_cons h]
  simp [takeTurn, hostAccess, answers, ho, hr]

/-- Any other access leaves the block unchanged. -/
theorem step_unanswered {s : State} {a : Access} {ts : List Turn} (h : s.turns = .host a :: ts)
    (ho : s.rstN = false ∨ 0x2000 ≤ a.offset) : step s = .next { s with turns := ts, resp := .noDevice } := by
  rw [step_cons h]
  rcases ho with ho | ho <;> simp [takeTurn, hostAccess, answers, ho]

/-- An accepted or refused read in the aperture (20_memory.md R82, R83, R88). -/
theorem step_read {s : State} {w : Width} {off : Nat} {ts : List Turn} (hr : s.rstN = true)
    (h : s.turns = .host (.read w off) :: ts) (ho : off < 0x2000) :
    step s = .next (if accepted w off then hostRead w off { s with turns := ts }
      else { s with turns := ts, resp := .error 0 }) := by
  rw [step_answered hr h ho]
  simp only [apertureAccess]
  split <;> rfl

/-- An accepted or refused write in the aperture (20_memory.md R82, R83). -/
theorem step_write {s : State} {w : Width} {off : Nat} {v : Word} {ts : List Turn} (hr : s.rstN = true)
    (h : s.turns = .host (.write w off v) :: ts) (ho : off < 0x2000) :
    step s = if accepted w off then hostWrite w off v { s with turns := ts }
      else .next { s with turns := ts, resp := .error 0 } := by
  rw [step_answered hr h ho]
  simp only [apertureAccess]

/-! ## The command latch -/

theorem fieldOp_launchWord (o : BitVec 8) (m : BitVec 6) (k : BitVec 2) (u : BitVec 1) :
    fieldOp (launchWord o m k u) = o := by
  ext i hi
  simp only [fieldOp, launchWord, BitVec.getElem_extractLsb', BitVec.getLsbD_append]
  simp [hi]

theorem fieldMtype_launchWord (o : BitVec 8) (m : BitVec 6) (k : BitVec 2) (u : BitVec 1) :
    fieldMtype (launchWord o m k u) = m := by
  ext i hi
  simp only [fieldMtype, launchWord, BitVec.getElem_extractLsb', BitVec.getLsbD_append]
  simp [hi]

theorem fieldSel_launchWord (o : BitVec 8) (m : BitVec 6) (k : BitVec 2) (u : BitVec 1) :
    fieldSel (launchWord o m k u) = k := by
  ext i hi
  simp only [fieldSel, launchWord, BitVec.getElem_extractLsb', BitVec.getLsbD_append]
  have h : i = 0 ∨ i = 1 := by omega
  rcases h with rfl | rfl <;> simp

theorem fieldUnits_launchWord (o : BitVec 8) (m : BitVec 6) (k : BitVec 2) (u : BitVec 1) :
    fieldUnits (launchWord o m k u) = u := by
  ext i hi
  simp only [fieldUnits, launchWord, BitVec.getElem_extractLsb', BitVec.getLsbD_append]
  have h : i = 0 := by omega
  subst h; simp

theorem fieldSrst_launchWord (o : BitVec 8) (m : BitVec 6) (k : BitVec 2) (u : BitVec 1) :
    fieldSrst (launchWord o m k u) = false := by
  simp only [fieldSrst, launchWord, BitVec.getLsbD_append]
  simp

theorem fieldStart_launchWord (o : BitVec 8) (m : BitVec 6) (k : BitVec 2) (u : BitVec 1) :
    fieldStart (launchWord o m k u) = true := by
  simp only [fieldStart, launchWord, BitVec.getLsbD_append]
  simp

/-- The latch decodes by its four fields (30_encoding.md R111). -/
theorem latched_eq (s : State) : latched s = decodeOp s.ctrl.op s.ctrl.mtype s.ctrl.sel s.ctrl.units := by
  simp only [latched, decode, Ctrl.launchedWord, fieldSrst_launchWord, fieldStart_launchWord, fieldOp_launchWord,
    fieldMtype_launchWord, fieldSel_launchWord, fieldUnits_launchWord, if_true, Bool.false_eq_true, if_false]

theorem decode_of_launch {w : Word} (h0 : w.getLsbD 30 = false) (h1 : w.getLsbD 31 = true) :
    decode w = decodeOp (fieldOp w) (fieldMtype w) (fieldSel w) (fieldUnits w) := by
  simp only [decode, fieldSrst, fieldStart, h0, h1, if_true, Bool.false_eq_true, if_false]

theorem decode_of_srst {w : Word} (h0 : w.getLsbD 30 = true) : decode w = .ok .srst := by
  simp only [decode, fieldSrst, h0, if_true]

theorem decode_of_store {w : Word} (h0 : w.getLsbD 30 = false) (h1 : w.getLsbD 31 = false) :
    decode w = .error .noCommand := by
  simp only [decode, fieldSrst, fieldStart, h0, h1, Bool.false_eq_true, if_false]

theorem start_of_decode {w : Word} {i : Instr} (h : decode w = .ok i) (h0 : w.getLsbD 30 = false) :
    w.getLsbD 31 = true := by
  by_contra hc
  rw [decode_of_store h0 (by simpa using hc)] at h
  cases h

/-- A latch that holds a launching word's fields decodes to the word's command (10_state.md R34). -/
theorem latched_of_decode {s : State} {w : Word} {i : Instr} (h : decode w = .ok i) (h0 : w.getLsbD 30 = false)
    (hc : s.ctrl = ctrlOf w) : latched s = .ok i := by
  rw [latched_eq, hc, ← h, decode_of_launch h0 (start_of_decode h h0)]
  rfl

/-- A decoded operation is never SRST (R123: SRST is not decided by OP). -/
theorem decodeOp_ne_srst {o : BitVec 8} {m : BitVec 6} {k : BitVec 2} {u : BitVec 1} {i : Instr}
    (h : decodeOp o m k u = .ok i) : i ≠ .srst := by
  rintro rfl
  unfold decodeOp at h
  split at h <;> cases h

/-- A write to CTRL (30_encoding.md R110, R123). -/
theorem ctrlWrite_eq (v : Word) (s : State) :
    ctrlWrite v s =
      if v.getLsbD 30 then exec .srst s
      else if s.status.busy then .next (dropWrite s)
      else if v.getLsbD 31 then .next (launch v s)
      else .next { s with ctrl := Ctrl.ofWord v } := by
  cases h0 : v.getLsbD 30
  · have hd : ∀ i, decode v = .ok i → i ≠ .srst := fun i hi => by
      rw [decode_of_launch h0 (start_of_decode hi h0)] at hi
      exact decodeOp_ne_srst hi
    unfold ctrlWrite
    split
    · rename_i he
      exact absurd rfl (hd _ he)
    · rfl
  · unfold ctrlWrite
    rw [decode_of_srst h0]
    rfl

end Sys2Proof.Machine
end

