-- ==== Sys2Proof/Laws/Registers.lean ====
section
/-! SUPPORT. The words the registers read as, as numbers (10_state.md R31..R47), and the byte lanes of the arrays
(20_memory.md R84). -/

namespace Sys2Proof.Machine

open Sys2Proof

theorem toNat_append_eq {a b : Nat} (x : BitVec a) (y : BitVec b) : (x ++ y).toNat = x.toNat * 2 ^ b + y.toNat := by
  rw [BitVec.toNat_append, ← Nat.shiftLeft_add_eq_or_of_lt y.isLt, Nat.shiftLeft_eq]

/-- CTRL as read (R32). -/
theorem toNat_ctrl (c : Ctrl) :
    c.toWord.toNat = c.op.toNat + 256 * c.mtype.toNat + 65536 * c.sel.toNat + 1048576 * c.units.toNat := by
  have h1 := toNat_append_eq (0#11) c.units
  have h2 := toNat_append_eq (0#11 ++ c.units) (0#2)
  have h3 := toNat_append_eq (0#11 ++ c.units ++ 0#2) c.sel
  have h4 := toNat_append_eq (0#11 ++ c.units ++ 0#2 ++ c.sel) (0#2)
  have h5 := toNat_append_eq (0#11 ++ c.units ++ 0#2 ++ c.sel ++ 0#2) c.mtype
  have h6 : c.toWord.toNat = _ := toNat_append_eq (0#11 ++ c.units ++ 0#2 ++ c.sel ++ 0#2 ++ c.mtype) c.op
  rw [h6, h5, h4, h3, h2, h1]
  simp
  omega

/-- STATUS as read (R33). -/
theorem toNat_status (t : Status) :
    t.toWord.toNat = t.busy.toNat + 2 * t.done.toNat + 4 * t.err.toNat + 8 * t.absent.toNat + 16 * t.werr.toNat +
      256 * t.ecode.code.toNat + 4096 * t.areason.code.toNat := by
  have h1 := toNat_append_eq (0#16) t.areason.code
  have h2 := toNat_append_eq (0#16 ++ t.areason.code) t.ecode.code
  have h3 := toNat_append_eq (0#16 ++ t.areason.code ++ t.ecode.code) (0#3)
  have h4 := toNat_append_eq (0#16 ++ t.areason.code ++ t.ecode.code ++ 0#3) (BitVec.ofBool t.werr)
  have h5 := toNat_append_eq (0#16 ++ t.areason.code ++ t.ecode.code ++ 0#3 ++ BitVec.ofBool t.werr)
    (BitVec.ofBool t.absent)
  have h6 := toNat_append_eq (0#16 ++ t.areason.code ++ t.ecode.code ++ 0#3 ++ BitVec.ofBool t.werr ++
    BitVec.ofBool t.absent) (BitVec.ofBool t.err)
  have h7 := toNat_append_eq (0#16 ++ t.areason.code ++ t.ecode.code ++ 0#3 ++ BitVec.ofBool t.werr ++
    BitVec.ofBool t.absent ++ BitVec.ofBool t.err) (BitVec.ofBool t.done)
  have h8 : t.toWord.toNat = _ := toNat_append_eq (0#16 ++ t.areason.code ++ t.ecode.code ++ 0#3 ++
    BitVec.ofBool t.werr ++ BitVec.ofBool t.absent ++ BitVec.ofBool t.err ++ BitVec.ofBool t.done)
    (BitVec.ofBool t.busy)
  rw [h8, h7, h6, h5, h4, h3, h2, h1]
  simp
  omega

/-- INTEN as read (R35). -/
theorem toNat_inten (t : IntEn) : t.toWord.toNat = t.doneIe.toNat + 2 * t.errIe.toNat := by
  have h1 := toNat_append_eq (0#30) (BitVec.ofBool t.errIe)
  have h2 : t.toWord.toNat = _ := toNat_append_eq (0#30 ++ BitVec.ofBool t.errIe) (BitVec.ofBool t.doneIe)
  rw [h2, h1]
  simp
  omega

/-- CFG as read (R38). -/
theorem toNat_cfg (c : Cfg) :
    c.toWord.toNat = c.armorLax.toNat + 2 * c.armorMin.toNat + 4 * c.bsFix.toNat + 8 * c.airId13.toNat := by
  have h1 := toNat_append_eq (0#28) (BitVec.ofBool c.airId13)
  have h2 := toNat_append_eq (0#28 ++ BitVec.ofBool c.airId13) (BitVec.ofBool c.bsFix)
  have h3 := toNat_append_eq (0#28 ++ BitVec.ofBool c.airId13 ++ BitVec.ofBool c.bsFix) (BitVec.ofBool c.armorMin)
  have h4 : c.toWord.toNat = _ := toNat_append_eq (0#28 ++ BitVec.ofBool c.airId13 ++ BitVec.ofBool c.bsFix ++
    BitVec.ofBool c.armorMin) (BitVec.ofBool c.armorLax)
  rw [h4, h3, h2, h1]
  simp
  omega

/-- STRk_CTL as read (R43). -/
theorem toNat_strCtl (c : StrCtl) (h : c.len ≤ 32) : c.toWord.toNat = c.len + 256 * c.present.toNat := by
  have h1 := toNat_append_eq (0#23) (BitVec.ofBool c.present)
  have h2 := toNat_append_eq (0#23 ++ BitVec.ofBool c.present) (0#2)
  have h3 : c.toWord.toNat = _ := toNat_append_eq (0#23 ++ BitVec.ofBool c.present ++ 0#2) (BitVec.ofNat 6 c.len)
  rw [h3, h2, h1]
  simp
  omega

/-- NOW0 as read (R44). -/
theorem toNat_now0 (n : Now0) : n.toWord.toNat = n.year.toNat + 65536 * n.month.toNat + 16777216 * n.day.toNat := by
  have h1 := toNat_append_eq n.day n.month
  have h2 : n.toWord.toNat = _ := toNat_append_eq (n.day ++ n.month) n.year
  rw [h2, h1]
  simp
  omega

/-- NOW1 as read (R45). -/
theorem toNat_now1 (n : Now1) : n.toWord.toNat = n.hour.toNat + 256 * n.minute.toNat + 65536 * n.second.toNat := by
  have h1 := toNat_append_eq (0#8) n.second
  have h2 := toNat_append_eq (0#8 ++ n.second) n.minute
  have h3 : n.toWord.toNat = _ := toNat_append_eq (0#8 ++ n.second ++ n.minute) n.hour
  rw [h3, h2, h1]
  simp
  omega

/-- A 32-bit read of array bytes as a number (20_memory.md R84). -/
theorem toNat_arrayReadWord (s : State) (a : Nat) :
    (arrayReadWord s a).toNat = (arrayRead s a).toNat + 256 * (arrayRead s (a + 1)).toNat +
      65536 * (arrayRead s (a + 2)).toNat + 16777216 * (arrayRead s (a + 3)).toNat := by
  have h1 := toNat_append_eq (arrayRead s (a + 3)) (arrayRead s (a + 2))
  have h2 := toNat_append_eq (arrayRead s (a + 3) ++ arrayRead s (a + 2)) (arrayRead s (a + 1))
  have h3 : (arrayReadWord s a).toNat = _ :=
    toNat_append_eq (arrayRead s (a + 3) ++ arrayRead s (a + 2) ++ arrayRead s (a + 1)) (arrayRead s a)
  rw [h3, h2, h1]
  simp
  omega

/-- The lanes of a 32-bit read of array bytes (20_memory.md R84). -/
theorem lane_arrayReadWord (s : State) (a j : Nat) (hj : j < 4) :
    (arrayReadWord s a).extractLsb' (8 * j) 8 = arrayRead s (a + j) := by
  apply BitVec.eq_of_toNat_eq
  have h := toNat_arrayReadWord s a
  have h0 := (arrayRead s a).isLt
  have h1 := (arrayRead s (a + 1)).isLt
  have h2 := (arrayRead s (a + 2)).isLt
  have h3 := (arrayRead s (a + 3)).isLt
  rw [BitVec.extractLsb'_toNat, h, Nat.shiftRight_eq_div_pow]
  have hc : j = 0 ∨ j = 1 ∨ j = 2 ∨ j = 3 := by omega
  rcases hc with rfl | rfl | rfl | rfl <;> (try simp only [Nat.add_zero]) <;> omega

/-- The register offset `0x100 + 4 i` names REC[i] (R47). -/
theorem recIndex_offset (i : Fin 32) : recIndex (0x100 + 4 * i.val) = i := by
  apply Fin.ext
  simp [recIndex, Fin.ofNat]

/-! ## RST_N's release -/

theorem writeByte_append {m : Memory} {k : Nat} {b : Byte} (hm : ∀ c ∈ m, c.1 < k) (hb : b ≠ unlistedByte) :
    writeByte m k b = m ++ [(k, b)] := by
  induction m with
  | nil => simp [writeByte, hb]
  | cons c m ih =>
    have h1 := hm c (by simp)
    simp only [writeByte]
    rw [if_neg (by omega), if_neg (by omega), ih fun c hc => hm c (by simp [hc])]
    rfl

/-- The contents a release brings are canonical and lie in the arrays. -/
theorem wf_arraysFrom (cells : List Host.Cell) :
    Memory.wf (arraysFrom cells) = true ∧ Memory.inArrays (arraysFrom cells) = true := by
  have key : ∀ (cells : List Host.Cell) (acc : Memory), Memory.wf acc = true → Memory.inArrays acc = true →
      Memory.wf (cells.foldl (fun m c => if inArray c.1 then writeByte m c.1 c.2 else m) acc) = true ∧
        Memory.inArrays (cells.foldl (fun m c => if inArray c.1 then writeByte m c.1 c.2 else m) acc) = true := by
    intro cells
    induction cells with
    | nil => exact fun acc h1 h2 => ⟨h1, h2⟩
    | cons c cells ih =>
      intro acc h1 h2
      rw [List.foldl_cons]
      split
      · rename_i hc
        exact ih _ (wf_writeByte h1 _ _) (inArrays_writeByte h2 hc _)
      · exact ih _ h1 h2
  exact key cells [] rfl rfl

/-- Every canonical contents of the arrays can be brought by a release (10_state.md R59). -/
theorem arraysFrom_canonical {m : Memory} (h : Memory.wf m = true) (hin : Memory.inArrays m = true) :
    arraysFrom m = m := by
  have key : ∀ m acc : Memory, Memory.wf m = true → Memory.inArrays m = true → (∀ c ∈ acc, ∀ d ∈ m, c.1 < d.1) →
      m.foldl (fun m c => if inArray c.1 then writeByte m c.1 c.2 else m) acc = acc ++ m := by
    intro m
    induction m with
    | nil => simp
    | cons c m ih =>
      intro acc h hin hlt
      have hw := wf_cons.1 (show Memory.wf ((c.1, c.2) :: m) = true from h)
      have hc : inArray c.1 = true := (inArrays_iff.1 hin) c (by simp)
      rw [List.foldl_cons, hc, if_pos rfl, writeByte_append (fun d hd => hlt d hd c (by simp)) hw.1, ih]
      · simp
      · exact hw.2.2
      · exact inArrays_iff.2 fun d hd => (inArrays_iff.1 hin) d (by simp [hd])
      · intro x hx d hd
        rcases List.mem_append.1 hx with hx | hx
        · exact hlt x hx d (by simp [hd])
        · simp at hx; subst hx; exact hw.2.1 d hd
  have h0 := key m [] h hin (by simp)
  exact h0

end Sys2Proof.Machine
end

