-- ==== Sys2Proof/Laws/Invariant.lean ====
section
/-! SUPPORT. The part of the invariant that operations and writes could break (20_memory.md R97, 10_state.md R39..R43):
memory canonical and inside the arrays, every length within its capacity; kept by every effect. -/

namespace Sys2Proof.Machine

open Sys2Proof

/-- Memory canonical and inside the arrays, every length within its capacity. -/
structure DataInv (s : State) : Prop where
  memWf : Memory.wf s.mem = true
  memIn : Memory.inArrays s.mem = true
  bufLen : s.bufLen ≤ 1024
  txtLen : s.txtLen ≤ 2048
  payLen : s.payLen ≤ 2048
  str0Len : s.str0.len ≤ 32
  str1Len : s.str1.len ≤ 32
  str2Len : s.str2.len ≤ 32

theorem State.Inv.data {s : State} (h : s.Inv) : DataInv s :=
  ⟨h.memWf, h.memIn, h.bufLen, h.txtLen, h.payLen, h.str0Len, h.str1Len, h.str2Len⟩

/-- A new memory and new BUF_LEN, TXT_LEN, PAY_LEN within their bounds. -/
theorem DataInv.withMem {s : State} (h : DataInv s) {m : Memory} (h1 : Memory.wf m = true)
    (h2 : Memory.inArrays m = true) : DataInv { s with mem := m } :=
  ⟨h1, h2, h.bufLen, h.txtLen, h.payLen, h.str0Len, h.str1Len, h.str2Len⟩

theorem DataInv.setResult {s : State} (h : DataInv s) (v : Word) : DataInv (setResult v s) :=
  ⟨h.memWf, h.memIn, h.bufLen, h.txtLen, h.payLen, h.str0Len, h.str1Len, h.str2Len⟩

theorem DataInv.writeRec {s : State} (h : DataInv s) (i : Fin 32) (v : Word) : DataInv (writeRec i v s) :=
  ⟨h.memWf, h.memIn, h.bufLen, h.txtLen, h.payLen, h.str0Len, h.str1Len, h.str2Len⟩

/-! ## Where the arrays stand -/

theorem inArray_buf {i : Nat} (h : i < 1024) : inArray (bufBase + i) = true := by simp [inArray, bufBase]; omega

theorem inArray_txt {i : Nat} (h : i < 2048) : inArray (txtBase + i) = true := by simp [inArray, txtBase]; omega

theorem inArray_pay {i : Nat} (h : i < 2048) : inArray (payBase + i) = true := by simp [inArray, payBase]; omega

theorem inArray_str {k : StrReg} {i : Nat} (h : i < 32) : inArray (strBase k + i) = true := by
  have h0 : ∀ b, b = 0x180 ∨ b = 0x1A0 ∨ b = 0x1C0 → inArray (b + i) = true := fun b hb => by
    simp only [inArray, Bool.or_eq_true, Bool.and_eq_true, decide_eq_true_eq]
    omega
  cases k <;> exact h0 _ (by simp [strBase])

theorem DataInv.loadBuf {s : State} (h : DataInv s) {x : List Byte} (hx : x.length ≤ 1024) : DataInv (loadBuf x s) :=
  ⟨wf_writeBytes h.memWf _ _, inArrays_writeBytes h.memIn fun i hi => inArray_buf (by omega), hx, h.txtLen, h.payLen,
    h.str0Len, h.str1Len, h.str2Len⟩

theorem DataInv.loadTxt {s : State} (h : DataInv s) {x : List Byte} (hx : x.length ≤ 2048) : DataInv (loadTxt x s) :=
  ⟨wf_writeBytes h.memWf _ _, inArrays_writeBytes h.memIn fun i hi => inArray_txt (by omega), h.bufLen, hx, h.payLen,
    h.str0Len, h.str1Len, h.str2Len⟩

theorem DataInv.loadPay {s : State} (h : DataInv s) {x : List Byte} (hx : x.length ≤ 2048) : DataInv (loadPay x s) :=
  ⟨wf_writeBytes h.memWf _ _, inArrays_writeBytes h.memIn fun i hi => inArray_pay (by omega), h.bufLen, h.txtLen, hx,
    h.str0Len, h.str1Len, h.str2Len⟩

theorem DataInv.loadStr {s : State} (h : DataInv s) (k : StrReg) {x : List Byte} (hx : x.length ≤ 32) :
    DataInv (loadStr k x s) := by
  have h1 := wf_writeBytes h.memWf (strBase k) x
  have h2 : Memory.inArrays (writeBytes s.mem (strBase k) x) = true :=
    inArrays_writeBytes h.memIn fun i hi => inArray_str (by omega)
  cases k
  · exact ⟨h1, h2, h.bufLen, h.txtLen, h.payLen, hx, h.str1Len, h.str2Len⟩
  · exact ⟨h1, h2, h.bufLen, h.txtLen, h.payLen, h.str0Len, hx, h.str2Len⟩
  · exact ⟨h1, h2, h.bufLen, h.txtLen, h.payLen, h.str0Len, h.str1Len, hx⟩

/-! ## What the checks guarantee -/

theorem rangeCheck_none {s : State} (h : rangeCheck s = none) : startBit s + fieldWidth s ≤ 8 * s.bufLen := by
  unfold rangeCheck at h
  split at h
  · cases h
  · omega

theorem fieldCheck_none {s : State} (h : fieldCheck s = none) :
    1 ≤ fieldWidth s ∧ fieldWidth s ≤ 32 ∧ startBit s + fieldWidth s ≤ 8 * s.bufLen := by
  unfold fieldCheck at h
  split at h
  · cases h
  · rename_i hw
    exact ⟨by omega, by simp [Config.fieldMax] at hw; omega, rangeCheck_none h⟩

theorem unpackCheck_none {c : Cfg} {j : Nat} {cs : List Byte} (h : unpackCheck c j cs = none) :
    unpackedLen cs.length ≤ 1024 := by
  unfold unpackCheck at h
  split at h
  · cases h
  · simp [Config.bufBytes] at *; omega

theorem armorLen_le (mn : Bool) {l : Nat} (h : l ≤ 1024) : armorLen mn l ≤ 1368 := by
  unfold armorLen
  split <;> omega

/-! ## The codec -/

/-- What a descriptor must meet for its decode to stay within the capacities: a text fits a string register. -/
def Desc.textFits : Desc → Bool
  | .t _ w _ => w / 6 ≤ 32
  | .u .. => true
  | .s .. => true
  | .v .. => true
  | .bin _ => true
  | .vtxt _ => true

theorem textFits_layoutRom : ∀ lay : Layout, ∀ d ∈ layoutRom lay, d.textFits = true := by
  intro lay
  cases lay <;> decide

theorem DataInv.decodeField {s0 s : State} (h0 : s0.bufLen ≤ 1024) (h : DataInv s) (u : Units) {d : Desc}
    (hd : d.textFits = true) : DataInv (decodeField u s0 s d) := by
  cases d with
  | u off w t => exact h.writeRec _ _
  | s off w t => exact h.writeRec _ _
  | v off w t => exact h.writeRec _ _
  | t off w k =>
    refine h.loadStr k ?_
    have := length_decodeText_le s0.mem off w
    have hw : w / 6 ≤ 32 := by simpa [Desc.textFits] using hd
    omega
  | bin off => exact h.loadPay (by rw [length_readBytes]; omega)
  | vtxt off =>
    refine h.loadPay ?_
    have := length_decodeText_le s0.mem off (6 * ((8 * s0.bufLen - off) / 6))
    omega

theorem DataInv.foldl_decodeField {s0 : State} (h0 : s0.bufLen ≤ 1024) (u : Units) (ds : List Desc)
    (hd : ∀ d ∈ ds, d.textFits = true) {s : State} (h : DataInv s) : DataInv (ds.foldl (Machine.decodeField u s0) s) := by
  induction ds generalizing s with
  | nil => exact h
  | cons d ds ih =>
    exact ih (fun e he => hd e (List.mem_cons_of_mem _ he)) (h.decodeField h0 u (hd d (by simp)))

theorem DataInv.clearRecord {s : State} (h : DataInv s) : DataInv (clearRecord s) :=
  ⟨h.memWf, h.memIn, h.bufLen, h.txtLen, Nat.zero_le _, Nat.zero_le _, Nat.zero_le _, Nat.zero_le _⟩

theorem DataInv.decodeRecord {s : State} (h : DataInv s) (u : Units) (lay : Layout) (id : Nat) :
    DataInv (decodeRecord u lay id s) :=
  (DataInv.foldl_decodeField h.bufLen u _ (textFits_layoutRom lay) h.clearRecord).setResult _

/-- What a descriptor must meet for its encode to stay inside BUF. -/
def Desc.inBuf : Desc → Bool
  | .u off w _ => off + w ≤ 8192
  | .s off w _ => off + w ≤ 8192
  | .v off w _ => off + w ≤ 8192
  | .t off w _ => off + w ≤ 8192
  | .bin off => off ≤ 72
  | .vtxt off => off ≤ 72

theorem inBuf_layoutRom : ∀ lay : Layout, ∀ d ∈ layoutRom lay, d.inBuf = true := by
  intro lay
  cases lay <;> decide

theorem tailCap_le (lay : Layout) : tailCap lay ≤ 967 := by cases lay <;> decide

theorem wf_encodeField {m : Memory} (h : Memory.wf m = true) (u : Units) (lay : Layout) (s0 : State) (d : Desc) :
    Memory.wf (encodeField u lay s0 m d) = true := by
  cases d
  · exact wf_setUnsigned h _ _ _
  · exact wf_setUnsigned h _ _ _
  · exact wf_setUnsigned h _ _ _
  · exact wf_encodeText h _ _ _
  · exact wf_writeBytes h _ _
  · exact wf_encodeText h _ _ _

theorem inArrays_encodeField {m : Memory} (h : Memory.inArrays m = true) (u : Units) (lay : Layout) (s0 : State)
    {d : Desc} (hd : d.inBuf = true) : Memory.inArrays (encodeField u lay s0 m d) = true := by
  have hc := tailCap_le lay
  cases d with
  | u off w t => exact inArrays_setUnsigned h (by simpa [Desc.inBuf] using hd) _
  | s off w t => exact inArrays_setUnsigned h (by simpa [Desc.inBuf] using hd) _
  | v off w t => exact inArrays_setUnsigned h (by simpa [Desc.inBuf] using hd) _
  | t off w k =>
    have hw : off + w ≤ 8192 := by simpa [Desc.inBuf] using hd
    exact inArrays_encodeText h (by omega) _
  | bin off =>
    have hw : off ≤ 72 := by simpa [Desc.inBuf] using hd
    refine inArrays_writeBytes h fun i hi => ?_
    rw [length_readBytes] at hi
    rw [Nat.add_assoc]
    exact inArray_buf (by omega)
  | vtxt off =>
    have hw : off ≤ 72 := by simpa [Desc.inBuf] using hd
    exact inArrays_encodeText h (by omega) _

theorem foldl_encodeField {u : Units} {lay : Layout} {s0 : State} (ds : List Desc) (hd : ∀ d ∈ ds, d.inBuf = true)
    {m : Memory} (h1 : Memory.wf m = true) (h2 : Memory.inArrays m = true) :
    Memory.wf (ds.foldl (encodeField u lay s0) m) = true ∧ Memory.inArrays (ds.foldl (encodeField u lay s0) m) = true := by
  induction ds generalizing m with
  | nil => exact ⟨h1, h2⟩
  | cons d ds ih =>
    exact ih (fun e he => hd e (List.mem_cons_of_mem _ he)) (wf_encodeField h1 u lay s0 d)
      (inArrays_encodeField h2 u lay s0 (hd d (by simp)))

theorem encodedLen_le (n : Nat) (lay : Layout) : encodedLen n lay ≤ 731 := by
  cases lay <;> simp only [encodedLen, Config.capT6, Config.capT8, Config.capT12, Config.capT14] <;> omega

theorem DataInv.encodeRecord {s : State} (h : DataInv s) (m : Nat) (u : Units) (lay : Layout) :
    DataInv (encodeRecord m u lay s) := by
  have hz1 : Memory.wf (zeroBytes s.mem bufBase Config.bufBytes) = true := wf_zeroBytes h.memWf _ _
  have hz2 : Memory.inArrays (zeroBytes s.mem bufBase Config.bufBytes) = true := inArrays_zeroBytes h.memIn _ _
  have hf := foldl_encodeField (u := u) (lay := lay) (s0 := s) ((layoutRom lay).drop 1)
    (fun d hd => inBuf_layoutRom lay d (List.mem_of_mem_drop hd))
    (wf_setUnsigned hz1 0 6 (BitVec.ofNat 32 m)) (inArrays_setUnsigned hz2 (by omega) _)
  have hl := encodedLen_le s.payLen lay
  have hm : Memory.wf (encodedMemory m u lay s) = true ∧ Memory.inArrays (encodedMemory m u lay s) = true := hf
  generalize hmem : encodedMemory m u lay s = mem at hm
  rw [Machine.encodeRecord, hmem]
  exact ⟨hm.1, hm.2, by show encodedLen s.payLen lay ≤ 1024; omega, h.txtLen, h.payLen, h.str0Len, h.str1Len,
    h.str2Len⟩

theorem DataInv.backfill {s : State} (h : DataInv s) (g : Bool) (i : Fin 32) (v : Word) : DataInv (backfill g i v s) := by
  cases g
  · exact h
  · exact h.writeRec i v

/-! ## Every operation -/

theorem mul_div_le_mul_div {a b : Nat} (h : a ≤ b) : a / 6 ≤ b / 6 := Nat.div_le_div_right h

/-- The effect of a successful operation keeps the data invariant; an error or an absence changes no data. -/
theorem dataInv_conclude {s t : State} {f : Option (ECode × Word)} (hs : DataInv s) (ht : f = none → DataInv t)
    {t' : State} (h : conclude f t s = .next t') : DataInv t' := by
  cases f with
  | none =>
    cases h
    have := ht rfl
    exact ⟨this.memWf, this.memIn, this.bufLen, this.txtLen, this.payLen, this.str0Len, this.str1Len, this.str2Len⟩
  | some p =>
    cases h
    exact ⟨hs.memWf, hs.memIn, hs.bufLen, hs.txtLen, hs.payLen, hs.str0Len, hs.str1Len, hs.str2Len⟩

theorem dataInv_afterSuccess {s : State} (h : DataInv s) : DataInv (afterSuccess s) :=
  ⟨h.memWf, h.memIn, h.bufLen, h.txtLen, h.payLen, h.str0Len, h.str1Len, h.str2Len⟩

theorem dataInv_afterError {s : State} (h : DataInv s) (e : ECode) (w : Word) : DataInv (afterError e w s) :=
  ⟨h.memWf, h.memIn, h.bufLen, h.txtLen, h.payLen, h.str0Len, h.str1Len, h.str2Len⟩

theorem dataInv_afterAbsence {s : State} (h : DataInv s) (r : AReason) : DataInv (afterAbsence r s) :=
  ⟨h.memWf, h.memIn, h.bufLen, h.txtLen, h.payLen, h.str0Len, h.str1Len, h.str2Len⟩

theorem dataInv_resetRegisters {s : State} (h : DataInv s) : DataInv (resetRegisters s) :=
  ⟨h.memWf, h.memIn, Nat.zero_le _, Nat.zero_le _, Nat.zero_le _, Nat.zero_le _, Nat.zero_le _, Nat.zero_le _⟩

/-- Every operation keeps the data invariant (20_memory.md R97). -/
theorem dataInv_exec {i : Instr} {s t : State} (hs : DataInv s) (h : exec i s = .next t) : DataInv t := by
  have hb := hs.bufLen
  have hch : (txtContents s).length = s.txtLen := length_readBytes _ _ _
  have hbl : (bufContents s).length = s.bufLen := length_readBytes _ _ _
  cases i with
  | nop => cases h; exact dataInv_afterSuccess hs
  | getu =>
    change execGetu s = .next t at h
    unfold execGetu at h
    exact dataInv_conclude hs (fun _ => hs.setResult _) h
  | gets =>
    change execGets s = .next t at h
    unfold execGets at h
    exact dataInv_conclude hs (fun _ => hs.setResult _) h
  | setu =>
    change execSetu s = .next t at h
    unfold execSetu at h
    refine dataInv_conclude hs (fun hn => ?_) h
    have := fieldCheck_none hn
    exact hs.withMem (wf_setUnsigned hs.memWf _ _ _) (inArrays_setUnsigned hs.memIn (by omega) _)
  | sets =>
    change execSets s = .next t at h
    unfold execSets at h
    refine dataInv_conclude hs (fun hn => ?_) h
    have := fieldCheck_none hn
    exact hs.withMem (wf_setUnsigned hs.memWf _ _ _) (inArrays_setUnsigned hs.memIn (by omega) _)
  | bufclr =>
    change execBufclr s = .next t at h
    unfold execBufclr at h
    refine dataInv_conclude hs (fun hn => ?_) h
    have hle : s.value.toNat ≤ 1024 := by
      by_contra hc
      rw [if_pos (by simp [Config.bufBytes]; omega)] at hn
      cases hn
    exact ⟨wf_zeroBytes hs.memWf _ _, inArrays_zeroBytes hs.memIn _ _, hle, hs.txtLen, hs.payLen, hs.str0Len,
      hs.str1Len, hs.str2Len⟩
  | a2v =>
    change execA2v s = .next t at h
    unfold execA2v at h
    exact dataInv_conclude hs (fun _ => hs.setResult _) h
  | v2a =>
    change execV2a s = .next t at h
    unfold execV2a at h
    exact dataInv_conclude hs (fun _ => hs.setResult _) h
  | armdec =>
    change execArmdec s = .next t at h
    unfold execArmdec at h
    exact dataInv_conclude hs (fun hn => hs.loadBuf (by rw [length_decodeArmor]; exact unpackCheck_none hn)) h
  | armenc =>
    change execArmenc s = .next t at h
    unfold execArmenc at h
    refine dataInv_conclude hs (fun _ => hs.loadTxt ?_) h
    have := armorLen_le s.cfg.armorMin hb
    rw [length_encodeArmor, hbl]
    omega
  | t2v =>
    change execT2v s = .next t at h
    unfold execT2v at h
    exact dataInv_conclude hs (fun _ => hs.setResult _) h
  | v2t =>
    change execV2t s = .next t at h
    unfold execV2t at h
    exact dataInv_conclude hs (fun _ => hs.setResult _) h
  | txtdec k =>
    change execTxtdec k s = .next t at h
    unfold execTxtdec at h
    refine dataInv_conclude hs (fun hn => ?_) h
    have hl := length_decodeText_le s.mem (startBit s) (fieldWidth s)
    cases hr : rangeCheck s with
    | some p => rw [hr] at hn; cases hn
    | none =>
      rw [hr] at hn
      have hr' := rangeCheck_none hr
      have h32 : k ≠ .pay → fieldWidth s / 6 ≤ 32 := fun hk => by
        by_contra hc
        have hc' : fieldChars s > Config.strBytes := by simp [fieldChars, Config.strBytes]; omega
        cases k <;> first | exact hk rfl | simp [textCapacityCheck, hc'] at hn
      cases k with
      | str0 => exact (hs.loadStr .str0 (by have := h32 (by simp); omega)).setResult _
      | str1 => exact (hs.loadStr .str1 (by have := h32 (by simp); omega)).setResult _
      | str2 => exact (hs.loadStr .str2 (by have := h32 (by simp); omega)).setResult _
      | pay => exact (hs.loadPay (by omega)).setResult _
  | txtenc k =>
    change execTxtenc k s = .next t at h
    unfold execTxtenc at h
    refine dataInv_conclude hs (fun hn => ?_) h
    have := rangeCheck_none hn
    exact (hs.withMem (wf_encodeText hs.memWf _ _ _) (inArrays_encodeText hs.memIn (by omega) _)).setResult _
  | cksum =>
    change execCksum s = .next t at h
    unfold execCksum at h
    exact dataInv_conclude hs (fun _ => hs.setResult _) h
  | frame =>
    change execFrame s = .next t at h
    unfold execFrame at h
    refine dataInv_conclude hs (fun _ => (hs.loadTxt ?_).setResult _) h
    have := armorLen_le s.cfg.armorMin hb
    simp [sentence, frameBody, framePrefix, frameMid, hbl]
    omega
  | unframe =>
    change execUnframe s = .next t at h
    unfold execUnframe at h
    simp only at h
    split at h
    · refine dataInv_conclude hs (fun hn => (hs.loadBuf ?_).setResult _) h
      rw [length_decodeArmor]
      exact unpackCheck_none hn
    · cases h; exact dataInv_afterError hs _ _
  | msgdec m u =>
    change execMsgdec m u s = .next t at h
    unfold execMsgdec at h
    split at h
    · cases h; exact dataInv_afterError hs _ _
    · cases h; exact dataInv_afterAbsence hs _
    · cases h; exact dataInv_afterSuccess (hs.decodeRecord u _ _)
  | msgenc m u =>
    change execMsgenc m u s = .next t at h
    unfold execMsgenc at h
    split at h
    · cases h
      exact dataInv_afterSuccess ⟨hs.memWf, hs.memIn, Nat.zero_le _, hs.txtLen, hs.payLen, hs.str0Len, hs.str1Len,
        hs.str2Len⟩
    · split at h
      · cases h; exact dataInv_afterError hs _ _
      · cases h; exact dataInv_afterSuccess (hs.encodeRecord m u _)
  | sog2kmh =>
    change execSog2kmh s = .next t at h
    unfold execSog2kmh at h
    exact dataInv_conclude hs (fun _ => hs.setResult _) h
  | kmh2sog =>
    change execKmh2sog s = .next t at h
    unfold execKmh2sog at h
    exact dataInv_conclude hs (fun _ => hs.setResult _) h
  | tsresolve =>
    change execTsresolve s = .next t at h
    unfold execTsresolve at h
    refine dataInv_conclude hs (fun _ => ?_) h
    split
    · exact hs.setResult _
    · refine DataInv.setResult ?_ _
      unfold backfillAll
      iterate 6 refine DataInv.backfill ?_ _ _ _
      exact hs
  | srst => cases h; exact dataInv_resetRegisters hs

end Sys2Proof.Machine
end

