-- ==== Sys2Proof/Laws/Stream.lean ====
section
/-! SUPPORT. Bytes of BUF as stream bits: what the armor codec's groups read and what a byte store leaves in the stream;
and the checks that several operations share. -/

namespace Sys2Proof.Machine

open Sys2Proof

/-! ## Launch words and checks -/

/-- A launch word of OP decodes to the operation of that OP, whatever its other bits (30_encoding.md R123). -/
theorem decode_of_launchesOp {op : BitVec 8} {w : Word} {i : Instr} (h : LaunchesOp op w)
    (hd : ∀ a b c, decodeOp op a b c = .ok i) : decode w = .ok i := by
  obtain ⟨h1, h2, h3⟩ := h
  rw [decode_of_launch h2 h1, fieldOp, h3]
  exact hd _ _ _

theorem fieldCheck_badWidth {s : State} (h : s.width.toNat < 1 ∨ 32 < s.width.toNat) :
    fieldCheck s = some (.badWidth, s.width) := by
  unfold fieldCheck fieldWidth
  rw [if_pos]
  simpa [Config.fieldMax] using h

theorem fieldCheck_bitRange {s : State} (h1 : 1 ≤ s.width.toNat) (h2 : s.width.toNat ≤ 32)
    (h : 8 * s.bufLen < s.start.toNat + s.width.toNat) : fieldCheck s = some (.bitRange, s.start) := by
  unfold fieldCheck rangeCheck fieldWidth startBit
  rw [if_neg (by simp [Config.fieldMax]; omega), if_pos h]

theorem fieldCheck_ok {s : State} (h1 : 1 ≤ s.width.toNat) (h2 : s.width.toNat ≤ 32)
    (h : s.start.toNat + s.width.toNat ≤ 8 * s.bufLen) : fieldCheck s = none := by
  unfold fieldCheck rangeCheck fieldWidth startBit
  rw [if_neg (by simp [Config.fieldMax]; omega), if_neg (by omega)]

theorem rangeCheck_bitRange {s : State} (h : 8 * s.bufLen < s.start.toNat + s.width.toNat) :
    rangeCheck s = some (.bitRange, s.start) := if_pos h

theorem rangeCheck_ok {s : State} (h : s.start.toNat + s.width.toNat ≤ 8 * s.bufLen) : rangeCheck s = none :=
  if_neg (by unfold startBit fieldWidth; omega)

/-! ## Bytes as bits -/

theorem getElem_byteBits (bs : List Byte) (i j : Nat) (hi : i < bs.length) (hj : j < 8)
    (h : 8 * i + j < (byteBits bs).length) : (byteBits bs)[8 * i + j] = bs[i].getLsbD (7 - j) := by
  have hb : byteBits bs = (bs.map BitVec.toNat).flatMap (natBits 8) := by rw [byteBits, List.flatMap_map]
  have h' : 8 * i + j < ((bs.map BitVec.toNat).flatMap (natBits 8)).length := by rw [← hb]; exact h
  have hg := getElem_flatMap_natBits 8 (bs.map BitVec.toNat) i j (by simpa using hi) hj h'
  simp only [hb]
  rw [hg, List.getElem_map, BitVec.testBit_toNat]

/-- Stream bit `k` of a BUF that holds the bytes `bs` from index 0 on. -/
theorem bitRd_of_bytes {m : Memory} {bs : List Byte} (hm : ∀ i (h : i < bs.length), readByte m (bufBase + i) = bs[i])
    {k : Nat} (hk : k < 8 * bs.length) : bitRd m k = (byteBits bs).getD k false := by
  have h1 : k / 8 < bs.length := by omega
  have h2 : 8 * (k / 8) + k % 8 = k := by omega
  rw [List.getD_eq_getElem _ _ (by simpa using hk), bitRd, hm _ h1]
  have h3 := getElem_byteBits bs (k / 8) (k % 8) h1 (by omega) (by rw [h2]; simpa using hk)
  simp only [h2] at h3
  exact h3.symm

/-- The stream after bytes are stored from BUF[0] on. -/
theorem bitRd_writeBytes_buf {m : Memory} (h : Memory.wf m = true) (bs : List Byte) {k : Nat} (hk : k < 8 * bs.length) :
    bitRd (writeBytes m bufBase bs) k = (byteBits bs).getD k false := by
  refine bitRd_of_bytes (fun i hi => ?_) hk
  rw [readByte_writeBytes h, if_pos (by omega), Nat.add_sub_cancel_left, List.getD_eq_getElem _ _ hi]

/-- The bits of BUF's valid bytes. -/
theorem getD_byteBits_bufContents (s : State) (k : Nat) :
    (byteBits (bufContents s)).getD k false = if k < 8 * s.bufLen then bitRd s.mem k else false := by
  have hl : (bufContents s).length = s.bufLen := length_readBytes _ _ _
  split
  · rename_i hk
    refine (bitRd_of_bytes (fun i hi => ?_) (by rw [hl]; exact hk)).symm
    exact (getElem_readBytes s.mem bufBase s.bufLen i hi).symm
  · rename_i hk
    rw [List.getD_eq_default]
    rw [length_byteBits, hl]
    omega

/-! ## Groups, bit by bit -/

theorem take_pad_eq_map (k : Nat) (bs : List Bool) :
    (bs ++ List.replicate k false).take k = (List.range k).map fun j => bs.getD j false := by
  refine List.ext_getElem (by simp) fun i h1 h2 => ?_
  have hi : i < k := by simpa using h2
  simp only [List.getElem_take, List.getElem_map, List.getElem_range]
  rcases Nat.lt_or_ge i bs.length with h | h
  · rw [List.getElem_append_left h, List.getD_eq_getElem _ _ h]
  · rw [List.getElem_append_right h, List.getElem_replicate, List.getD_eq_default _ _ h]

/-- Group `i` is the value of bits `k i .. k i + k - 1`, zeros standing past the end (41_armor_text.md R163, R164). -/
theorem getElem_groups (k n : Nat) (bs : List Bool) (i : Nat) (h : i < (groups k n bs).length) :
    (groups k n bs)[i] = natOfBits (fun b => bs.getD b false) (k * i) k := by
  induction n generalizing bs i with
  | zero => simp [groups] at h
  | succ n ih =>
    cases i with
    | zero =>
      simp only [groups, List.getElem_cons_zero, take_pad_eq_map, natOfBits_eq, Nat.mul_zero, Nat.zero_add]
    | succ i =>
      simp only [groups, List.getElem_cons_succ]
      rw [ih _ _ (by simpa [groups] using h), natOfBits_eq, natOfBits_eq]
      congr 1
      refine List.map_congr_left fun j _ => ?_
      rw [List.getD_eq_getElem?_getD, List.getElem?_drop, List.getD_eq_getElem?_getD]
      congr 2
      rw [Nat.mul_succ]
      omega

/-- Character `j` of the packed text of BUF (41_armor_text.md R164). -/
theorem getElem_encodeArmor_buf (mn : Bool) (s : State) (j : Nat) (h : j < (encodeArmor mn (bufContents s)).length) :
    (encodeArmor mn (bufContents s))[j] = armorLetter (paddedFieldNat s.mem s.bufLen (6 * j) 6) := by
  simp only [encodeArmor, List.getElem_map, armorLetter_eq]
  congr 1
  rw [getElem_groups, paddedFieldNat]
  congr 1
  funext b
  exact getD_byteBits_bufContents s b

/-- The bits of the unpacked bytes: the characters' values, then zeros (41_armor_text.md R163). -/
theorem byteBits_decodeArmor (cs : List Byte) :
    byteBits (decodeArmor cs) = (cs.map armorValue).flatMap (natBits 6) ++
      List.replicate (8 * unpackedLen cs.length - 6 * cs.length) false := by
  have hv : ∀ v ∈ groups 8 (unpackedLen cs.length) (cs.flatMap fun c => natBits 6 (armorValue c)), v < 2 ^ 8 :=
    groups_lt _ _ _
  have h1 : byteBits (decodeArmor cs) =
      (groups 8 (unpackedLen cs.length) (cs.flatMap fun c => natBits 6 (armorValue c))).flatMap (natBits 8) := by
    rw [byteBits, decodeArmor, List.flatMap_map]
    refine List.flatMap_congr fun v hv' => ?_
    rw [BitVec.toNat_ofNat, Nat.mod_eq_of_lt (hv v hv')]
  have h2 : (cs.flatMap fun c => natBits 6 (armorValue c)) = (cs.map armorValue).flatMap (natBits 6) := by
    rw [List.flatMap_map]
  have hl := length_flatMap_natBits 6 (cs.map armorValue)
  rw [List.length_map] at hl
  rw [h1, groups_flatMap, h2, hl, List.take_of_length_le]
  rw [hl]
  unfold unpackedLen
  omega

/-- The stream after the characters `cs` are unpacked into BUF (41_armor_text.md R163, R177). -/
theorem fieldNat_unpacked {m : Memory} (h : Memory.wf m = true) (cs : List Byte) (j : Nat) (hj : j < cs.length) :
    fieldNat (writeBytes m bufBase (decodeArmor cs)) (6 * j) 6 = armorNat cs[j] := by
  have hl := length_flatMap_natBits 6 (cs.map armorValue)
  rw [List.length_map] at hl
  have hu : 6 * cs.length ≤ 8 * unpackedLen cs.length := by unfold unpackedLen; omega
  have hs := getUnsigned_of_sextets (m := writeBytes m bufBase (decodeArmor cs)) (s := 0) (vs := cs.map armorValue)
    (by simpa using fun c _ => armorValue_lt c) (fun i hi => by
      rw [Nat.zero_add, bitRd_writeBytes_buf h _ (by rw [length_decodeArmor]; omega), byteBits_decodeArmor,
        List.getD_append _ _ _ _ hi, List.getD_eq_getElem _ _ hi]) j (by simpa using hj)
  rw [← getUnsigned_toNat_eq (by omega), armorNat_eq]
  simpa using hs

theorem streamBit_unpacked {m : Memory} (h : Memory.wf m = true) (cs : List Byte) (k : Nat) (h1 : 6 * cs.length ≤ k)
    (h2 : k < 8 * unpackedLen cs.length) : streamBit (writeBytes m bufBase (decodeArmor cs)) k = false := by
  have hl := length_flatMap_natBits 6 (cs.map armorValue)
  rw [List.length_map] at hl
  rw [streamBit_eq, bitRd_writeBytes_buf h _ (by rw [length_decodeArmor]; exact h2), byteBits_decodeArmor,
    List.getD_append_right _ _ _ _ (by omega), List.getD_eq_getElem _ _ (by rw [List.length_replicate, hl]; omega), List.getElem_replicate]

theorem bytesKept_writeBytes {m : Memory} (h : Memory.wf m = true) (a : Nat) (bs : List Byte) {n : Nat}
    (hn : n = bs.length) : BytesKept m (writeBytes m a bs) a n := fun x hx => by
  rw [readByte_writeBytes h, if_neg (by omega)]

theorem readByte_writeBytes_at {m : Memory} (h : Memory.wf m = true) (a : Nat) (bs : List Byte) (j : Nat)
    (hj : j < bs.length) : readByte (writeBytes m a bs) (a + j) = bs[j] := by
  rw [readByte_writeBytes h, if_pos (by omega), Nat.add_sub_cancel_left, List.getD_eq_getElem _ _ hj]

/-- A field whose stream bits are known. -/
theorem fieldNat_of_bits {m : Memory} {off : Nat} {bs : List Bool}
    (h : ∀ i (hi : i < bs.length), bitRd m (off + i) = bs[i]) : fieldNat m off bs.length = bitsNat bs := by
  rw [fieldNat_eq, getBits_eq_of_bitRd rfl h]

/-- A character of a fitted text has the value of the text's own character there, or of a space (41_armor_text.md
R171). -/
theorem textValue_fitText {n : Nat} {x : List Byte} {i : Nat} (h : i < (fitText n x).length) :
    textValue (fitText n x)[i] = textNat (x.getD i 0x20) := by
  rw [textNat_eq]
  unfold fitText
  split
  · rw [List.getElem_take, List.getElem_map, textValue_upcase, List.getD_eq_getElem]
  · rcases Nat.lt_or_ge i x.length with h | h
    · rw [List.getElem_append_left (by simpa using h), List.getElem_map, textValue_upcase, List.getD_eq_getElem _ _ h]
    · rw [List.getElem_append_right (by simpa using h), List.getElem_replicate, List.getD_eq_default _ _ h]

/-- A stream that holds a text's bits holds the text, truncated or padded (41_armor_text.md R171). -/
theorem holdsText_of_bits {m : Memory} {off n : Nat} {x : List Byte}
    (h : ∀ i (hi : i < (textBits n x).length), bitRd m (off + i) = (textBits n x)[i]) : HoldsText m off n x := by
  intro i hi
  have hv : ∀ v ∈ (fitText n x).map textValue, v < 64 := by
    intro v hv; obtain ⟨c, -, rfl⟩ := List.mem_map.1 hv; exact textValue_lt c
  rw [← getUnsigned_toNat_eq (by omega), getUnsigned_of_sextets hv h i (by simpa using hi), List.getElem_map,
    textValue_fitText]

/-- A text field just encoded holds its text, truncated or padded (41_armor_text.md R171). -/
theorem holdsText_encodeText {m : Memory} (hwf : Memory.wf m = true) (s w : Nat) (x : List Byte) :
    HoldsText (encodeText m s w x) s (w / 6) x := by
  refine holdsText_of_bits fun i hi => ?_
  rw [encodeText_eq_setBits, bitRd_setBits hwf, if_pos (by omega), Nat.add_sub_cancel_left]
  exact List.getD_eq_getElem _ _ hi

/-- What a held text decodes to when its characters all have table entries (41_armor_text.md R172). -/
theorem decoded_of_holdsText {m : Memory} {s n : Nat} {x y : List Byte} (hd : DecodesTo m s n y)
    (hh : HoldsText m s n x) (ha : ∀ c ∈ x, textNat c ≠ 63 ∨ c = 0x3F) : y = trimRight ((x.take n).map upcase) := by
  rw [← trimRight_fitText (fun c hc => (inTextAlphabet_iff c).2 (ha c hc))]
  obtain ⟨z, hz⟩ : ∃ z, z = (fitText n x).map fun c => textChar (textValue c) := ⟨_, rfl⟩
  rw [← hz]
  have hl : z.length = n := by simp [hz]
  have hchar : ∀ i (h : i < n), textLetter (fieldNat m (s + 6 * i) 6) = z[i]'(by omega) := fun i h => by
    simp only [hz]
    rw [hh i h, textLetter_eq, List.getElem_map, textValue_fitText]
  obtain ⟨h1, h2, h3, h4⟩ := hd
  have hy : z = y ++ List.replicate (n - y.length) 0x20 := by
    refine List.ext_getElem (by simp [hl]; omega) fun i a b => ?_
    rw [← hchar i (by omega)]
    rcases Nat.lt_or_ge i y.length with h | h
    · rw [List.getElem_append_left h, h2 i h]
    · rw [List.getElem_append_right h, List.getElem_replicate, h3 i h (by omega)]
  rw [hy, trimRight_append_spaces, trimRight_of_last_ne h4]

/-- ERRINFO of ARMOR_CHAR as a number (60_exceptions.md R305). -/
theorem armorCharInfo_eq (c : Byte) (j : Nat) (hj : j < 65536) :
    armorCharInfo c j = BitVec.ofNat 32 (c.toNat * 65536 + j) := by
  apply BitVec.eq_of_toNat_eq
  have hc := c.isLt
  unfold armorCharInfo
  have h1 : (c.setWidth 32 <<< 16 : BitVec 32).toNat = c.toNat <<< 16 := by
    rw [BitVec.toNat_shiftLeft, BitVec.toNat_setWidth, Nat.shiftLeft_eq, Nat.shiftLeft_eq]
    omega
  rw [BitVec.toNat_or, h1, BitVec.toNat_ofNat, BitVec.toNat_ofNat, Nat.mod_eq_of_lt (a := j) (by omega),
    ← Nat.shiftLeft_add_eq_or_of_lt (b := j) (i := 16) (by omega), Nat.shiftLeft_eq]
  omega

/-- The first invalid character of a text is the least index that fails (41_armor_text.md R177). -/
theorem firstInvalid_eq {cs : List Byte} {j b : Nat} (hj : j < cs.length) (h : armorValid cs[j] = false)
    (hb : ∀ i (hi : i < j), armorValid (cs[i]'(by omega)) = true) : firstInvalid b cs = some (b + j, cs[j]) := by
  induction cs generalizing j b with
  | nil => simp at hj
  | cons c cs ih =>
    cases j with
    | zero =>
      have h0 : armorValid c = false := by simpa using h
      simp [firstInvalid, h0]
    | succ j =>
      have hc : armorValid c = true := hb 0 (by omega)
      have h1 := ih (j := j) (b := b + 1) (by simpa using hj) (by simpa using h)
        (fun i hi => by simpa using hb (i + 1) (by omega))
      simp only [firstInvalid, hc, if_true, h1]
      simp
      omega

theorem armorCheck_error {c : Cfg} {b : Nat} {cs : List Byte} {j : Nat} (hl : c.armorLax = false) (hj : j < cs.length)
    (h : armorValid cs[j] = false) (hb : ∀ i (hi : i < j), armorValid (cs[i]'(by omega)) = true) :
    armorCheck c b cs = some (.armorChar, armorCharInfo cs[j] (b + j)) := by
  simp only [armorCheck, hl, Bool.false_eq_true, if_false, firstInvalid_eq hj h hb]

theorem armorCheck_ok {c : Cfg} {b : Nat} {cs : List Byte}
    (h : c.armorLax = true ∨ ∀ x ∈ cs, armorValid x = true) : armorCheck c b cs = none := by
  unfold armorCheck
  split
  · rfl
  · rename_i hl
    rw [firstInvalid_eq_none (h.resolve_left hl)]

end Sys2Proof.Machine
end

