-- ==== Sys2Proof/Laws/ChecksumFrame.lean ====
section
/-! SUPPORT. Laws of the checksum and the framer (42_checksum_frame.md R200..R207). -/

namespace Sys2Proof.Machine

open Sys2Proof

/-! ## The checksum -/

/-- The scan is the XOR of the bytes before the first `*` (R200). -/
theorem xorToStar_eq (acc : Byte) (x : List Byte) :
    xorToStar acc x = (x.takeWhile fun c => c ≠ 0x2A).foldl (· ^^^ ·) acc := by
  induction x generalizing acc with
  | nil => rfl
  | cons c x ih =>
    by_cases hc : c = 0x2A
    · rw [xorToStar, if_pos hc, List.takeWhile_cons_of_neg (by simpa using hc), List.foldl_nil]
    · rw [xorToStar, if_neg hc, ih, List.takeWhile_cons_of_pos (by simpa using hc), List.foldl_cons]

/-- R200's XOR over TXT as a fold over its bytes. -/
theorem xorText_eq (m : Memory) (i n : Nat) : xorText m i n = (readBytes m (txtBase + i) n).foldl (· ^^^ ·) 0 := by
  induction n with
  | zero => rfl
  | succ n ih =>
    have h : readBytes m (txtBase + i) (n + 1) = readBytes m (txtBase + i) n ++ [txtByte m (i + n)] := by
      rw [readBytes_eq_map, List.range_succ, List.map_append, ← readBytes_eq_map]
      simp only [List.map_cons, List.map_nil, txtByte]
      rw [show txtBase + i + n = 0x800 + (i + n) by simp only [txtBase]; omega]
    rw [xorText, ih, h, List.foldl_append]
    rfl

/-- Where the scan ends: the first `*`, or the end (R200). -/
theorem scan_end (x : List Byte) :
    ∃ e ≤ x.length, (x.takeWhile fun c => decide (c ≠ 0x2A)) = x.take e ∧ (∀ j (h : j < x.length), j < e → x[j] ≠ 0x2A) ∧
      (e = x.length ∨ ∃ h : e < x.length, x[e] = 0x2A) := by
  induction x with
  | nil => exact ⟨0, le_rfl, rfl, by simp, Or.inl rfl⟩
  | cons c x ih =>
    by_cases hc : c = 0x2A
    · exact ⟨0, by simp, List.takeWhile_cons_of_neg (by simpa using hc), by simp, Or.inr ⟨by simp, hc⟩⟩
    · obtain ⟨e, he, ht, hb, hl⟩ := ih
      refine ⟨e + 1, by simpa using he, ?_, fun j h hj => ?_, ?_⟩
      · rw [List.takeWhile_cons_of_pos (by simpa using hc), ht, List.take_succ_cons]
      · cases j with
        | zero => exact hc
        | succ j => simpa using hb j (by simpa using h) (by omega)
      · rcases hl with hl | ⟨h, hl⟩
        · exact Or.inl (by simpa using hl)
        · exact Or.inr ⟨by simpa using h, by simpa using hl⟩

theorem dropMarker_eq (x : List Byte) :
    dropMarker x = x.drop (if 0 < x.length ∧ (x.getD 0 0 = 0x24 ∨ x.getD 0 0 = 0x21) then 1 else 0) := by
  cases x with
  | nil => simp [dropMarker]
  | cons c x =>
    simp only [dropMarker, List.length_cons, Nat.zero_lt_succ, true_and, List.getD_cons_zero]
    split <;> rfl

theorem checksum_marker (c : Byte) (x : List Byte) (h : c = 0x24 ∨ c = 0x21) : checksum (c :: x) = xorToStar 0 x := by
  rw [checksum, dropMarker, if_pos h]

/-- Bytes with no `*` are all covered, and a `*` after them ends the scan (R200, R206(a)). -/
theorem xorToStar_append (acc : Byte) {x : List Byte} (h : ∀ c ∈ x, c ≠ 0x2A) (y : List Byte) :
    xorToStar acc (x ++ 0x2A :: y) = xorToStar acc x := by
  induction x generalizing acc with
  | nil => exact if_pos rfl
  | cons c x ih =>
    have hc := h c (by simp)
    rw [List.cons_append, xorToStar, if_neg hc, xorToStar, if_neg hc,
      ih (acc ^^^ c) fun d hd => h d (List.mem_cons_of_mem _ hd)]

/-! ## The sentence -/

theorem frameBody_no_star (mn : Bool) (bs : List Byte) : ∀ c ∈ frameBody mn bs, c ≠ 0x2A := by
  have h1 : ∀ c ∈ framePrefix, c ≠ 0x2A := by decide
  have h2 : ∀ c ∈ frameMid, c ≠ 0x2A := by decide
  intro c hc
  rcases List.mem_append.1 hc with hc | hc
  · rcases List.mem_append.1 hc with hc | hc
    · exact h1 c hc
    · obtain ⟨v, rfl⟩ := mem_encodeArmor hc
      exact armorChar_ne_star v
  · exact h2 c hc

theorem frameBody_eq_cons (mn : Bool) (bs : List Byte) :
    frameBody mn bs = 0x21 :: (framePrefix.drop 1 ++ encodeArmor mn bs ++ frameMid) := rfl

/-- The checksum of a framed sentence is the checksum of its body (R206(a)). -/
theorem checksum_sentence (mn : Bool) (bs : List Byte) :
    checksum (sentence (frameBody mn bs)) = checksum (frameBody mn bs) := by
  have h := frameBody_no_star mn bs
  rw [frameBody_eq_cons] at h ⊢
  rw [sentence, List.cons_append, checksum_marker _ _ (Or.inr rfl), checksum_marker _ _ (Or.inr rfl)]
  exact xorToStar_append 0 (fun c hc => h c (List.mem_cons_of_mem _ hc)) _

theorem length_frameBody (mn : Bool) (bs : List Byte) : (frameBody mn bs).length = armorLen mn bs.length + 16 := by
  simp [frameBody, framePrefix, frameMid]

theorem length_sentence (x : List Byte) : (sentence x).length = x.length + 5 := by simp [sentence]

/-! ## Commas -/

theorem commaIndices_append (j : Nat) (x y : List Byte) :
    commaIndices j (x ++ y) = commaIndices j x ++ commaIndices (j + x.length) y := by
  induction x generalizing j with
  | nil => simp [commaIndices]
  | cons c x ih =>
    have h : j + 1 + x.length = j + (x.length + 1) := by omega
    rw [List.cons_append, commaIndices, commaIndices, ih, h, List.length_cons]
    split <;> rfl

theorem commaIndices_none (j : Nat) {x : List Byte} (h : ∀ c ∈ x, c ≠ 0x2C) : commaIndices j x = [] := by
  induction x generalizing j with
  | nil => rfl
  | cons c x ih =>
    rw [commaIndices, if_neg (h c (by simp)), ih (j + 1) fun d hd => h d (List.mem_cons_of_mem _ hd)]

/-- The comma indices of TXT as R205 writes them. -/
theorem commaIndices_txt (s : State) :
    commaIndices 0 (txtContents s) = (List.range s.txtLen).filter fun j => txtByte s.mem j = 0x2C := by
  have key : ∀ n, commaIndices 0 (readBytes s.mem txtBase n) =
      (List.range n).filter fun j => txtByte s.mem j = 0x2C := by
    intro n
    induction n with
    | zero => rfl
    | succ n ih =>
      have h : readBytes s.mem txtBase (n + 1) = readBytes s.mem txtBase n ++ [txtByte s.mem n] := by
        rw [readBytes_eq_map, List.range_succ, List.map_append, ← readBytes_eq_map]
        rfl
      rw [h, commaIndices_append, ih, List.range_succ, List.filter_append, length_readBytes, Nat.zero_add]
      congr 1
      by_cases hc : txtByte s.mem n = 0x2C
      · rw [commaIndices, if_pos hc, List.filter_cons_of_pos (by simpa using hc)]
        rfl
      · rw [commaIndices, if_neg hc, List.filter_cons_of_neg (by simpa using hc)]
        rfl
  exact key _

theorem payloadBounds_eq (c : List Nat) :
    payloadBounds c = if 6 ≤ c.length then some (c.getD 4 0 + 1, c.getD 5 0) else none := by
  match c with
  | [] | [_] | [_, _] | [_, _, _] | [_, _, _, _] | [_, _, _, _, _] => rfl
  | _ :: _ :: _ :: _ :: _ :: _ :: _ => simp [payloadBounds]

/-- A framed sentence's payload lies where R204 put it, so UNFRAME finds it (R207). -/
theorem payloadBounds_sentence (mn : Bool) (bs : List Byte) :
    payloadBounds (commaIndices 0 (sentence (frameBody mn bs))) = some (14, 14 + armorLen mn bs.length) := by
  have h1 : ∀ c ∈ encodeArmor mn bs, c ≠ 0x2C := fun c hc => by
    obtain ⟨v, rfl⟩ := mem_encodeArmor hc
    exact armorChar_ne_comma v
  have h2 : commaIndices 0 framePrefix = [6, 8, 10, 11, 13] := by decide
  have h3 : framePrefix.length = 14 := rfl
  have h4 : ∀ j, commaIndices j frameMid = [j] := fun j => by simp [frameMid, commaIndices]
  have h5 := length_encodeArmor mn bs
  rw [sentence, commaIndices_append, frameBody, commaIndices_append, commaIndices_append, h2,
    commaIndices_none _ h1, h4, List.length_append, h3, h5]
  simp [payloadBounds]

/-! ## The framed sentence in TXT -/

/-- TXT after a text is loaded into it. -/
theorem txtContents_loadTxt {s : State} (h : Memory.wf s.mem = true) (x : List Byte) : txtContents (loadTxt x s) = x :=
  readBytes_writeBytes_same h _ _

theorem hexHigh_eq (cs : Byte) : hexHigh cs = BitVec.ofNat 8 (hexLetter (cs.toNat / 16)) := by
  have h : ∀ c : Byte, hexHigh c = BitVec.ofNat 8 (hexLetter (c.toNat / 16)) := by decide +kernel
  exact h cs

theorem hexLow_eq (cs : Byte) : hexLow cs = BitVec.ofNat 8 (hexLetter (cs.toNat % 16)) := by
  have h : ∀ c : Byte, hexLow c = BitVec.ofNat 8 (hexLetter (c.toNat % 16)) := by decide +kernel
  exact h cs

/-- The sentence, part by part (R202, R204). -/
theorem sentence_eq (mn : Bool) (bs : List Byte) :
    sentence (frameBody mn bs) = framePrefix ++ (encodeArmor mn bs ++ (frameMid ++ [0x2A,
      hexHigh (checksum (frameBody mn bs)), hexLow (checksum (frameBody mn bs)), 0x0D, 0x0A])) := by
  simp [sentence, frameBody]

/-- FRAME's payload meets every armor check. -/
theorem armorCheck_encodeArmor (c : Cfg) (j : Nat) (mn : Bool) (bs : List Byte) :
    armorCheck c j (encodeArmor mn bs) = none := by
  refine armorCheck_ok (Or.inr fun x hx => ?_)
  obtain ⟨v, rfl⟩ := mem_encodeArmor hx
  exact armorChar_valid v

end Sys2Proof.Machine
end

