-- ==== Sys2Proof/Laws/MessageCodec.lean ====
section
/-! SUPPORT. What a run over a layout's descriptors leaves (43_message_codec.md R229, R231, R233, R234): the value each
descriptor moves, and that descriptors of one layout never disturb each other. -/

namespace Sys2Proof.Machine

open Sys2Proof

/-! ## What one descriptor decodes (R233) -/

/-- The word a number descriptor decodes to; 0 for the others. -/
def decodedWord (u : Units) (s0 : State) : Desc → Word
  | .u off w _ => getUnsigned s0.mem off w
  | .s off w _ => getSigned s0.mem off w
  | .v off w _ => speedFromWire u (getUnsigned s0.mem off w)
  | .t _ _ _ => 0
  | .bin _ => 0
  | .vtxt _ => 0

/-- The bytes a text or tail descriptor decodes to; none for the others. -/
def decodedText (s0 : State) : Desc → List Byte
  | .u _ _ _ => []
  | .s _ _ _ => []
  | .v _ _ _ => []
  | .t off w _ => decodeText s0.mem off w
  | .bin off => readBytes s0.mem (bufBase + off / 8) (s0.bufLen - off / 8)
  | .vtxt off => decodeText s0.mem off (6 * ((8 * s0.bufLen - off) / 6))

/-- Where a text or tail descriptor stores its bytes; 0 for the others, which store none. -/
def Desc.textBase : Desc → Nat
  | .u _ _ _ => 0
  | .s _ _ _ => 0
  | .v _ _ _ => 0
  | .t _ _ k => strBase k
  | .bin _ => payBase
  | .vtxt _ => payBase

/-- Two descriptors with different targets. -/
def Desc.apart (d e : Desc) : Bool :=
  (List.finRange 32).all (fun i => !(d.targetsRec i && e.targetsRec i)) && (d.textBase = 0 || d.textBase ≠ e.textBase)

/-- No two descriptors of a layout have one target (R240). -/
theorem apart_layoutRom : ∀ lay : Layout, (layoutRom lay).Pairwise fun d e => d.apart e = true := by
  intro lay
  cases lay <;> decide

theorem Desc.apart_rec {d e : Desc} (h : d.apart e = true) (i : Fin 32) (hd : d.targetsRec i = true) :
    e.targetsRec i = false := by
  simp only [Desc.apart, Bool.and_eq_true, List.all_eq_true] at h
  have := h.1 i (List.mem_finRange i)
  simpa [hd] using this

theorem Desc.apart_text {d e : Desc} (h : d.apart e = true) (hd : d.textBase ≠ 0) : d.textBase ≠ e.textBase := by
  simp only [Desc.apart, Bool.and_eq_true, Bool.or_eq_true, decide_eq_true_eq] at h
  exact h.2.resolve_left hd

theorem Desc.apart_str {d e : Desc} (h : d.apart e = true) (k : StrReg) (hd : d.targetsStr k = true) :
    e.targetsStr k = false := by
  cases d <;> simp only [Desc.targetsStr, Bool.false_eq_true, beq_iff_eq] at hd
  subst hd
  have hb := Desc.apart_text h (by simp [Desc.textBase]; cases ‹StrReg› <;> simp [strBase])
  cases e <;> simp only [Desc.targetsStr, beq_eq_false_iff_ne, ne_eq]
  rintro rfl
  exact hb rfl

theorem Desc.apart_tail {d e : Desc} (h : d.apart e = true) (hd : d.isTail = true) : e.isTail = false := by
  have hb : d.textBase = payBase := by
    cases d <;> first | rfl | simp [Desc.isTail] at hd
  have hne := Desc.apart_text h (by rw [hb]; decide)
  cases e <;> first | rfl | exact absurd hb hne

theorem readRec_decodeField (u : Units) (s0 s : State) (d : Desc) (i : Fin 32) :
    readRec (decodeField u s0 s d) i = if d.targetsRec i then decodedWord u s0 d else readRec s i := by
  cases d with
  | u off w t => simp only [decodeField, readRec_writeRec, Desc.targetsRec, beq_iff_eq]; rfl
  | s off w t => simp only [decodeField, readRec_writeRec, Desc.targetsRec, beq_iff_eq]; rfl
  | v off w t => simp only [decodeField, readRec_writeRec, Desc.targetsRec, beq_iff_eq]; rfl
  | t off w k => exact readRec_loadStr _ _ _ _
  | bin off => rfl
  | vtxt off => rfl

theorem strCtl_decodeField (u : Units) (s0 s : State) (d : Desc) (k : StrReg) :
    strCtl (decodeField u s0 s d) k =
      if d.targetsStr k then { len := (decodedText s0 d).length, present := true } else strCtl s k := by
  cases d with
  | u off w t => rfl
  | s off w t => rfl
  | v off w t => rfl
  | t off w j => cases j <;> cases k <;> rfl
  | bin off => rfl
  | vtxt off => rfl

theorem payLen_decodeField (u : Units) (s0 s : State) (d : Desc) :
    (decodeField u s0 s d).payLen = if d.isTail then (decodedText s0 d).length else s.payLen := by
  cases d with
  | u off w t => rfl
  | s off w t => rfl
  | v off w t => rfl
  | t off w j => cases j <;> rfl
  | bin off => rfl
  | vtxt off => rfl

theorem mem_decodeField (u : Units) (s0 s : State) (d : Desc) :
    (decodeField u s0 s d).mem = writeBytes s.mem d.textBase (decodedText s0 d) := by
  cases d with
  | u off w t => rfl
  | s off w t => rfl
  | v off w t => rfl
  | t off w j => cases j <;> rfl
  | bin off => rfl
  | vtxt off => rfl

/-! ## What a list of descriptors decodes -/

theorem readRec_foldl_untouched (u : Units) (s0 : State) (ds : List Desc) (i : Fin 32)
    (h : ∀ d ∈ ds, d.targetsRec i = false) (s : State) :
    readRec (ds.foldl (decodeField u s0) s) i = readRec s i := by
  induction ds generalizing s with
  | nil => rfl
  | cons d ds ih =>
    rw [List.foldl_cons, ih (fun e he => h e (List.mem_cons_of_mem _ he)), readRec_decodeField,
      h d (by simp), if_neg (by simp)]

theorem readRec_foldl_target (u : Units) (s0 : State) {ds : List Desc} (hp : ds.Pairwise fun d e => d.apart e = true)
    {d : Desc} (hd : d ∈ ds) {i : Fin 32} (hi : d.targetsRec i = true) (s : State) :
    readRec (ds.foldl (decodeField u s0) s) i = decodedWord u s0 d := by
  induction ds generalizing s with
  | nil => simp at hd
  | cons e ds ih =>
    rw [List.pairwise_cons] at hp
    rw [List.foldl_cons]
    rcases List.mem_cons.1 hd with rfl | hm
    · rw [readRec_foldl_untouched _ _ _ _ (fun e he => Desc.apart_rec (hp.1 e he) i hi), readRec_decodeField, if_pos hi]
    · exact ih hp.2 hm _

theorem strCtl_foldl_untouched (u : Units) (s0 : State) (ds : List Desc) (k : StrReg)
    (h : ∀ d ∈ ds, d.targetsStr k = false) (s : State) :
    strCtl (ds.foldl (decodeField u s0) s) k = strCtl s k := by
  induction ds generalizing s with
  | nil => rfl
  | cons d ds ih =>
    rw [List.foldl_cons, ih (fun e he => h e (List.mem_cons_of_mem _ he)), strCtl_decodeField,
      h d (by simp), if_neg (by simp)]

theorem strCtl_foldl_target (u : Units) (s0 : State) {ds : List Desc} (hp : ds.Pairwise fun d e => d.apart e = true)
    {d : Desc} (hd : d ∈ ds) {k : StrReg} (hk : d.targetsStr k = true) (s : State) :
    strCtl (ds.foldl (decodeField u s0) s) k = { len := (decodedText s0 d).length, present := true } := by
  induction ds generalizing s with
  | nil => simp at hd
  | cons e ds ih =>
    rw [List.pairwise_cons] at hp
    rw [List.foldl_cons]
    rcases List.mem_cons.1 hd with rfl | hm
    · rw [strCtl_foldl_untouched _ _ _ _ (fun e he => Desc.apart_str (hp.1 e he) k hk), strCtl_decodeField, if_pos hk]
    · exact ih hp.2 hm _

theorem payLen_foldl_untouched (u : Units) (s0 : State) (ds : List Desc) (h : ∀ d ∈ ds, d.isTail = false) (s : State) :
    (ds.foldl (decodeField u s0) s).payLen = s.payLen := by
  induction ds generalizing s with
  | nil => rfl
  | cons d ds ih =>
    rw [List.foldl_cons, ih (fun e he => h e (List.mem_cons_of_mem _ he)), payLen_decodeField,
      h d (by simp), if_neg (by simp)]

theorem payLen_foldl_target (u : Units) (s0 : State) {ds : List Desc} (hp : ds.Pairwise fun d e => d.apart e = true)
    {d : Desc} (hd : d ∈ ds) (ht : d.isTail = true) (s : State) :
    (ds.foldl (decodeField u s0) s).payLen = (decodedText s0 d).length := by
  induction ds generalizing s with
  | nil => simp at hd
  | cons e ds ih =>
    rw [List.pairwise_cons] at hp
    rw [List.foldl_cons]
    rcases List.mem_cons.1 hd with rfl | hm
    · rw [payLen_foldl_untouched _ _ _ (fun e he => Desc.apart_tail (hp.1 e he) ht), payLen_decodeField, if_pos ht]
    · exact ih hp.2 hm _

/-- BUF_LEN and TXT_LEN are no target of a decode. -/
theorem lens_decodeField (u : Units) (s0 s : State) (d : Desc) :
    (decodeField u s0 s d).bufLen = s.bufLen ∧ (decodeField u s0 s d).txtLen = s.txtLen := by
  cases d with
  | t off w k => cases k <;> exact ⟨rfl, rfl⟩
  | _ => exact ⟨rfl, rfl⟩

theorem lens_foldl_decodeField (u : Units) (s0 : State) (ds : List Desc) (s : State) :
    (ds.foldl (decodeField u s0) s).bufLen = s.bufLen ∧ (ds.foldl (decodeField u s0) s).txtLen = s.txtLen := by
  induction ds generalizing s with
  | nil => exact ⟨rfl, rfl⟩
  | cons d ds ih =>
    have h1 := ih (decodeField u s0 s d)
    have h2 := lens_decodeField u s0 s d
    exact ⟨h1.1.trans h2.1, h1.2.trans h2.2⟩

theorem wf_foldl_decodeField {u : Units} {s0 : State} (ds : List Desc) {s : State} (h : Memory.wf s.mem = true) :
    Memory.wf (ds.foldl (decodeField u s0) s).mem = true := by
  induction ds generalizing s with
  | nil => exact h
  | cons d ds ih => exact ih (by rw [mem_decodeField]; exact wf_writeBytes h _ _)

theorem readByte_foldl_decodeField_outside {u : Units} {s0 : State} {ds : List Desc} {a : Nat}
    (ha : ∀ d ∈ ds, a < d.textBase ∨ d.textBase + (decodedText s0 d).length ≤ a) {s : State}
    (h : Memory.wf s.mem = true) : readByte (ds.foldl (decodeField u s0) s).mem a = readByte s.mem a := by
  induction ds generalizing s with
  | nil => rfl
  | cons d ds ih =>
    have hd := ha d (by simp)
    rw [List.foldl_cons, ih (fun e he => ha e (List.mem_cons_of_mem _ he))
      (by rw [mem_decodeField]; exact wf_writeBytes h _ _), mem_decodeField, readByte_writeBytes h, if_neg (by omega)]

/-- A decoded text fits where it is stored. -/
theorem length_decodedText_le {s0 : State} {d : Desc} (hf : d.textFits = true) (hb : d.textBase < payBase) :
    (decodedText s0 d).length ≤ 32 := by
  cases d with
  | u off w t => exact Nat.zero_le _
  | s off w t => exact Nat.zero_le _
  | v off w t => exact Nat.zero_le _
  | t off w k =>
    have := length_decodeText_le s0.mem off w
    have hw : w / 6 ≤ 32 := by simpa [Desc.textFits] using hf
    exact this.trans hw
  | bin off => exact absurd hb (lt_irrefl _)
  | vtxt off => exact absurd hb (lt_irrefl _)

theorem textBase_cases (d : Desc) :
    d.textBase = 0 ∨ d.textBase = 0x180 ∨ d.textBase = 0x1A0 ∨ d.textBase = 0x1C0 ∨ d.textBase = 0x1000 := by
  cases d with
  | t off w k => cases k <;> simp [Desc.textBase, strBase]
  | _ => simp [Desc.textBase, payBase]

theorem length_decodedText_of_zero {s0 : State} {d : Desc} (h : d.textBase = 0) : decodedText s0 d = [] := by
  cases d with
  | t off w k => cases k <;> simp [Desc.textBase, strBase] at h
  | bin off => simp [Desc.textBase] at h
  | vtxt off => simp [Desc.textBase] at h
  | _ => rfl

/-- Texts of different targets do not overlap. -/
theorem decodedText_disjoint {s0 : State} {d e : Desc} (hd : d.textFits = true) (he : e.textFits = true)
    (h : d.apart e = true) (hd0 : d.textBase ≠ 0) {a : Nat} (h1 : d.textBase ≤ a)
    (h2 : a < d.textBase + (decodedText s0 d).length) :
    a < e.textBase ∨ e.textBase + (decodedText s0 e).length ≤ a := by
  have hne := Desc.apart_text h hd0
  have hz : e.textBase = 0 → (decodedText s0 e).length = 0 := fun hz => by rw [length_decodedText_of_zero hz]; rfl
  have h3 : d.textBase < 0x1000 → (decodedText s0 d).length ≤ 32 := length_decodedText_le hd
  have h4 : e.textBase < 0x1000 → (decodedText s0 e).length ≤ 32 := length_decodedText_le he
  rcases textBase_cases d with c | c | c | c | c <;> rcases textBase_cases e with f | f | f | f | f <;>
    simp only [c, f] at * <;> first | contradiction | omega

theorem readBytes_foldl_target {u : Units} {s0 : State} {ds : List Desc}
    (hp : ds.Pairwise fun d e => d.apart e = true) (hf : ∀ d ∈ ds, d.textFits = true) {d : Desc} (hd : d ∈ ds)
    (hb : d.textBase ≠ 0) {s : State} (h : Memory.wf s.mem = true) :
    readBytes (ds.foldl (decodeField u s0) s).mem d.textBase (decodedText s0 d).length = decodedText s0 d := by
  induction ds generalizing s with
  | nil => simp at hd
  | cons e ds ih =>
    rw [List.pairwise_cons] at hp
    have hw : Memory.wf (decodeField u s0 s e).mem = true := by rw [mem_decodeField]; exact wf_writeBytes h _ _
    rw [List.foldl_cons]
    rcases List.mem_cons.1 hd with rfl | hm
    · have : readBytes (ds.foldl (decodeField u s0) (decodeField u s0 s d)).mem d.textBase (decodedText s0 d).length =
          readBytes (decodeField u s0 s d).mem d.textBase (decodedText s0 d).length :=
        readBytes_congr fun i hi => readByte_foldl_decodeField_outside (fun e he =>
          decodedText_disjoint (hf d (by simp)) (hf e (List.mem_cons_of_mem _ he)) (hp.1 e he) hb (by omega) (by omega)) hw
      rw [this, mem_decodeField]
      exact readBytes_writeBytes_same h _ _
    · exact ih hp.2 (fun e he => hf e (List.mem_cons_of_mem _ he)) hm hw

/-! ## What one descriptor encodes (R234) -/

/-- The stream bit a descriptor starts at. -/
def Desc.offset : Desc → Nat
  | .u off _ _ => off
  | .s off _ _ => off
  | .v off _ _ => off
  | .t off _ _ => off
  | .bin off => off
  | .vtxt off => off

/-- The bytes of PAY a tail encodes. -/
def tailBytes (lay : Layout) (s0 : State) : List Byte := readBytes s0.mem payBase (min s0.payLen (tailCap lay))

/-- The bits a descriptor puts into the stream from its offset on. -/
def encodedBits (u : Units) (lay : Layout) (s0 : State) : Desc → List Bool
  | .u _ w t => natBits w (readRec s0 t).toNat
  | .s _ w t => natBits w (readRec s0 t).toNat
  | .v _ w t => natBits w (speedToWire u (readRec s0 t)).toNat
  | .t _ w k => textBits (w / 6) (strSource s0 k)
  | .bin _ => byteBits (tailBytes lay s0)
  | .vtxt _ => textBits (4 * ((min s0.payLen (tailCap lay) + 3) / 4)) (tailBytes lay s0)

/-- What the layouts' descriptors meet: a binary tail starts at a whole byte. -/
def Desc.aligned : Desc → Bool
  | .bin off => off % 8 = 0
  | .u .. => true
  | .s .. => true
  | .v .. => true
  | .t .. => true
  | .vtxt _ => true

theorem aligned_layoutRom : ∀ lay : Layout, ∀ d ∈ layoutRom lay, d.aligned = true := by
  intro lay
  cases lay <;> decide

theorem bitRd_writeBytes_at {m : Memory} (h : Memory.wf m = true) (o : Nat) (bs : List Byte) (k : Nat) :
    bitRd (writeBytes m (bufBase + o) bs) k =
      if 8 * o ≤ k ∧ k < 8 * o + 8 * bs.length then (byteBits bs).getD (k - 8 * o) false else bitRd m k := by
  unfold bitRd
  rw [readByte_writeBytes h]
  by_cases hk : 8 * o ≤ k ∧ k < 8 * o + 8 * bs.length
  · have h1 : (k - 8 * o) / 8 < bs.length := by omega
    have h2 := getElem_byteBits bs ((k - 8 * o) / 8) ((k - 8 * o) % 8) h1 (by omega) (by simp; omega)
    have h3 : 8 * ((k - 8 * o) / 8) + (k - 8 * o) % 8 = k - 8 * o := by omega
    simp only [h3] at h2
    rw [if_pos hk, if_pos (by omega), List.getD_eq_getElem _ _ (by simp only [bufBase]; omega),
      List.getD_eq_getElem _ _ (by rw [length_byteBits]; omega), h2]
    have h4 : (k - 8 * o) % 8 = k % 8 := by omega
    have h5 : bufBase + k / 8 - (bufBase + o) = (k - 8 * o) / 8 := by omega
    simp only [h4, h5]
  · rw [if_neg hk, if_neg (by omega)]

/-- A stream bit after one descriptor is encoded. -/
theorem bitRd_encodeField {m : Memory} (h : Memory.wf m = true) (u : Units) (lay : Layout) (s0 : State) {d : Desc}
    (ha : d.aligned = true) (k : Nat) :
    bitRd (encodeField u lay s0 m d) k =
      if d.offset ≤ k ∧ k < d.offset + (encodedBits u lay s0 d).length then
        (encodedBits u lay s0 d).getD (k - d.offset) false
      else bitRd m k := by
  cases d with
  | u off w t => exact bitRd_setBits h _ _ _
  | s off w t => exact bitRd_setBits h _ _ _
  | v off w t => exact bitRd_setBits h _ _ _
  | t off w j =>
    show bitRd (encodeText m off w (strSource s0 j)) k = _
    rw [encodeText_eq_setBits]
    exact bitRd_setBits h _ _ _
  | bin off =>
    have h8 : off % 8 = 0 := by simpa [Desc.aligned] using ha
    have ho : 8 * (off / 8) = off := by omega
    have := bitRd_writeBytes_at h (off / 8) (tailBytes lay s0) k
    rw [ho] at this
    simp only [Desc.offset, encodedBits, length_byteBits]
    exact this
  | vtxt off =>
    show bitRd (encodeText m off (6 * _) (tailBytes lay s0)) k = _
    rw [encodeText_eq_setBits, Nat.mul_div_cancel_left _ (by omega)]
    exact bitRd_setBits h _ _ _

/-- Encoding a descriptor stores only to BUF. -/
theorem readByte_encodeField_outside {m : Memory} (h : Memory.wf m = true) (u : Units) (lay : Layout) (s0 : State)
    {d : Desc} (hd : d.inBuf = true) {a : Nat} (ha : a < 0x400 ∨ 0x800 ≤ a) :
    readByte (encodeField u lay s0 m d) a = readByte m a := by
  have hc := tailCap_le lay
  cases d with
  | u off w t =>
    have hw : off + w ≤ 8192 := by simpa [Desc.inBuf] using hd
    exact readByte_setUnsigned_outside h (by simp only [bufBase]; omega)
  | s off w t =>
    have hw : off + w ≤ 8192 := by simpa [Desc.inBuf] using hd
    exact readByte_setUnsigned_outside h (by simp only [bufBase]; omega)
  | v off w t =>
    have hw : off + w ≤ 8192 := by simpa [Desc.inBuf] using hd
    exact readByte_setUnsigned_outside h (by simp only [bufBase]; omega)
  | t off w k =>
    have hw : off + w ≤ 8192 := by simpa [Desc.inBuf] using hd
    show readByte (encodeText m off w (strSource s0 k)) a = _
    rw [encodeText_eq_setBits]
    exact readByte_setBits_outside h (by rw [length_textBits]; simp only [bufBase]; omega)
  | bin off =>
    have hw : off ≤ 72 := by simpa [Desc.inBuf] using hd
    show readByte (writeBytes m (bufBase + off / 8) (tailBytes lay s0)) a = _
    rw [readByte_writeBytes h, if_neg]
    rw [tailBytes, length_readBytes]
    simp only [bufBase]
    omega
  | vtxt off =>
    have hw : off ≤ 72 := by simpa [Desc.inBuf] using hd
    show readByte (encodeText m off (6 * _) (tailBytes lay s0)) a = _
    rw [encodeText_eq_setBits]
    exact readByte_setBits_outside h (by rw [length_textBits]; simp only [bufBase]; omega)

/-! ## What a list of descriptors encodes -/

theorem wf_foldl_encodeField {u : Units} {lay : Layout} {s0 : State} (ds : List Desc) {m : Memory}
    (h : Memory.wf m = true) : Memory.wf (ds.foldl (encodeField u lay s0) m) = true := by
  induction ds generalizing m with
  | nil => exact h
  | cons d ds ih => exact ih (wf_encodeField h u lay s0 d)

theorem encodeRecord_mem (m : Nat) (u : Units) (lay : Layout) (s : State) :
    (encodeRecord m u lay s).mem = encodedMemory m u lay s := by simp only [encodeRecord, setResult]

theorem wf_encodedMemory {s : State} (h : Memory.wf s.mem = true) (m : Nat) (u : Units) (lay : Layout) :
    Memory.wf (encodedMemory m u lay s) = true :=
  wf_foldl_encodeField _ (wf_setUnsigned (wf_zeroBytes h _ _) _ _ _)

theorem bitRd_foldl_encodeField_outside {u : Units} {lay : Layout} {s0 : State} {ds : List Desc}
    (ha : ∀ d ∈ ds, d.aligned = true) {k : Nat}
    (hk : ∀ d ∈ ds, k < d.offset ∨ d.offset + (encodedBits u lay s0 d).length ≤ k) {m : Memory}
    (h : Memory.wf m = true) : bitRd (ds.foldl (encodeField u lay s0) m) k = bitRd m k := by
  induction ds generalizing m with
  | nil => rfl
  | cons d ds ih =>
    have hd := hk d (by simp)
    rw [List.foldl_cons, ih (fun e he => ha e (List.mem_cons_of_mem _ he))
      (fun e he => hk e (List.mem_cons_of_mem _ he)) (wf_encodeField h u lay s0 d),
      bitRd_encodeField h u lay s0 (ha d (by simp)), if_neg (by omega)]

theorem bitRd_foldl_encodeField_inside {u : Units} {lay : Layout} {s0 : State} {ds : List Desc}
    (ha : ∀ d ∈ ds, d.aligned = true)
    (hp : ds.Pairwise fun d e => d.offset + (encodedBits u lay s0 d).length ≤ e.offset) {d : Desc} (hd : d ∈ ds)
    {i : Nat} (hi : i < (encodedBits u lay s0 d).length) {m : Memory} (h : Memory.wf m = true) :
    bitRd (ds.foldl (encodeField u lay s0) m) (d.offset + i) = (encodedBits u lay s0 d)[i] := by
  induction ds generalizing m with
  | nil => simp at hd
  | cons e ds ih =>
    rw [List.pairwise_cons] at hp
    rw [List.foldl_cons]
    rcases List.mem_cons.1 hd with rfl | hm
    · rw [bitRd_foldl_encodeField_outside (fun e he => ha e (List.mem_cons_of_mem _ he))
        (fun e he => Or.inl (by have := hp.1 e he; omega)) (wf_encodeField h u lay s0 d),
        bitRd_encodeField h u lay s0 (ha d (by simp)), if_pos (by omega), Nat.add_sub_cancel_left,
        List.getD_eq_getElem _ _ hi]
    · exact ih (fun e he => ha e (List.mem_cons_of_mem _ he)) hp.2 hm (wf_encodeField h u lay s0 e)

theorem readByte_foldl_encodeField_outside {u : Units} {lay : Layout} {s0 : State} {ds : List Desc}
    (hd : ∀ d ∈ ds, d.inBuf = true) {a : Nat} (ha : a < 0x400 ∨ 0x800 ≤ a) {m : Memory} (h : Memory.wf m = true) :
    readByte (ds.foldl (encodeField u lay s0) m) a = readByte m a := by
  induction ds generalizing m with
  | nil => rfl
  | cons d ds ih =>
    rw [List.foldl_cons, ih (fun e he => hd e (List.mem_cons_of_mem _ he)) (wf_encodeField h u lay s0 d),
      readByte_encodeField_outside h u lay s0 (hd d (by simp)) ha]

/-! ## A layout's descriptors in the stream (R229) -/

/-- Fixed descriptors stand in rising order, one after the other; a tail is last. -/
theorem rising_layoutRom : ∀ lay : Layout,
    (layoutRom lay).Pairwise fun d e => d.isTail = false ∧ (descSpan d).1 + (descSpan d).2 ≤ (descSpan e).1 := by
  intro lay
  cases lay <;> decide

theorem offset_eq (d : Desc) : d.offset = (descSpan d).1 := by cases d <;> rfl

/-- A text field of whole characters. -/
def Desc.wholeText : Desc → Bool
  | .t _ w _ => w % 6 = 0
  | .u .. => true
  | .s .. => true
  | .v .. => true
  | .bin _ => true
  | .vtxt _ => true

/-- Text fields of the layouts are whole characters. -/
theorem wholeText_layoutRom : ∀ lay : Layout, ∀ d ∈ layoutRom lay, d.wholeText = true := by
  intro lay
  cases lay <;> decide

theorem length_encodedBits {u : Units} {lay lay' : Layout} {s0 : State} {d : Desc} (hd : d ∈ layoutRom lay')
    (ht : d.isTail = false) : (encodedBits u lay s0 d).length = (descSpan d).2 := by
  have hw := wholeText_layoutRom lay' d hd
  cases d with
  | u off w t => exact length_natBits _ _
  | s off w t => exact length_natBits _ _
  | v off w t => exact length_natBits _ _
  | t off w k =>
    have hw : w % 6 = 0 := by simpa [Desc.wholeText] using hw
    rw [encodedBits, length_textBits]
    show 6 * (w / 6) = w
    omega
  | bin off => simp [Desc.isTail] at ht
  | vtxt off => simp [Desc.isTail] at ht

/-- What a layout's descriptors encode never overlaps. -/
theorem encoded_pairwise (u : Units) (lay : Layout) (s0 : State) :
    (layoutRom lay).Pairwise fun d e => d.offset + (encodedBits u lay s0 d).length ≤ e.offset := by
  refine (rising_layoutRom lay).imp_of_mem fun {d e} hd _ h => ?_
  rw [length_encodedBits hd h.1, offset_eq, offset_eq]
  exact h.2

/-- The widths the layouts use: numbers fit a register, a speed field has 10 bits (R236, R240). -/
def Desc.widthFits : Desc → Bool
  | .u _ w _ => w ≤ 32
  | .s _ w _ => 1 ≤ w && w ≤ 32
  | .v _ w _ => w = 10
  | .t .. => true
  | .bin _ => true
  | .vtxt _ => true

theorem widthFits_layoutRom : ∀ lay : Layout, ∀ d ∈ layoutRom lay, d.widthFits = true := by
  intro lay
  cases lay <;> decide

/-- The first descriptor of every layout is the message id (R240). -/
theorem layoutRom_eq_cons (lay : Layout) : layoutRom lay = .u 0 6 0 :: (layoutRom lay).drop 1 := rfl

theorem layoutOf_lt {m : Nat} {lay : Layout} (h : layoutOf m = some lay) : m < 20 := by
  by_contra hc
  have : layoutOf m = none := by unfold layoutOf; split <;> simp_all
  rw [this] at h
  cases h

theorem bufferId_eq (s : State) : bufferId s = fieldNat s.mem 0 6 := getUnsigned_toNat_eq (by omega) _ _

/-- When MSGDEC's checks all pass (R233). -/
theorem msgdecVerdict_go {s : State} {m : Nat} {lay : Layout}
    (hl : layoutOf (if m = 0 then fieldNat s.mem 0 6 else m) = some lay) (h1 : minBytes lay ≤ s.bufLen)
    (h2 : fieldNat s.mem 0 6 ∈ acceptedIds s.cfg.airId13 lay) : msgdecVerdict m s = .go lay (fieldNat s.mem 0 6) := by
  have hp : 0 < minBytes lay := by cases lay <;> decide
  unfold msgdecVerdict
  rw [if_neg, if_neg (by omega), bufferId_eq, hl]
  · show decodeWith lay s = _
    unfold decodeWith
    rw [if_neg (by omega), bufferId_eq, if_pos h2]
  · rintro ⟨h3, h4⟩
    rw [if_neg h3, h4] at hl
    cases hl

/-- The bytes a tail encodes are PAY's first ones (R234). -/
theorem tailBytes_eq (lay : Layout) (s : State) :
    tailBytes lay s = (payText s).take (min s.payLen (tailCap lay)) := by
  rw [payText_eq]
  refine List.ext_getElem (by simp [tailBytes, payContents]) fun i h1 h2 => ?_
  rw [List.getElem_take]
  simp only [tailBytes, payContents, getElem_readBytes]

/-- The stream bits a tail of `p` bytes or characters of PAY takes up; 0 for a fixed descriptor. -/
def tailBits (lay : Layout) (p : Nat) : Desc → Nat
  | .bin _ => 8 * min p (tailCap lay)
  | .vtxt _ => 6 * (4 * ((min p (tailCap lay) + 3) / 4))
  | .u .. => 0
  | .s .. => 0
  | .v .. => 0
  | .t .. => 0

/-- A tail runs to the end of the encoded bytes (R231, R235). -/
theorem tail_end : ∀ lay : Layout, ∀ d ∈ layoutRom lay, d.isTail = true → ∀ p,
    d.offset + tailBits lay p d = 8 * encodedLen p lay := by
  intro lay d hd ht p
  cases lay <;> simp only [layoutRom, header, layoutBody, List.cons_append, List.nil_append, List.mem_cons,
    List.not_mem_nil, or_false] at hd
  all_goals (repeat' (rcases hd with rfl | hd))
  all_goals cases ht
  all_goals simp only [Desc.offset, tailBits, encodedLen, tailCap, Config.capT6, Config.capT8, Config.capT12,
    Config.capT14]
  all_goals omega

end Sys2Proof.Machine
end

