-- ==== Sys2Proof/Laws/PerInstr.lean ====
section
/-! SUPPORT. One lemma for each constructor of `Instr`, family `Encoding`: a command's own word matches its row of
spec/opcode_table.json and sets no bit the command does not read. -/

namespace Sys2Proof.Laws.Encoding

open Sys2Proof Sys2Proof.Machine

/-- `mask` of the command's row of spec/opcode_table.json (30_encoding.md R123). -/
def rowMask : Instr → Word
  | .srst => 0x40000000#32
  | .nop | .getu | .gets | .setu | .sets | .bufclr | .a2v | .v2a | .armdec | .armenc | .t2v | .v2t
  | .txtdec _ | .txtenc _ | .cksum | .frame | .unframe | .msgdec _ _ | .msgenc _ _ | .sog2kmh | .kmh2sog
  | .tsresolve => 0xC00000FF#32

/-- `match` of the command's row of spec/opcode_table.json. -/
def rowMatch : Instr → Word
  | .nop => 0x80000000#32
  | .getu => 0x80000001#32
  | .gets => 0x80000002#32
  | .setu => 0x80000003#32
  | .sets => 0x80000004#32
  | .bufclr => 0x80000005#32
  | .a2v => 0x80000008#32
  | .v2a => 0x80000009#32
  | .armdec => 0x8000000A#32
  | .armenc => 0x8000000B#32
  | .t2v => 0x8000000C#32
  | .v2t => 0x8000000D#32
  | .txtdec _ => 0x8000000E#32
  | .txtenc _ => 0x8000000F#32
  | .cksum => 0x80000010#32
  | .frame => 0x80000011#32
  | .unframe => 0x80000012#32
  | .msgdec _ _ => 0x80000020#32
  | .msgenc _ _ => 0x80000021#32
  | .sog2kmh => 0x80000030#32
  | .kmh2sog => 0x80000031#32
  | .tsresolve => 0x80000032#32
  | .srst => 0x40000000#32

/-- The command's own word matches its row, and every bit it does not read is 0 (R110, R123). -/
def Statement (i : Instr) : Prop := encode i &&& rowMask i = rowMatch i ∧ encode i &&& ~~~usedBits i = 0

/-- A launch word's fixed bits, whatever its MTYPE. -/
theorem mtype_word (x : BitVec 6) (v : BitVec 1) :
    (launchWord 0x20 x 0 v &&& 0xC00000FF#32 = 0x80000020#32 ∧ launchWord 0x20 x 0 v &&& ~~~0xC0103FFF#32 = 0) ∧
    (launchWord 0x21 x 0 v &&& 0xC00000FF#32 = 0x80000021#32 ∧ launchWord 0x21 x 0 v &&& ~~~0xC0103FFF#32 = 0) := by
  revert x v
  decide

theorem nop : Statement .nop := ⟨by decide, by decide⟩

theorem getu : Statement .getu := ⟨by decide, by decide⟩

theorem gets : Statement .gets := ⟨by decide, by decide⟩

theorem setu : Statement .setu := ⟨by decide, by decide⟩

theorem sets : Statement .sets := ⟨by decide, by decide⟩

theorem bufclr : Statement .bufclr := ⟨by decide, by decide⟩

theorem a2v : Statement .a2v := ⟨by decide, by decide⟩

theorem v2a : Statement .v2a := ⟨by decide, by decide⟩

theorem armdec : Statement .armdec := ⟨by decide, by decide⟩

theorem armenc : Statement .armenc := ⟨by decide, by decide⟩

theorem t2v : Statement .t2v := ⟨by decide, by decide⟩

theorem v2t : Statement .v2t := ⟨by decide, by decide⟩

theorem txtdec (k : Sel) : Statement (.txtdec k) := by cases k <;> exact ⟨by decide, by decide⟩

theorem txtenc (k : Sel) : Statement (.txtenc k) := by cases k <;> exact ⟨by decide, by decide⟩

theorem cksum : Statement .cksum := ⟨by decide, by decide⟩

theorem frame : Statement .frame := ⟨by decide, by decide⟩

theorem unframe : Statement .unframe := ⟨by decide, by decide⟩

theorem msgdec (m : Nat) (u : Units) : Statement (.msgdec m u) := (mtype_word (BitVec.ofNat 6 m) (encodeUnits u)).1

theorem msgenc (m : Nat) (u : Units) : Statement (.msgenc m u) := (mtype_word (BitVec.ofNat 6 m) (encodeUnits u)).2

theorem sog2kmh : Statement .sog2kmh := ⟨by decide, by decide⟩

theorem kmh2sog : Statement .kmh2sog := ⟨by decide, by decide⟩

theorem tsresolve : Statement .tsresolve := ⟨by decide, by decide⟩

theorem srst : Statement .srst := ⟨by decide, by decide⟩

end Sys2Proof.Laws.Encoding
end

