-- ==== Sys2Proof/Laws/Scaling.lean ====
section
/-! SUPPORT. What TSRESOLVE's backfills leave (44_scaling_time.md R286). -/

namespace Sys2Proof.Machine

open Sys2Proof

theorem readRec_backfill (g : Bool) (i j : Fin 32) (v : Word) (s : State) :
    readRec (backfill g i v s) j = if g = true ∧ i = j then v else readRec s j := by
  cases g
  · simp [backfill]
  · simp only [backfill, if_true, true_and]
    exact readRec_writeRec i j v s

/-- A register after all six backfills. -/
theorem readRec_backfillAll (s : State) (j : Fin 32) :
    readRec (backfillAll s) j =
      if secondGuard s = true ∧ 8 = j then s.now1.second.setWidth 32
      else if minuteGuard s = true ∧ 7 = j then s.now1.minute.setWidth 32
      else if decide (readRec s 6 = 24) = true ∧ 6 = j then s.now1.hour.setWidth 32
      else if decide (readRec s 5 = 0) = true ∧ 5 = j then s.now0.day.setWidth 32
      else if decide (readRec s 4 = 0) = true ∧ 4 = j then s.now0.month.setWidth 32
      else if decide (readRec s 3 = 0) = true ∧ 3 = j then s.now0.year.setWidth 32
      else readRec s j := by
  rw [backfillAll, readRec_backfill, readRec_backfill, readRec_backfill, readRec_backfill, readRec_backfill,
    readRec_backfill]

/-- The backfills write REC alone. -/
theorem backfillAll_eq (s : State) : backfillAll s = { s with recs := (backfillAll s).recs } := by
  have h : ∀ (g : Bool) (i : Fin 32) (v : Word) (t : State), t = { s with recs := t.recs } →
      backfill g i v t = { s with recs := (backfill g i v t).recs } := fun g i v t h => by
    cases g
    · exact h
    · show writeRec i v t = { s with recs := t.recs.set i v }
      rw [writeRec]
      conv_lhs => rw [h]
  exact h _ _ _ _ (h _ _ _ _ (h _ _ _ _ (h _ _ _ _ (h _ _ _ _ (h _ _ _ _ rfl)))))

/-- The mask's word, as a number (R286). -/
theorem maskWord_eq (y mo d h mi sec : Bool) :
    (maskBit y 0x01 ||| maskBit mo 0x02 ||| maskBit d 0x04 ||| maskBit h 0x08 ||| maskBit mi 0x10 |||
      maskBit sec 0x20) <<< 8 =
      BitVec.ofNat 32 (256 * ((if y then 1 else 0) + (if mo then 2 else 0) + (if d then 4 else 0) +
        (if h then 8 else 0) + (if mi then 16 else 0) + (if sec then 32 else 0))) := by
  revert y mo d h mi sec
  decide

end Sys2Proof.Machine
end

