-- ==== Sys2Proof/Tests/Slice0.lean ====
section
/-! SUPPORT. The model's own tests: the checks of WellFormed, every command's word, one step or one meaning on small states
with the expected values of the spec's examples, and for every statement with hypotheses a state and operands that meet
them (`hyp_…`). -/

namespace Sys2Proof.Tests

open Sys2Proof Sys2Proof.Machine

/-! ## WellFormed: MTYPE has 6 bits (30_encoding.md R112) -/

theorem test_wellFormed_msgdec : (Instr.msgdec 64 .wire).wellFormed = false ∧ (Instr.msgdec 63 .wire).wellFormed = true := by
  decide

theorem test_wellFormed_msgenc : (Instr.msgenc 64 .kmh).wellFormed = false ∧ (Instr.msgenc 0 .kmh).wellFormed = true := by
  decide

/-! ## Every constructor's word, from 30_encoding.md R110 and R111 -/

theorem test_decode_nop : decode 0b10000000000000000000000000000000#32 = .ok .nop := by decide

theorem test_decode_getu : decode 0b10000000000000000000000000000001#32 = .ok .getu := by decide

theorem test_decode_gets : decode 0b10000000000000000000000000000010#32 = .ok .gets := by decide

theorem test_decode_setu : decode 0b10000000000000000000000000000011#32 = .ok .setu := by decide

theorem test_decode_sets : decode 0b10000000000000000000000000000100#32 = .ok .sets := by decide

theorem test_decode_bufclr : decode 0b10000000000000000000000000000101#32 = .ok .bufclr := by decide

theorem test_decode_a2v : decode 0b10000000000000000000000000001000#32 = .ok .a2v := by decide

theorem test_decode_v2a : decode 0b10000000000000000000000000001001#32 = .ok .v2a := by decide

theorem test_decode_armdec : decode 0b10000000000000000000000000001010#32 = .ok .armdec := by decide

theorem test_decode_armenc : decode 0b10000000000000000000000000001011#32 = .ok .armenc := by decide

theorem test_decode_t2v : decode 0b10000000000000000000000000001100#32 = .ok .t2v := by decide

theorem test_decode_v2t : decode 0b10000000000000000000000000001101#32 = .ok .v2t := by decide

theorem test_decode_txtdec : decode 0b10000000000000100000000000001110#32 = .ok (.txtdec .str2) := by decide

theorem test_decode_txtenc : decode 0b10000000000000110000000000001111#32 = .ok (.txtenc .pay) := by decide

theorem test_decode_cksum : decode 0b10000000000000000000000000010000#32 = .ok .cksum := by decide

theorem test_decode_frame : decode 0b10000000000000000000000000010001#32 = .ok .frame := by decide

theorem test_decode_unframe : decode 0b10000000000000000000000000010010#32 = .ok .unframe := by decide

theorem test_decode_msgdec : decode 0b10000000000000000001001100100000#32 = .ok (.msgdec 19 .wire) := by decide

theorem test_decode_msgenc : decode 0b10000000000100000000000100100001#32 = .ok (.msgenc 1 .kmh) := by decide

theorem test_decode_sog2kmh : decode 0b10000000000000000000000000110000#32 = .ok .sog2kmh := by decide

theorem test_decode_kmh2sog : decode 0b10000000000000000000000000110001#32 = .ok .kmh2sog := by decide

theorem test_decode_tsresolve : decode 0b10000000000000000000000000110010#32 = .ok .tsresolve := by decide

theorem test_decode_srst : decode 0b01000000000000000000000000000000#32 = .ok .srst := by decide

/-- R123: SRST wins over START; the reserved bits and the fields of other operations are don't-care (R112, R113). -/
theorem test_decode_free_bits : decode 0xFFFFFFFF#32 = .ok .srst ∧ decode 0xBFFFFF01#32 = .ok .getu ∧
    decode 0xBFFFCF20#32 = .ok (.msgdec 15 .kmh) := by decide

/-- R113, R123: a reserved OP and a store are no command, by name. -/
theorem test_decode_rejects : decode 0x80000006#32 = .error (.reservedOp 0x06) ∧ decode 0x3FFFFFFF#32 = .error .noCommand := by
  decide

/-! ## Small states -/

/-- The state an outcome holds. -/
def after : Host.Outcome State Fault Refusal → State
  | .next t => t
  | .fault _ => State.reset
  | .refused _ => State.reset

/-- The state after a command's meaning. -/
def ran (i : Instr) (s : State) : State := after (exec i s)

/-- The state after one step. -/
def stepped (s : State) : State := after (step s)

/-- Idle, with a schedule. -/
def idle (ts : List Turn) : State := { State.reset with turns := ts }

/-- Running the operation of a launch word, with a schedule. -/
def running (w : Word) (ts : List Turn) : State := { launch w State.reset with turns := ts }

/-- START, WIDTH and VALUE set. -/
def operands (a w v : Word) (s : State) : State := { s with start := a, width := w, value := v }

/-- BUF = `A5 3C`, BUF_LEN 2 (vector BA-1). -/
def ba1 : State := loadBuf [0xA5, 0x3C] State.reset

/-- TXT holds the bytes. -/
def txt (x : List Byte) : State := loadTxt x State.reset

/-- RESULT after a command. -/
def result (i : Instr) (s : State) : Word := (ran i s).result

/-- STATUS and ERRINFO after a command. -/
def status (i : Instr) (s : State) : Word × Word := ((ran i s).status.toWord, (ran i s).errinfo)

/-! ## The commands, with the vectors of 95_test_vectors.md -/

/-- BA-22. -/
theorem test_nop : (ran .nop ba1).status.toWord = 0x2 ∧ bufContents (ran .nop ba1) = [0xA5, 0x3C] := by decide

/-- BA-1, BA-13. -/
theorem test_getu : result .getu (operands 4 8 0 ba1) = 0x53 ∧ result .getu (operands 0 16 0 ba1) = 0xA53C := by decide

/-- BA-14..BA-16. -/
theorem test_getu_checks : status .getu (operands 1 16 0 ba1) = (0x306, 1) ∧
    status .getu (operands 0 0 0 ba1) = (0x206, 0) ∧ status .getu (operands 0 33 0 ba1) = (0x206, 33) := by decide

/-- BA-2, BA-4. -/
theorem test_gets : result .gets (operands 0 4 0 ba1) = 0xFFFFFFFA ∧ result .gets (operands 0 1 0 ba1) = 0xFFFFFFFF := by
  decide

/-- BA-7. -/
theorem test_gets_full_width :
    result .gets (operands 4 32 0 (loadBuf [0x12, 0x34, 0x56, 0x78, 0x9A] State.reset)) = 0x23456789 := by decide

/-- BA-9. -/
theorem test_setu : bufContents (ran .setu (operands 4 8 0xFF ba1)) = [0xAF, 0xFC] := by decide

/-- BA-18: the sum does not wrap. -/
theorem test_setu_range : status .setu (operands 0xFFFFFFFF 32 0 ba1) = (0x306, 0xFFFFFFFF) := by decide

/-- BA-10. -/
theorem test_sets : bufContents (ran .sets (operands 2 5 0xFFFFFFFD (loadBuf [0, 0] State.reset))) = [0x3A, 0x00] := by
  decide

/-- BA-20 and its limit: 1024 is legal. -/
theorem test_bufclr : bufByte (ran .bufclr (operands 0 0 1024 ba1)).mem 1 = 0 ∧
    (ran .bufclr (operands 0 0 1024 ba1)).bufLen = 1024 := by decide

/-- BA-21. -/
theorem test_bufclr_overflow : status .bufclr (operands 0 0 1025 ba1) = (0x506, 1025) ∧
    bufContents (ran .bufclr (operands 0 0 1025 ba1)) = [0xA5, 0x3C] := by decide

/-- AT-2, AT-3. -/
theorem test_a2v : result .a2v (operands 0 0 0x60 State.reset) = 40 ∧
    status .a2v (operands 0 0 0x58 State.reset) = (0x406, 0x00580000) := by decide

/-- AT-4: ARMOR_LAX. -/
theorem test_a2v_lax :
    result .a2v { operands 0 0 0x00 State.reset with cfg := ⟨true, false, false, false⟩ } = 16 := by decide

/-- AT-6. -/
theorem test_v2a : result .v2a (operands 0 0 39 State.reset) = 0x57 ∧ result .v2a (operands 0 0 64 State.reset) = 0x30 := by
  decide

/-- AT-14: `0@8` gives 3 bytes. -/
theorem test_armdec : bufContents (ran .armdec (txt [0x30, 0x40, 0x38])) = [0x01, 0x02, 0x00] := by decide

/-- AT-19. -/
theorem test_armdec_char : status .armdec (txt [0x31, 0x32, 0x58, 0x34]) = (0x406, 0x00580002) := by decide

/-- AT-10, ARMOR_MIN 0. -/
theorem test_armenc : txtContents (ran .armenc (loadBuf [1, 2] State.reset)) = [0x30, 0x40, 0x38, 0x30] := by decide

/-- AT-10, ARMOR_MIN 1. -/
theorem test_armenc_min :
    txtContents (ran .armenc { loadBuf [1, 2] State.reset with cfg := ⟨false, true, false, false⟩ }) =
      [0x30, 0x40, 0x38] := by decide

/-- AT-7. -/
theorem test_t2v : result .t2v (operands 0 0 0x61 State.reset) = 1 ∧ result .t2v (operands 0 0 0x60 State.reset) = 63 := by
  decide

/-- AT-8. -/
theorem test_v2t : result .v2t (operands 0 0 31 State.reset) = 0x5F ∧ result .v2t (operands 0 0 32 State.reset) = 0x20 := by
  decide

/-- AT-23. -/
theorem test_txtdec : strContents (ran (.txtdec .str0) (operands 0 24 0 (loadBuf [0x04, 0x28, 0x20] State.reset))) .str0 =
    [0x41, 0x42] ∧ result (.txtdec .str0) (operands 0 24 0 (loadBuf [0x04, 0x28, 0x20] State.reset)) = 2 := by decide

/-- AT-29: 33 characters fit PAY, not a string register. -/
theorem test_txtdec_capacity :
    status (.txtdec .str0) { operands 0 198 0 State.reset with bufLen := 25 } = (0x506, 33) ∧
      (ran (.txtdec .pay) { operands 0 198 0 State.reset with bufLen := 25 }).payLen = 33 := by decide

/-- AT-22: upcased and padded. -/
theorem test_txtenc : bufContents (ran (.txtenc .str0)
    { operands 0 24 0 (loadStr .str0 [0x61, 0x62, 0x31] State.reset) with bufLen := 3 }) = [0x04, 0x2C, 0x60] := by decide

/-- AT-26: an absent string is `UNKNOWN`, and the bits past the last whole character stay. -/
theorem test_txtenc_unknown : bufContents (ran (.txtenc .str0)
    (operands 0 41 0 (loadBuf [0xFF, 0xFF, 0xFF, 0xFF, 0xFF, 0xFF] State.reset))) =
      [0x54, 0xE2, 0xCE, 0x3D, 0x7F, 0xFF] := by decide

/-- CK-3, CK-6. -/
theorem test_cksum : result .cksum State.reset = 0x00303000 ∧
    result .cksum (txt [0x24, 0x41, 0x2A, 0x42, 0x2A, 0x43]) = 0x00313441 := by decide

/-- FR-2. -/
theorem test_frame : result .frame (loadBuf [0x04] State.reset) = 0x00373227 ∧
    (txtContents (ran .frame (loadBuf [0x04] State.reset))).drop 13 =
      [0x2C, 0x31, 0x30, 0x30, 0x30, 0x2C, 0x30, 0x2A, 0x32, 0x37, 0x0D, 0x0A] := by decide

/-- UF-7. -/
theorem test_unframe :
    result .unframe (txt [0x24, 0x47, 0x50, 0x58, 0x58, 0x58, 0x2C, 0x61, 0x2C, 0x62, 0x2C, 0x63, 0x2C, 0x64, 0x2C, 0x31,
      0x2C, 0x65]) = 0x0001000F := by decide

/-- UF-5: four commas. -/
theorem test_unframe_format :
    status .unframe (txt [0x21, 0x41, 0x49, 0x56, 0x44, 0x4D, 0x2C, 0x31, 0x2C, 0x31, 0x2C, 0x2C, 0x41]) = (0x606, 4) := by
  decide

/-- MC-1's 21 bytes. -/
def mc1Bytes : List Byte :=
  [0x04, 0x36, 0x1F, 0x64, 0xA0, 0x00, 0x03, 0x57, 0xEB, 0x6D, 0x98, 0x1B, 0xAF, 0xA5, 0x86, 0x88, 0x53, 0x80, 0x00, 0x00,
    0x00]

/-- MC-1's record. -/
def mc1Record : State :=
  writeRec 2 0x0D87D928 (writeRec 5 10 (writeRec 7 0xFFD6DB30 (writeRec 8 0x01BAFA58 (writeRec 9 1672 (writeRec 10 167
    State.reset)))))

/-- MC-1, step 4. -/
theorem test_msgdec : [0, 2, 5, 7, 8, 9, 10].map (readRec (ran (.msgdec 0 .kmh) (loadBuf mc1Bytes State.reset))) =
    [1, 0x0D87D928, 9, 0xFFD6DB30, 0x01BAFA58, 1672, 167] := by decide +kernel

/-- MA-2 and MA-4's order: SHORT before the id. -/
theorem test_msgdec_absent :
    (status (.msgdec 0 .wire) (loadBuf (mc1Bytes.take 20) State.reset)).1 = 0x200A ∧
      (status (.msgdec 5 .wire) (loadBuf mc1Bytes State.reset)).1 = 0x200A ∧
      (status (.msgdec 18 .wire) (loadBuf mc1Bytes State.reset)).1 = 0x300A := by decide +kernel

/-- MC-1, step 1. -/
theorem test_msgenc : bufContents (ran (.msgenc 1 .kmh) mc1Record) = mc1Bytes := by decide +kernel

/-- MD-8: the tail is upcased and padded to 4 characters. -/
theorem test_msgenc_tail : bufContents (ran (.msgenc 14 .wire) (writeRec 2 111222333
    (loadPay [0x48, 0x65, 0x6C, 0x6C, 0x6F] State.reset))) =
      [0x38, 0x1A, 0x84, 0x78, 0xF4, 0x20, 0x53, 0x0C, 0x3E, 0x08, 0x20] := by decide +kernel

/-- R284's corner cases. -/
theorem test_sog2kmh : result .sog2kmh (operands 0 0 1023 State.reset) = 189 ∧
    result .sog2kmh (operands 0 0 0xFFFFFFFF State.reset) = 795427943 := by decide

/-- R285's corner cases. -/
theorem test_kmh2sog : result .kmh2sog (operands 0 0 190 State.reset) = 1025 ∧
    result .kmh2sog (operands 0 0 0xFFFFFFFF State.reset) = 1716131635 := by decide

/-- The record of R286's example, with NOW0 and NOW1. -/
def timestamped : State :=
  { writeRec 3 2024 (writeRec 5 15 (writeRec 6 24 (writeRec 7 30 (writeRec 8 60 State.reset)))) with
    now0 := ⟨2024, 7, 11⟩, now1 := ⟨9, 14, 45⟩ }

/-- R286's example, BS_FIX 0. -/
theorem test_tsresolve : result .tsresolve timestamped = 0x00000A00 ∧
    [4, 6, 8].map (readRec (ran .tsresolve timestamped)) = [7, 9, 60] := by decide

/-- R286's example, BS_FIX 1. -/
theorem test_tsresolve_fixed :
    result .tsresolve { timestamped with cfg := ⟨false, false, true, false⟩ } = 0x00002A00 ∧
      readRec (ran .tsresolve { timestamped with cfg := ⟨false, false, true, false⟩ }) 8 = 45 := by decide

/-- R342: a soft reset while BUSY, with START set: CSRs cleared, the arrays unchanged. -/
theorem test_srst : (stepped { ba1 with status := ba1.status.launched, turns := [.host (.write .w32 0x004 0xC0000001)] }) =
    { ba1 with bufLen := 0, resp := .done } := by decide

/-! ## The bus -/

/-- R85: a 32-bit host read of BUF is little-endian. -/
theorem test_read_lanes : (stepped { loadBuf mc1Bytes State.reset with turns := [.host (.read .w32 0x400)] }).resp =
    .data 0x641F3604 := by decide

/-- R83: an 8-bit access to a CSR is refused. -/
theorem test_refused : (stepped (idle [.host (.write .w8 0x010 1)])) = { idle [] with resp := .error 0 } := by decide

/-- R352(d): a second launch while BUSY is dropped and sets WERR. -/
theorem test_dropped :
    (stepped (running 0x80000001 [.host (.write .w32 0x004 0x80000002)])).status.toWord = 0x11 := by decide

/-- R43, R39: lengths are clamped. -/
theorem test_clamp : (stepped (idle [.host (.write .w32 0x030 0x13F)])).str0 = ⟨32, true⟩ ∧
    (stepped (idle [.host (.write .w32 0x020 0xFFFFFFFF)])).bufLen = 1024 := by decide

/-- The fetch: a placed word is the very next step's command. -/
theorem test_withFetchWord : (stepped (State.reset.withFetchWord 32 0x80000011)).txtLen = 21 ∧
    (stepped (State.reset.withFetchWord 32 0x40000000)) = { State.reset with resp := .done } := by decide

/-- R82: an 8-bit access moves one byte; R80: an address outside the aperture is not the block's. -/
theorem test_byte_access : (stepped { ba1 with turns := [.host (.read .w8 0x401)] }).resp = .data 0x3C ∧
    bufContents (stepped { ba1 with turns := [.host (.write .w8 0x401 0xFFFFFF07)] }) = [0xA5, 0x07] ∧
    stepped { ba1 with turns := [.host (.write .w8 0x2401 7)] } = { ba1 with resp := .noDevice } := by decide

/-- R121: the expansions of `op` and `getu`, a `wait` polling at least once; P4's `expect BUF[0]`, an 8-bit read. -/
theorem test_expansions : asmExpectElement .buf 0 = [.read .w8 0x400] ∧ asmOp 0x0F 0 3 = [.write .w32 0x004 0x8003000F] ∧
    asmGetu 4 8 0 = [.write .w32 0x010 4, .write .w32 0x014 8, .write .w32 0x004 0x80000001, .read .w32 0x008] := by decide

/-! ## A state and operands that meet each statement's hypotheses, clause by clause -/

/-- A launch word of every OP: the clauses `LaunchesOp op w → …` of the operations' statements. -/
theorem hyp_LaunchesOp : ∀ op : BitVec 8, LaunchesOp op (launchWord op 0 0 0) := by
  unfold LaunchesOp
  decide +kernel

theorem hyp_DecodeOfEncodeIsIdentity : (Instr.msgenc 63 .kmh).wellFormed = true := by decide

theorem hyp_DecodedWordCarriesItsFields : decode 0xBFFFFF21#32 = .ok (.msgenc 63 .kmh) := by decide

/-- R113's ranges at their ends. -/
theorem hyp_DecoderTellsCommandsApart :
    (0x40000000#32 &&& 0x40000000#32 ≠ 0) ∧ (0x3FFFFFFF#32 &&& 0xC0000000#32 = 0) ∧
      (0x80000000#32 &&& 0xC0000000#32 = 0x80000000#32) ∧
      (∀ op ∈ ([0x06, 0x07, 0x13, 0x1F, 0x22, 0x2F, 0x33, 0xFF] : List (BitVec 8)), ReservedOp op) ∧
      (∀ op ∈ ([0x00, 0x05, 0x08, 0x12, 0x20, 0x21, 0x30, 0x32] : List (BitVec 8)), ¬ReservedOp op) := by
  unfold ReservedOp
  decide

/-- An operation with operands, with the operands of its row; one without, whatever they are. -/
theorem hyp_OpLinesEncodeTheirCommands :
    (opcode (.msgdec 63 .kmh) = some 0x20 ∧ (63#6).toNat = 63 ∧ (1#1, Units.kmh) ∈ [(0#1, Units.wire), (1#1, .kmh)]) ∧
      opcode (.txtenc .pay) = some 0x0F ∧ opcode .getu = some 0x01 := by decide

theorem hyp_CtrlWritesLaunchOrStore :
    ((idle [.host (.write .w32 0x004 0xBFFFFFFF)]).status.busy = false ∧ (0xBFFFFFFF#32).getLsbD 31 = true ∧
      (0xBFFFFFFF#32).getLsbD 30 = false) ∧
    ((idle [.host (.write .w32 0x004 0x3FFFFFFF)]).status.busy = false ∧ (0x3FFFFFFF#32).getLsbD 31 = false) ∧
    (running 0x80000000 [.host (.write .w32 0x004 0x80000001)]).status.busy = true := by decide

theorem hyp_StepRunsTheDecodedCommand :
    (decode 0x80000021#32 = .ok (.msgenc 0 .wire) ∧ (running 0x80000021 [.engineComplete]).ctrl = ctrlOf 0x80000021 ∧
      (running 0x80000021 [.engineComplete]).status.busy = true ∧ (running 0x80000021 []).turns = []) ∧
    (decode 0xFFFFFFFF#32 = .ok .srst ∧ (idle [.host (.write .w32 0x004 0xFFFFFFFF)]).rstN = true) := by decide

theorem hyp_ReservedOpcodeCompletesWithBadOp :
    (running 0x800000FF []).status.busy = true ∧ ReservedOp (running 0x800000FF []).ctrl.op ∧
      ReservedOp (running 0x80000006 [.engineComplete]).ctrl.op := by
  unfold ReservedOp
  decide

theorem hyp_EngineProgressIsHidden :
    (running 0x80000121 [.engineAdvance]).status.busy = true ∧ (idle [.engineAdvance]).status.busy = false ∧
      (idle [.engineComplete]).status.busy = false := by decide

/-- MSGENC 1 in each phase; XFER at the last but one and the last of its 14 descriptors. MSGENC 0 and MSGENC 7, whose
layouts are none. -/
theorem hyp_EncoderWalksItsLayout :
    (decode 0x80000121#32 = .ok (.msgenc 1 .wire) ∧ (running 0x80000121 [.engineAdvance]).ctrl = ctrlOf 0x80000121 ∧
      layoutOf 1 = some .lA ∧ (running 0x80000121 [.engineAdvance]).eng.fsm = .check ∧
      12 + 1 < ((layoutRom .lA).filter fun d => !d.isTail).length ∧
      ((layoutRom .lA).filter fun d => !d.isTail).length ≤ 13 + 1 ∧
      (∀ f ∈ [Fsm.check, .xfer, .tail, .commit],
        ({ running 0x80000121 [.engineAdvance] with eng := ⟨.run, f, 13⟩ }).status.busy = true)) ∧
    (decode 0x80000021#32 = .ok (.msgenc 0 .wire) ∧ layoutOf 0 = none ∧
      (running 0x80000021 [.engineAdvance]).ctrl = ctrlOf 0x80000021) ∧
    (decode 0x80000721#32 = .ok (.msgenc 7 .wire) ∧ layoutOf 7 = none ∧
      (running 0x80000721 [.engineAdvance]).ctrl = ctrlOf 0x80000721) := by decide

theorem hyp_RunningOperationCompletes :
    (running 0x80000001 []).turns = [] ∧ (running 0x80000001 []).status.busy = true := by decide

theorem hyp_RunningOperationSeesItsLaunchState :
    step (running 0x80000001 [.host (.write .w32 0x010 7)]) =
        .next { running 0x80000001 [] with resp := .done, status := ⟨true, false, false, false, true, .none, .none⟩ } ∧
      (running 0x80000001 []).status.busy = true := ⟨by rfl, by decide⟩

/-- Each clause at the ends of its ranges. -/
theorem hyp_WritesWhileBusy :
    (running 0x80000000 []).rstN = true ∧ (running 0x80000000 []).status.busy = true ∧
      (∀ off ∈ [0x000, 0x004, 0x008, 0x00C, 0x010, 0x044, 0x048, 0x0FC, 0x100, 0x1DC, 0x1E0, 0x3FC, 0x400, 0x17FC, 0x1800,
        0x1FFC], off % 4 = 0 ∧ off < 0x2000) ∧
      (∀ off ∈ [0x180, 0x1DF, 0x1E0, 0x3FF, 0x400, 0x17FF, 0x1800, 0x1FFF], 0x180 ≤ off ∧ off < 0x2000) ∧
      (0x40000000#32).getLsbD 30 = true ∧ (0x80000000#32).getLsbD 30 = false := by decide

/-- A 32-bit access off alignment, an 8-bit one below 0x180, and the widths never accepted. -/
theorem hyp_RefusedAccessChangesNothing :
    (idle [.host (.read .w32 0x1FFE)]).rstN = true ∧ (0x1FFE : Nat) % 4 ≠ 0 ∧ (0x17F : Nat) < 0x180 ∧
      Width.w16 ≠ .w32 ∧ Width.w16 ≠ .w8 ∧ Width.w64 ≠ .w32 ∧ Width.w64 ≠ .w8 := by decide

theorem hyp_ReadsHaveNoSideEffects :
    (idle [.host (.read .w32 0x2000)]).turns = [.host (.read .w32 0x2000)] ∧
      (idle [.host (.read .w32 0x000)]).status.busy = false := by decide

/-- Idle at every register; running at those that still read; REC[0] and REC[31]; the reserved range's ends; full
lengths. -/
theorem hyp_RegisterReads :
    (∀ off ∈ [0x000, 0x004, 0x008, 0x00C, 0x010, 0x014, 0x018, 0x01C, 0x020, 0x024, 0x028, 0x02C, 0x030, 0x034, 0x038,
      0x03C, 0x040, 0x044, 0x048, 0x0FC, 0x100 + 4 * (0 : Fin 32).val, 0x100 + 4 * (31 : Fin 32).val],
      off % 4 = 0 ∧ off < 0x180) ∧ (idle []).status.busy = false ∧ (idle []).rstN = true ∧
      (running 0x80000000 []).status.busy = true ∧
      ({ idle [] with bufLen := 1024, txtLen := 2048, payLen := 2048, str0 := ⟨32, true⟩ }).bufLen ≤ 1024 := by decide

theorem hyp_ReadsWhileBusyAreFreeDraws :
    (running 0x80000001 []).rstN = true ∧ (running 0x80000001 []).status.busy = true ∧
      (∀ off ∈ [0x01C, 0x038, 0x100, 0x1DC, 0x400, 0x17FC], off % 4 = 0) ∧
      (∀ off ∈ [0x180, 0x1DF, 0x400, 0x17FF], (0x180 ≤ off ∧ off < 0x1E0) ∨ (0x400 ≤ off ∧ off < 0x1800)) := by decide

theorem hyp_RegisterWrites :
    (idle [.host (.write .w32 0x024 0xFFFFFFFF)]).rstN = true ∧
      (idle [.host (.write .w32 0x024 0xFFFFFFFF)]).status.busy = false ∧
      (idle [.host (.write .w32 (0x100 + 4 * (31 : Fin 32).val) 1)]).turns = [.host (.write .w32 0x17C 1)] := by decide

theorem hyp_WordLanesAreLittleEndian :
    ba1.rstN = true ∧ ba1.status.busy = false ∧ Memory.wf ba1.mem = true ∧
      (∀ off ∈ [0x180, 0x1DC, 0x400, 0x17FC],
        off % 4 = 0 ∧ (0x180 ≤ off ∧ off < 0x1E0 ∨ 0x400 ≤ off ∧ off < 0x1800)) ∧
      (∀ off ∈ [0x180, 0x1DF, 0x400, 0x17FF], 0x180 ≤ off ∧ off < 0x1E0 ∨ 0x400 ≤ off ∧ off < 0x1800) := by decide

theorem hyp_ReservedAddressesHoldNothing :
    (running 0x80000000 []).rstN = true ∧ (∀ off ∈ [0x048, 0x0FC, 0x1E0, 0x3FC, 0x1800, 0x1FFC], off % 4 = 0) ∧
      (∀ off ∈ [0x1E0, 0x3FF, 0x1800, 0x1FFF], 0x180 ≤ off) := by decide

theorem hyp_InterruptLineFollowsStatus : (idle [.host (.write .w32 0x008 0x16)]).rstN = true := by decide

theorem hyp_StatusWordsOfCompletions : State.reset.status.werr = false := by decide

theorem hyp_SoftResetClearsRegistersOnly :
    (0xC0000000#32).getLsbD 30 = true ∧ (running 0x80000001 [.host (.write .w32 0x004 0xC0000000)]).rstN = true := by
  decide

theorem hyp_PowerOnResetLeavesResetState :
    Memory.wf [(0x180, 1), (0x17FF, 2)] = true ∧
      Memory.inArrays [(0x180, 1), (0x17FF, 2)] = true := by decide

/-- A powered-on state whose unspecified contents are not the model's own choice. -/
theorem hyp_ResetStateMeetsTheInvariant :
    ({ State.reset with recs := Vector.replicate 32 7, mem := [(0x400, 9)] } : State).PoweredOn := by
  unfold State.PoweredOn
  decide

theorem hyp_FirstCommandsAfterReset :
    ({ State.reset with mem := [(0x400, 9), (0x800, 9)] } : State).PoweredOn := by
  unfold State.PoweredOn
  decide

theorem hyp_EveryOperationHasOneOutcome : Instr.tsresolve ≠ .srst := by decide

/-- For GetuReadsAnUnsignedField, GetsReadsASignedField and SetuAndSetsWriteAField: R140's checks at their edges. -/
theorem hyp_FieldOperations :
    (operands 0 0 0 ba1).width.toNat < 1 ∧ 32 < (operands 0 33 0 ba1).width.toNat ∧
      8 * ba1.bufLen < (operands 1 16 0 ba1).start.toNat + (operands 1 16 0 ba1).width.toNat ∧
      (operands 0 16 0 ba1).start.toNat + (operands 0 16 0 ba1).width.toNat ≤ 8 * ba1.bufLen ∧
      (operands 15 1 0 ba1).start.toNat + (operands 15 1 0 ba1).width.toNat ≤ 8 * ba1.bufLen ∧
      Memory.wf ba1.mem = true := by decide

theorem hyp_BufclrGivesAFreshBuffer :
    1024 < (operands 0 0 1025 ba1).value.toNat ∧ (operands 0 0 1024 ba1).value.toNat ≤ 1024 := by decide

/-- A signed value at the field's least one, and a disjoint field next to it. -/
theorem hyp_FieldsReadBackWhatWasWritten :
    Memory.wf ba1.mem = true ∧ (operands 4 8 0xFFFFFF80 ba1).start.toNat + 8 ≤ 8 * ba1.bufLen ∧
      -(2 ^ (8 - 1)) ≤ (0xFFFFFF80#32).toInt ∧ (0xFFFFFF80#32).toInt < 2 ^ (8 - 1) ∧
      (12#32).toNat + (4#32).toNat ≤ 8 * ba1.bufLen ∧ (4#32).toNat + 8 ≤ (12#32).toNat := by decide

/-- The ends of the alphabet's two runs, and their neighbours. -/
theorem hyp_A2vGivesTheArmorValue :
    (∀ c ∈ ([48, 87, 96, 119] : List Byte), IsArmor c) ∧ (∀ c ∈ ([47, 88, 95, 120] : List Byte), ¬IsArmor c) ∧
      State.reset.cfg.armorLax = false ∧ ({ State.reset with cfg := ⟨true, false, false, false⟩ } : State).cfg.armorLax = true
    := by
  unfold IsArmor
  decide

/-- TXT_LEN 1366 overflows, 1365 fits; a first invalid character at index 2; a text of the alphabet alone. -/
theorem hyp_ArmdecUnpacksTheText :
    (1024 < (6 * 1366 + 7) / 8 ∧ (6 * 1365 + 7) / 8 ≤ 1024) ∧
      (txtByte (txt [0x31, 0x32, 0x58, 0x34]).mem 2 = 0x58 ∧ ¬IsArmor (txtByte (txt [0x31, 0x32, 0x58, 0x34]).mem 2) ∧
        ∀ i < 2, IsArmor (txtByte (txt [0x31, 0x32, 0x58, 0x34]).mem i)) ∧
      ((∀ j < (txt [0x31, 0x77]).txtLen, IsArmor (txtByte (txt [0x31, 0x77]).mem j)) ∧
        Memory.wf (txt [0x31, 0x77]).mem = true) := by
  unfold IsArmor
  decide

/-- Also for FramedSentenceHasItsChecksum. -/
theorem hyp_ArmencPacksTheBuffer : Memory.wf ba1.mem = true := by decide

/-- Also for FrameUnframeRoundTrip: the largest buffer that comes back, and the full one. -/
theorem hyp_ArmorRoundTrip :
    Memory.wf ba1.mem = true ∧ ({ ba1 with bufLen := 1023 } : State).bufLen ≤ 1023 ∧
      ({ ba1 with bufLen := 1024 } : State).bufLen = 1024 := by decide

/-- A field past the buffer; 33 characters; 32 characters; PAY with more. -/
theorem hyp_TxtdecDecodesATextField :
    (8 * ba1.bufLen < (operands 0 17 0 ba1).start.toNat + (operands 0 17 0 ba1).width.toNat) ∧
      ((operands 0 198 0 State.reset).width.toNat ≤ 8 * 25 ∧ 32 < (operands 0 198 0 State.reset).width.toNat / 6 ∧
        Sel.str0 ≠ .pay) ∧
      (197 / 6 ≤ 32 ∧ Memory.wf ({ ba1 with bufLen := 25 } : State).mem = true) ∧
      (0x8001000E#32).extractLsb' 16 2 = 1#2 ∧ (1#2, Sel.str1) ∈ [(0#2, Sel.str0), (1#2, .str1), (2#2, .str2), (3#2, .pay)] := by decide

theorem hyp_TxtencEncodesATextField :
    (8 * ba1.bufLen < (operands 0 17 0 ba1).start.toNat + (operands 0 17 0 ba1).width.toNat) ∧
      ((operands 0 16 0 ba1).start.toNat + (operands 0 16 0 ba1).width.toNat ≤ 8 * ba1.bufLen ∧
        Memory.wf ba1.mem = true) ∧ (0x8003000F#32).extractLsb' 16 2 = 3#2 := by decide

/-- STR1 = `b?`, present: a lower-case letter and the character that stands for 63. -/
theorem hyp_TextRoundTrip :
    strPresent { loadStr .str1 [0x62, 0x3F] State.reset with bufLen := 25 } .str1 = true ∧
      (∀ c ∈ strText { loadStr .str1 [0x62, 0x3F] State.reset with bufLen := 25 } .str1, textNat c ≠ 63 ∨ c = 0x3F) ∧
      Memory.wf (loadStr .str1 [0x62, 0x3F] State.reset).mem = true ∧ 192 / 6 ≤ 32 ∧ 192 ≤ 8 * 25 := by decide

/-- A well-formed memory; both values of CFG.ARMOR_MIN. -/
theorem hyp_FrameWrapsTheBuffer : Memory.wf ba1.mem = true ∧ armorCount false ba1.bufLen = 4 ∧
    armorCount true ba1.bufLen = 3 := by decide

/-- UF-7's text: six commas, the payload at index 15. -/
def uf7 : State :=
  txt [0x24, 0x47, 0x50, 0x58, 0x58, 0x58, 0x2C, 0x61, 0x2C, 0x62, 0x2C, 0x63, 0x2C, 0x64, 0x2C, 0x31, 0x2C, 0x65]

/-- Too few commas; UF-7; the same payload with an invalid character; a payload of 1366 characters. -/
theorem hyp_UnframeUnpacksThePayload :
    ba1.txtLen ≤ 2048 ∧ ((List.range ba1.txtLen).filter fun j => txtByte ba1.mem j = 0x2C).length < 6 ∧
      (uf7.txtLen ≤ 2048 ∧ (List.range uf7.txtLen).filter (fun j => txtByte uf7.mem j = 0x2C) = [6, 8, 10, 12, 14, 16] ∧
        IsArmor (txtByte uf7.mem 15) ∧ Memory.wf uf7.mem = true ∧ (6 * (16 - 15) + 7) / 8 ≤ 1024) ∧
      ¬IsArmor (txtByte ({ uf7 with mem := writeByte uf7.mem 0x80F 0x58 } : State).mem 15) ∧
      1024 < (6 * (1381 - 15) + 7) / 8 := by
  unfold IsArmor
  decide

/-- A supported id, an unsupported one, and auto-dispatch on a known id, an unknown id and an empty buffer. -/
theorem hyp_MsgdecRejectsInOrder :
    (7 ≠ 0 ∧ layoutOf 7 = none) ∧ State.reset.bufLen = 0 ∧
      (fieldNat (loadBuf [0x1C] State.reset).mem 0 6 = 7 ∧ (loadBuf [0x1C] State.reset).bufLen ≠ 0) ∧
      (layoutOf 1 = some .lA ∧ (loadBuf (mc1Bytes.take 20) State.reset).bufLen < minBytes .lA) ∧
      (layoutOf 18 = some .l18 ∧ minBytes .l18 ≤ (loadBuf mc1Bytes State.reset).bufLen ∧
        fieldNat (loadBuf mc1Bytes State.reset).mem 0 6 ∉ acceptedIds false .l18) := by decide

theorem hyp_MsgdecDecodesTheRecord :
    Memory.wf (loadBuf mc1Bytes State.reset).mem = true ∧
      layoutOf (fieldNat (loadBuf mc1Bytes State.reset).mem 0 6) = some .lA ∧
      minBytes .lA ≤ (loadBuf mc1Bytes State.reset).bufLen ∧
      fieldNat (loadBuf mc1Bytes State.reset).mem 0 6 ∈ acceptedIds false .lA := by decide

theorem hyp_MsgencEncodesTheRecord : layoutOf 63 = none ∧ layoutOf 14 = some .l14 ∧ Memory.wf mc1Record.mem = true := by
  decide

/-- Both readings of CFG.AIR_ID13 for id 9, and another id. -/
theorem hyp_MessageRoundTrip :
    Memory.wf mc1Record.mem = true ∧ layoutOf 1 = some .lA ∧ ¬(1 = 9 ∧ mc1Record.cfg.airId13 = true) ∧
      ({ mc1Record with cfg := ⟨false, false, false, true⟩ } : State).cfg.airId13 = true ∧ layoutOf 9 = some .l9 ∧
      ¬(9 = 9 ∧ mc1Record.cfg.airId13 = true) := by decide

/-- 795427943 km/h is the largest speed whose wire value fits 32 bits; 189 km/h is in both clauses. -/
theorem hyp_SpeedRoundTripLosesAtMostOne :
    (795427943#32).toNat * 10000 / 1852 < 2 ^ 32 ∧ ¬(795427944#32).toNat * 10000 / 1852 < 2 ^ 32 ∧
      (189#32).toNat * 10000 / 1852 < 2 ^ 32 ∧ (189#32).toNat ≤ 189 := by decide

/-- The all-sentinel timestamp, and R286's example. -/
theorem hyp_TsresolveBackfillsTheTimestamp :
    [3, 4, 5, 6, 7, 8].map (fun i => (readRec (writeRec 6 24 (writeRec 7 60 (writeRec 8 60 State.reset))) i).toNat) =
        [0, 0, 0, 24, 60, 60] ∧
      [3, 4, 5, 6, 7, 8].map (fun i => (readRec timestamped i).toNat) = [2024, 0, 15, 24, 30, 60] := by decide

/-- The reset state meets every part of the invariant, and takes a step. -/
theorem hyp_EveryStepKeepsTheInvariant :
    (Memory.wf State.reset.mem = true ∧ Memory.inArrays State.reset.mem = true ∧
      (State.reset.eng.phase = .run ↔ State.reset.status.busy = true) ∧ State.reset.bufLen ≤ 1024 ∧
      State.reset.str0.len ≤ 32) ∧ step State.reset = .next State.reset := ⟨by decide, by rfl⟩

/-- The first offset outside the aperture. -/
theorem hyp_RunsNeverStop :
    (idle [.host (.write .w32 0x2000 7)]).turns = [.host (.write .w32 0x2000 7)] ∧
      0x2000 ≤ (Access.write .w32 0x2000 7).offset := by decide

end Sys2Proof.Tests
end

section
/-! SUPPORT. Every step keeps the invariant (O59): the clauses of `State.Inv` beside `DataInv`, and what each turn does to
them. -/

namespace Sys2Proof.Machine

open Sys2Proof

/-! ## The parts of the invariant -/

/-- The clauses of `State.Inv` about STATUS and ENG.phase (10_state.md R33, R34; 60_exceptions.md R300, R301, R316). -/
structure StatusInv (t : Status) (p : EngPhase) : Prop where
  running : p = .run ↔ t.busy = true
  launched : t.busy = true →
    t.done = false ∧ t.err = false ∧ t.absent = false ∧ t.ecode = .none ∧ t.areason = .none
  errCode : t.err = true → t.ecode ≠ .none
  absentReason : t.absent = true ↔ t.areason ≠ .none
  exclusive : t.absent = true → t.ecode = .none

theorem State.Inv.statusInv {s : State} (h : s.Inv) : StatusInv s.status s.eng.phase :=
  ⟨h.running, h.launched, h.errCode, h.absentReason, h.exclusive⟩

theorem State.Inv.of_parts {s : State} (hd : DataInv s) (hs : StatusInv s.status s.eng.phase)
    (hr : s.rstN = false → rstAsserted s = s) : s.Inv :=
  ⟨hd.memWf, hd.memIn, hd.bufLen, hd.txtLen, hd.payLen, hd.str0Len, hd.str1Len, hd.str2Len, hs.running, hs.launched,
    hs.errCode, hs.absentReason, hs.exclusive, hr⟩

/-- With RST_N deasserted only the data and STATUS clauses say anything. -/
theorem State.Inv.of_released {s : State} (hd : DataInv s) (hs : StatusInv s.status s.eng.phase)
    (hr : s.rstN = true) : s.Inv :=
  .of_parts hd hs fun h => by simp [hr] at h

/-- No data clause looks at the control registers, ENG, RST_N or the model's own fields. -/
theorem DataInv.withControl {s : State} (h : DataInv s) {c : Ctrl} {st : Status} {n : IntEn} {e : Eng} {b : Bool}
    {ts : List Turn} {r : Resp} {d : Nat} :
    DataInv { s with ctrl := c, status := st, inten := n, eng := e, rstN := b, turns := ts, resp := r, draws := d } :=
  { h with }

/-- The invariant does not look at the model's own fields. -/
theorem State.Inv.withModelFields {s : State} (h : s.Inv) (ts : List Turn) (r : Resp) (d : Nat) :
    State.Inv { s with turns := ts, resp := r, draws := d } :=
  .of_parts h.data.withControl h.statusInv fun hr =>
    congrArg (fun u : State => { u with turns := ts, resp := r, draws := d }) (h.heldInReset hr)

/-- No operation runs while RST_N is asserted (70_reset_and_hazards.md R340). -/
theorem State.Inv.released_of_busy {s : State} (h : s.Inv) (hb : s.status.busy = true) : s.rstN = true := by
  by_contra hr
  have hheld : rstAsserted s = s := h.heldInReset (by simpa using hr)
  rw [← hheld] at hb
  cases hb

/-! ## STATUS -/

theorem statusInv_reset : StatusInv Status.reset .idle := by constructor <;> decide

theorem statusInv_launched (t : Status) : StatusInv t.launched .run := by
  constructor <;> simp [Status.launched]

theorem statusInv_succeeded (t : Status) : StatusInv t.succeeded .idle := by
  constructor <;> simp [Status.succeeded]

theorem statusInv_failed {e : ECode} (he : e ≠ .none) (t : Status) : StatusInv (t.failed e) .idle := by
  constructor <;> simp [Status.failed, he]

theorem statusInv_wentAbsent {r : AReason} (hr : r ≠ .none) (t : Status) : StatusInv (t.wentAbsent r) .idle := by
  constructor <;> simp [Status.wentAbsent, hr]

/-- Clearing DONE, ERR and WERR breaks no clause (10_state.md R33). -/
theorem StatusInv.acknowledged {t : Status} {p : EngPhase} (h : StatusInv t p) (w : Word) :
    StatusInv (t.acknowledged w) p where
  running := h.running
  launched hb := by
    obtain ⟨hdone, herr, hrest⟩ := h.launched hb
    exact ⟨by simp [Status.acknowledged, hdone], by simp [Status.acknowledged, herr], hrest⟩
  errCode he :=
    have hset : t.err = true ∧ w.getLsbD 2 = false := by simpa [Status.acknowledged] using he
    h.errCode hset.1
  absentReason := h.absentReason
  exclusive := h.exclusive

theorem StatusInv.writeDropped {t : Status} {p : EngPhase} (h : StatusInv t p) : StatusInv t.writeDropped p :=
  ⟨h.running, h.launched, h.errCode, h.absentReason, h.exclusive⟩

/-! ## Operations and engine steps -/

/-- Every operation, and the soft reset, keeps the invariant (60_exceptions.md R301, R316). -/
theorem State.Inv.exec {i : Instr} {s t : State} (h : s.Inv) (hr : s.rstN = true) (ht : exec i s = .next t) :
    t.Inv := by
  have hd : DataInv t := dataInv_exec h.data ht
  by_cases hi : i = .srst
  · subst hi
    cases ht
    exact .of_released hd statusInv_reset hr
  · have hends := exec_ends hi s
    rw [ht] at hends
    cases hends with
    | success u hu => exact .of_released hd (statusInv_succeeded u.status) (hu.rstN.trans hr)
    | error e info he => exact .of_released hd (statusInv_failed he.1 s.status) hr
    | absence r m u hne _ => exact .of_released hd (statusInv_wentAbsent hne s.status) hr

theorem State.Inv.engineComplete {s t : State} (h : s.Inv) (hr : s.rstN = true) (ht : engineComplete s = .next t) :
    t.Inv := by
  unfold Machine.engineComplete at ht
  split at ht
  · exact h.exec hr ht
  · cases ht
    exact .of_released (dataInv_afterError h.data _ _) (statusInv_failed (by simp) s.status) hr

theorem phase_fsmStep (checked : Fsm) (fixed : Nat) (e : Eng) : (fsmStep checked fixed e).phase = e.phase := by
  unfold fsmStep
  split
  · rfl
  · split <;> rfl
  all_goals rfl

/-- An engine step that does not complete leaves ENG.phase at RUN (70_reset_and_hazards.md R363). -/
theorem phase_advanceEng (i : Instr) (s : State) : (advanceEng i s).phase = s.eng.phase := by
  cases i with
  | msgdec m u => exact phase_fsmStep _ _ _
  | msgenc m u => exact phase_fsmStep _ _ _
  | _ => rfl

theorem State.Inv.engineAdvance {s : State} (h : s.Inv) (hr : s.rstN = true) : (engineAdvance s).Inv := by
  unfold Machine.engineAdvance
  split
  · rename_i i _
    refine .of_released h.data.withControl ?_ hr
    show StatusInv s.status (advanceEng i s).phase
    rw [phase_advanceEng]
    exact h.statusInv
  · exact h

/-! ## Host writes -/

/-- A store to a plain register, REC or an array touches neither STATUS nor ENG nor RST_N. -/
theorem storeValue_control (w : Width) (off : Nat) (v : Word) (s : State) :
    (storeValue w off v s).status = s.status ∧ (storeValue w off v s).eng = s.eng ∧
      (storeValue w off v s).rstN = s.rstN := by
  unfold storeValue
  split
  · unfold csrWrite
    split <;> exact ⟨rfl, rfl, rfl⟩
  · split <;> exact ⟨rfl, rfl, rfl⟩

/-- A write to a plain register keeps every length within its capacity (10_state.md R39..R43). -/
theorem DataInv.csrWrite {s : State} (h : DataInv s) (off : Nat) (v : Word) : DataInv (csrWrite off v s) := by
  unfold Machine.csrWrite
  split
  case h_4 => exact { h with bufLen := Nat.min_le_right _ _ }
  case h_5 => exact { h with txtLen := Nat.min_le_right _ _ }
  case h_6 => exact { h with payLen := Nat.min_le_right _ _ }
  case h_7 => exact { h with str0Len := Nat.min_le_right _ _ }
  case h_8 => exact { h with str1Len := Nat.min_le_right _ _ }
  case h_9 => exact { h with str2Len := Nat.min_le_right _ _ }
  all_goals exact { h with }

/-- The bytes an accepted write to an array stores all lie in the array (20_memory.md R82, R97). -/
theorem inArray_lanes {w : Width} {off i : Nat} {v : Word} (ha : accepted w off = true) (hin : inArray off = true)
    (hi : i < (laneBytes w v).length) : inArray (off + i) = true := by
  simp only [inArray, Bool.or_eq_true, Bool.and_eq_true, decide_eq_true_eq] at hin ⊢
  cases w with
  | w8 =>
    simp only [laneBytes, List.length_singleton] at hi
    omega
  | w32 =>
    simp only [accepted, decide_eq_true_eq] at ha
    simp only [laneBytes, List.length_cons, List.length_nil] at hi
    omega
  | w16 => cases ha
  | w64 => cases ha

theorem DataInv.storeValue {s : State} (h : DataInv s) {w : Width} {off : Nat} (v : Word)
    (ha : accepted w off = true) (hs : droppedWhileBusy off = true) : DataInv (storeValue w off v s) := by
  unfold Machine.storeValue
  split
  · exact h.csrWrite off v
  · split
    · exact h.writeRec _ v
    · rename_i hcsr hrec
      have hin : inArray off = true := by
        simp only [droppedWhileBusy, plainCsr, Bool.or_eq_true, Bool.and_eq_true, decide_eq_true_eq, List.mem_cons,
          List.not_mem_nil, or_false] at hs
        rcases hs with (hs | hs) | hs
        · omega
        · omega
        · exact hs
      exact h.withMem (wf_writeBytes h.memWf _ _) (inArrays_writeBytes h.memIn fun i hi => inArray_lanes ha hin hi)

theorem State.Inv.dropWrite {s : State} (h : s.Inv) (hr : s.rstN = true) : (dropWrite s).Inv :=
  .of_released h.data.withControl
    h.statusInv.writeDropped hr

theorem State.Inv.ctrlWrite {s t : State} (h : s.Inv) (hr : s.rstN = true) {v : Word}
    (ht : ctrlWrite v s = .next t) : t.Inv := by
  have hd : DataInv s := h.data
  rw [ctrlWrite_eq] at ht
  split at ht
  · exact h.exec hr ht
  · split at ht
    · cases ht
      exact h.dropWrite hr
    · split at ht <;> cases ht
      · exact .of_released hd.withControl
          (statusInv_launched s.status) hr
      · exact .of_released hd.withControl
          h.statusInv hr

theorem State.Inv.plainWrite {s : State} (h : s.Inv) (hr : s.rstN = true) {w : Width} {off : Nat} (v : Word)
    (ha : accepted w off = true) : (plainWrite w off v s).Inv := by
  have hd : DataInv s := h.data
  unfold Machine.plainWrite
  split
  · exact .of_released hd.withControl
      (h.statusInv.acknowledged v) hr
  · split
    · exact .of_released hd.withControl
        h.statusInv hr
    · split
      · rename_i hs
        split
        · exact h.dropWrite hr
        · obtain ⟨hstatus, heng, hrst⟩ := storeValue_control w off v s
          refine .of_released (hd.storeValue v ha hs) ?_ (hrst.trans hr)
          rw [hstatus, heng]
          exact h.statusInv
      · exact h

/-! ## Turns -/

theorem State.Inv.apertureAccess {s t : State} (h : s.Inv) (hr : s.rstN = true) {a : Access}
    (ht : apertureAccess a s = .next t) : t.Inv := by
  unfold Machine.apertureAccess at ht
  split at ht
  case h_1 w off =>
    split at ht <;> cases ht
    · unfold hostRead
      split <;> exact h.withModelFields _ _ _
    · exact h.withModelFields _ _ _
  case h_2 w off v =>
    split at ht
    case isTrue ha =>
      have hdone : State.Inv { s with resp := .done } := h.withModelFields _ _ _
      unfold hostWrite at ht
      split at ht
      · exact hdone.ctrlWrite hr ht
      · cases ht
        exact hdone.plainWrite hr v ha
    case isFalse =>
      cases ht
      exact h.withModelFields _ _ _

theorem State.Inv.hostAccess {s t : State} (h : s.Inv) {a : Access} (ht : hostAccess a s = .next t) : t.Inv := by
  unfold Machine.hostAccess at ht
  split at ht
  case isTrue ha =>
    simp only [answers, Bool.and_eq_true] at ha
    exact h.apertureAccess ha.2 ht
  case isFalse =>
    cases ht
    exact h.withModelFields _ _ _

/-- Falling RST_N brings every register to its power-on value, and keeps it there (70_reset_and_hazards.md R340). -/
theorem State.Inv.rstAsserted {s : State} (h : s.Inv) : (rstAsserted s).Inv :=
  have hd : DataInv (resetRegisters s) := dataInv_resetRegisters h.data
  .of_parts hd.withControl statusInv_reset
    fun _ => rfl

theorem inv_rstReleased (recs : Vector Word 32) (cells : List Host.Cell) (s : State) :
    (rstReleased recs cells s).Inv :=
  have hm := wf_arraysFrom cells
  .of_released ⟨hm.1, hm.2, Nat.zero_le _, Nat.zero_le _, Nat.zero_le _, Nat.zero_le _, Nat.zero_le _, Nat.zero_le _⟩
    statusInv_reset rfl

/-- Every turn of the schedule keeps the invariant. -/
theorem State.Inv.takeTurn {s t : State} (h : s.Inv) {turn : Turn} (ht : takeTurn turn s = .next t) : t.Inv := by
  cases turn with
  | host a => exact h.hostAccess ht
  | engineAdvance =>
    simp only [Machine.takeTurn] at ht
    split at ht
    case isTrue hb => cases ht; exact h.engineAdvance (h.released_of_busy hb)
    case isFalse => cases ht; exact h
  | engineComplete =>
    simp only [Machine.takeTurn] at ht
    split at ht
    case isTrue hb => exact h.engineComplete (h.released_of_busy hb) ht
    case isFalse => cases ht; exact h
  | rstAssert =>
    cases ht
    exact h.rstAsserted
  | rstRelease recs cells =>
    simp only [Machine.takeTurn] at ht
    split at ht <;> cases ht
    · exact h
    · exact inv_rstReleased recs cells s

theorem State.Inv.step {s t : State} (h : s.Inv) (ht : step s = .next t) : t.Inv := by
  cases hts : s.turns with
  | cons turn ts =>
    rw [step_cons hts] at ht
    exact (h.withModelFields ts s.resp s.draws).takeTurn ht
  | nil =>
    rw [step_nil hts] at ht
    split at ht
    case isTrue hb => exact h.engineComplete (h.released_of_busy hb) ht
    case isFalse => cases ht; exact h

/-- Settles O59: each kind of turn keeps the data clauses, the STATUS clauses and the hold of RST_N. -/
theorem everyStepKeepsTheInvariant : Obligations.EveryStepKeepsTheInvariant := by
  unfold Obligations.EveryStepKeepsTheInvariant
  exact fun s t h ht => h.step ht

end Sys2Proof.Machine
end

section
/-! SUPPORT. What the host finds at a register, at a reserved address and after a launch (10_state.md R31..R59): O16, O18,
O7, O20, O21 and O25. -/

namespace Sys2Proof.Machine

open Sys2Proof

/-! ## Reads of stored values -/

/-- An accepted read of a stored value: with BUSY = 0 of every location, with BUSY = 1 of those 20_memory.md R90 does not
list. -/
theorem step_read_stored {s : State} {w : Width} {off : Nat} {ts : List Turn} (hr : s.rstN = true)
    (h : s.turns = .host (.read w off) :: ts) (ho : off < 0x2000) (ha : accepted w off = true)
    (hb : s.status.busy = false ∨ drawnWhileBusy off = false) :
    step s = .next { s with turns := ts, resp := .data (storedValue s w off) } := by
  rw [step_read hr h ho, if_pos ha, hostRead, if_neg (by rcases hb with hb | hb <;> simp [hb])]
  rfl

theorem storedValue_csr {off : Nat} (h : off < 0x100) (s : State) (w : Width) : storedValue s w off = csrRead s off :=
  if_pos h

theorem storedValue_rec (i : Fin 32) (s : State) (w : Width) : storedValue s w (0x100 + 4 * i.val) = readRec s i := by
  unfold storedValue
  rw [if_neg (by omega), if_pos (by omega), recIndex_offset]

/-- Reserved CSR offsets read 0 (10_state.md R46). -/
theorem csrRead_reserved {off : Nat} (h : 0x048 ≤ off) (s : State) : csrRead s off = 0 := by
  unfold csrRead
  split
  case h_19 => rfl
  all_goals omega

/-- The registers whose stored value reads as such while BUSY = 1 (20_memory.md R90). -/
theorem drawnWhileBusy_eq_false {off : Nat}
    (h : off ∈ [0x000, 0x004, 0x008, 0x00C, 0x010, 0x014, 0x018, 0x03C, 0x040, 0x044]) :
    drawnWhileBusy off = false := by
  revert off
  decide

/-- Settles O16: an accepted read of a stored value, and the word each register reads as. -/
theorem registerReads : Obligations.RegisterReads := by
  unfold Obligations.RegisterReads
  intro s off ts hr h halign hoff hbusy
  have hcsr : ∀ {a : Nat}, a < 0x100 → off = a → storedValue s .w32 off = csrRead s a := fun ha h => by
    rw [h, storedValue_csr ha]
  refine ⟨storedValue s .w32 off, step_read_stored hr h (by omega) (by simpa [accepted] using halign)
    (hbusy.imp_right drawnWhileBusy_eq_false), ?_⟩
  refine ⟨hcsr (by decide), fun h => ?ctrl, fun h => ?status, fun h => ?inten, hcsr (by decide), hcsr (by decide),
    hcsr (by decide), hcsr (by decide), hcsr (by decide), fun h hl => ?buf, fun h hl => ?txt, fun h hl => ?pay,
    fun h hl => ?str0, fun h hl => ?str1, fun h hl => ?str2, fun h => ?now0, fun h => ?now1, fun h => ?cfg,
    fun i h => ?recs, fun hlo hhi => ?reserved⟩
  case ctrl => rw [hcsr (by decide) h]; exact toNat_ctrl s.ctrl
  case status => rw [hcsr (by decide) h]; exact toNat_status s.status
  case inten => rw [hcsr (by decide) h]; exact toNat_inten s.inten
  case buf => rw [hcsr (by decide) h]; exact (BitVec.toNat_ofNat ..).trans (Nat.mod_eq_of_lt (by omega))
  case txt => rw [hcsr (by decide) h]; exact (BitVec.toNat_ofNat ..).trans (Nat.mod_eq_of_lt (by omega))
  case pay => rw [hcsr (by decide) h]; exact (BitVec.toNat_ofNat ..).trans (Nat.mod_eq_of_lt (by omega))
  case str0 => rw [hcsr (by decide) h]; exact toNat_strCtl s.str0 hl
  case str1 => rw [hcsr (by decide) h]; exact toNat_strCtl s.str1 hl
  case str2 => rw [hcsr (by decide) h]; exact toNat_strCtl s.str2 hl
  case now0 => rw [hcsr (by decide) h]; exact toNat_now0 s.now0
  case now1 => rw [hcsr (by decide) h]; exact toNat_now1 s.now1
  case cfg => rw [hcsr (by decide) h]; exact toNat_cfg s.cfg
  case recs => rw [h, storedValue_rec]
  case reserved => rw [storedValue_csr hhi, csrRead_reserved hlo]

/-! ## Writes of idle registers -/

/-- An accepted write to a location other than CTRL (20_memory.md R82). -/
theorem step_plainWrite {s : State} {w : Width} {off : Nat} {v : Word} {ts : List Turn} (hr : s.rstN = true)
    (h : s.turns = .host (.write w off v) :: ts) (ho : off < 0x2000) (ha : accepted w off = true) (hc : off ≠ 0x004) :
    step s = .next (plainWrite w off v { s with turns := ts, resp := .done }) := by
  rw [step_write hr h ho, if_pos ha, hostWrite, if_neg hc]

/-- With BUSY = 0 a write to a writable location other than CTRL, STATUS and INTEN is stored (10_state.md R36..R47). -/
theorem step_stored {s : State} {w : Width} {off : Nat} {v : Word} {ts : List Turn} (hr : s.rstN = true)
    (hb : s.status.busy = false) (h : s.turns = .host (.write w off v) :: ts) (ho : off < 0x2000)
    (ha : accepted w off = true) (hs : droppedWhileBusy off = true) :
    step s = .next (storeValue w off v { s with turns := ts, resp := .done }) := by
  have h4 : off ≠ 0x004 := by rintro rfl; exact absurd hs (by decide)
  have h8 : off ≠ 0x008 := by rintro rfl; exact absurd hs (by decide)
  have h12 : off ≠ 0x00C := by rintro rfl; exact absurd hs (by decide)
  rw [step_plainWrite hr h ho ha h4]
  simp [plainWrite, h8, h12, hs, hb]

/-- A read-only or reserved location ignores a write, BUSY or not (10_state.md R56, 70_reset_and_hazards.md R352(e)). -/
theorem plainWrite_ignored {off : Nat} (h8 : off ≠ 0x008) (h12 : off ≠ 0x00C) (hs : droppedWhileBusy off = false)
    (w : Width) (v : Word) (s : State) : plainWrite w off v s = s := by
  simp [plainWrite, h8, h12, hs]

/-- A cut of a word as its number divided and truncated. -/
theorem extractLsb'_eq_ofNat_div (v : Word) (start len : Nat) :
    v.extractLsb' start len = BitVec.ofNat len (v.toNat / 2 ^ start) := by
  rw [BitVec.extractLsb', Nat.shiftRight_eq_div_pow]

/-- A write to STRk_CTL as its numbers (10_state.md R43). -/
theorem strLen_eq (v : Word) : min (v.extractLsb' 0 6).toNat Config.strBytes = min (v.toNat % 64) 32 := by
  rw [extractLsb'_eq_ofNat_div]
  simp

/-- A write to a plain register with BUSY = 0 (10_state.md R36..R45). -/
theorem step_csrWrite {s : State} {off : Nat} {v : Word} {ts : List Turn} (hr : s.rstN = true)
    (hb : s.status.busy = false) (h : s.turns = .host (.write .w32 off v) :: ts) (hp : plainCsr off = true) :
    step s = .next (csrWrite off v { s with turns := ts, resp := .done }) := by
  have hoff : off < 0x100 ∧ off % 4 = 0 := by
    simp only [plainCsr, List.mem_cons, List.not_mem_nil, or_false, decide_eq_true_eq] at hp
    omega
  obtain ⟨hlt, halign⟩ := hoff
  rw [step_stored hr hb h (by omega) (by simpa [accepted] using halign) (by simp [droppedWhileBusy, hp]), storeValue,
    if_pos hlt]

/-- A write to REC[i] with BUSY = 0 (10_state.md R47). -/
theorem step_recWrite {s : State} (i : Fin 32) {v : Word} {ts : List Turn} (hr : s.rstN = true)
    (hb : s.status.busy = false) (h : s.turns = .host (.write .w32 (0x100 + 4 * i.val) v) :: ts) :
    step s = .next (writeRec i v { s with turns := ts, resp := .done }) := by
  have hdrop : droppedWhileBusy (0x100 + 4 * i.val) = true := by
    have : 0x100 + 4 * i.val < 0x180 := by omega
    simp [droppedWhileBusy, this]
  have halign : accepted .w32 (0x100 + 4 * i.val) = true := by simp [accepted]
  rw [step_stored hr hb h (by omega) halign hdrop, storeValue, if_neg (by omega), if_pos (by omega), recIndex_offset]

/-- Settles O18: each register is written by `acknowledge`, the store to INTEN, `csrWrite`, `writeRec`, or not at all. -/
theorem registerWrites : Obligations.RegisterWrites := by
  unfold Obligations.RegisterWrites
  rintro s _ v off ts hr hb h rfl
  have hcsr : ∀ {a : Nat}, plainCsr a = true → off = a →
      step s = .next (csrWrite a v { s with turns := ts, resp := .done }) := fun hp ha => by
    subst ha
    exact step_csrWrite hr hb h hp
  refine ⟨?status, ?inten, hcsr (by decide), hcsr (by decide), hcsr (by decide), hcsr (by decide), hcsr (by decide),
    hcsr (by decide), fun ha => ?str0, fun ha => ?str1, fun ha => ?str2, fun ha => ?now0, fun ha => ?now1,
    hcsr (by decide), fun i hi => ?recs, fun ho => ?readOnly⟩
  case status => rintro rfl; exact step_plainWrite hr h (by decide) rfl (by decide)
  case inten => rintro rfl; exact step_plainWrite hr h (by decide) rfl (by decide)
  case str0 => rw [hcsr (by decide) ha, ← strLen_eq]; rfl
  case str1 => rw [hcsr (by decide) ha, ← strLen_eq]; rfl
  case str2 => rw [hcsr (by decide) ha, ← strLen_eq]; rfl
  case now0 => rw [hcsr (by decide) ha]; simp [csrWrite, extractLsb'_eq_ofNat_div]
  case now1 => rw [hcsr (by decide) ha]; simp [csrWrite, extractLsb'_eq_ofNat_div]
  case recs => subst hi; exact step_recWrite i hr hb h
  case readOnly =>
    have hro : ∀ a ∈ [0x000, 0x01C, 0x02C], a < 0x2000 ∧ accepted .w32 a = true ∧ a ≠ 0x004 ∧ a ≠ 0x008 ∧
        a ≠ 0x00C ∧ droppedWhileBusy a = false := by decide
    obtain ⟨hlt, hacc, h4, h8, h12, hd⟩ := hro off ho
    rw [step_plainWrite hr h hlt hacc h4, plainWrite_ignored h8 h12 hd]

/-! ## Running a command -/

/-- Settles O7: the completing turn is `engineComplete` on a latch that decodes as the word does; a word with SRST is
SRST. -/
theorem stepRunsTheDecodedCommand : Obligations.StepRunsTheDecodedCommand := by
  unfold Obligations.StepRunsTheDecodedCommand
  intro s w i ts hd
  refine ⟨fun hb h0 hc hts => ?_, fun hr h0 hts => ?_⟩
  · have hcomplete : step s = engineComplete { s with turns := ts } := by
      rcases hts with hts | ⟨hts, rfl⟩
      · rw [step_cons hts]
        exact if_pos hb
      · rw [step_nil hts, if_pos hb, withTurns_self hts]
    have hlatch : latched { s with turns := ts } = .ok i := latched_of_decode hd h0 hc
    rw [hcomplete, engineComplete, hlatch]
  · have hi : i = .srst := by
      rw [decode_of_srst h0] at hd
      exact (Except.ok.inj hd).symm
    refine ⟨hi, ?_⟩
    rw [step_write hr hts (by decide), if_pos (by decide), hostWrite, if_pos rfl, ctrlWrite_eq, if_pos h0]

/-! ## Reserved addresses -/

theorem storedValue_byte {off : Nat} (h : 0x180 ≤ off) (s : State) :
    storedValue s .w8 off = (arrayRead s off).setWidth 32 := by
  unfold storedValue
  rw [if_neg (by omega), if_neg (by omega)]

theorem storedValue_word {off : Nat} (h : 0x180 ≤ off) (s : State) : storedValue s .w32 off = arrayReadWord s off := by
  unfold storedValue
  rw [if_neg (by omega), if_neg (by omega)]

theorem inArray_eq_false {a : Nat} (h : a < 0x180 ∨ (0x1E0 ≤ a ∧ a < 0x400) ∨ 0x1800 ≤ a) : inArray a = false := by
  simp only [inArray, Bool.or_eq_false_iff, Bool.and_eq_false_iff, decide_eq_false_iff_not]
  omega

/-- A byte outside the arrays reads 0 (10_state.md R56). -/
theorem arrayRead_reserved {a : Nat} (h : (0x1E0 ≤ a ∧ a < 0x400) ∨ 0x1800 ≤ a) (s : State) : arrayRead s a = 0 := by
  rw [arrayRead, inArray_eq_false (.inr h)]
  rfl

/-- Settles O20: a reserved CSR offset or array-space address stores nothing, is no free draw, and takes no write. -/
theorem reservedAddressesHoldNothing : Obligations.ReservedAddressesHoldNothing := by
  unfold Obligations.ReservedAddressesHoldNothing
  intro s w off v ts hr hw hoff
  have hacc : accepted w off = true := by rcases hw with ⟨rfl, h⟩ | ⟨rfl, h⟩ <;> simpa [accepted] using h
  have harr : inArray off = false := inArray_eq_false (by omega)
  have hdrawn : drawnWhileBusy off = false := by
    simp only [drawnWhileBusy, harr, Bool.or_false, Bool.or_eq_false_iff, Bool.and_eq_false_iff,
      decide_eq_false_iff_not]
    omega
  have hdrop : droppedWhileBusy off = false := by
    simp only [droppedWhileBusy, plainCsr, harr, Bool.or_false, Bool.or_eq_false_iff, Bool.and_eq_false_iff,
      decide_eq_false_iff_not, List.mem_cons, List.not_mem_nil, or_false]
    omega
  have hstored : storedValue s w off = 0 := by
    rcases hoff with h | h
    · rw [storedValue_csr (by omega), csrRead_reserved h.1]
    · rcases hw with ⟨rfl, halign⟩ | ⟨rfl, -⟩
      · rw [storedValue_word (by omega), arrayReadWord, arrayRead_reserved (by omega), arrayRead_reserved (by omega),
          arrayRead_reserved (by omega), arrayRead_reserved (by omega)]
        rfl
      · rw [storedValue_byte (by omega), arrayRead_reserved (by omega)]
        rfl
  refine ⟨fun h => ?_, fun h => ?_⟩
  · rw [step_read_stored hr h (by omega) hacc (.inr hdrawn), hstored]
  · rw [step_plainWrite hr h (by omega) hacc (by omega), plainWrite_ignored (by omega) (by omega) hdrop]

/-! ## The interrupt line -/

/-- Clearing DONE, ERR and WERR lowers the interrupt line (10_state.md R55). -/
theorem irq_acknowledge_all (s : State) : (acknowledge 0x16 s).irq = false := by
  simp [State.irq, Status.acknowledged]

/-- Settles O21: R55's formula on the STATUS each event leaves. -/
theorem interruptLineFollowsStatus : Obligations.InterruptLineFollowsStatus := by
  unfold Obligations.InterruptLineFollowsStatus
  intro s
  refine ⟨?success, fun e i => ?error, fun w => ?launch, fun ts hr h => ?clear⟩
  case success => simp [State.irq, afterSuccess]
  case error => simp [State.irq, afterError]
  case launch => simp [State.irq, launch, Status.launched]
  case clear =>
    exact ⟨acknowledge 0x16 { s with turns := ts, resp := .done }, step_plainWrite hr h (by decide) rfl (by decide),
      irq_acknowledge_all _, rfl, rfl⟩

/-! ## Reset -/

theorem State.PoweredOn.inv {s : State} (h : s.PoweredOn) : s.Inv := by
  obtain ⟨hwf, hin, hs⟩ := h
  rw [hs]
  exact .of_released ⟨hwf, hin, Nat.zero_le _, Nat.zero_le _, Nat.zero_le _, Nat.zero_le _, Nat.zero_le _, Nat.zero_le _⟩
    statusInv_reset rfl

/-- Settles O25: with RST_N released, the data and STATUS clauses hold of R58's values. -/
theorem resetStateMeetsTheInvariant : Obligations.ResetStateMeetsTheInvariant := by
  unfold Obligations.ResetStateMeetsTheInvariant
  exact ⟨⟨rfl, rfl, rfl⟩, fun s hs => hs.inv⟩

end Sys2Proof.Machine
end

section
/-! SUPPORT. Host accesses to the aperture, and that no run stops (20_memory.md R80..R90, 60_exceptions.md R301):
O14, O15, O17, O19 and O60. -/

namespace Sys2Proof.Machine

open Sys2Proof

/-! ## Refused accesses -/

/-- What 20_memory.md R82 does not accept. -/
theorem accepted_eq_false {w : Width} {off : Nat} (h32 : w = .w32 → off % 4 ≠ 0) (h8 : w = .w8 → off < 0x180) :
    accepted w off = false := by
  cases w with
  | w8 => simpa [accepted] using h8 rfl
  | w16 => rfl
  | w32 => simpa [accepted] using h32 rfl
  | w64 => rfl

/-- Settles O14: an access that is not accepted takes the error branch of a read or of a write. -/
theorem refusedAccessChangesNothing : Obligations.RefusedAccessChangesNothing := by
  unfold Obligations.RefusedAccessChangesNothing
  intro s w off v ts hr ho hts h32 h8
  have hrefused : ¬accepted w off = true := by simp [accepted_eq_false h32 h8]
  rcases hts with hread | hwrite
  · rw [step_read hr hread ho, if_neg hrefused]
  · rw [step_write hr hwrite ho, if_neg hrefused]

/-! ## Reads -/

/-- An accepted read changes the bus response and the draw counter alone, and the counter only while BUSY = 1
(20_memory.md R88, R90). -/
theorem hostRead_frame (w : Width) (off : Nat) (s : State) :
    ∃ (r : Resp) (d : Nat), hostRead w off s = { s with resp := r, draws := d } ∧
      (s.status.busy = false → d = s.draws) := by
  unfold hostRead
  split
  case isTrue hdrawn => exact ⟨_, _, rfl, fun hb => by simp [hb] at hdrawn⟩
  case isFalse => exact ⟨_, s.draws, rfl, fun _ => rfl⟩

/-- Settles O15: a read is not answered, or refused, or an accepted one with `hostRead_frame`. -/
theorem readsHaveNoSideEffects : Obligations.ReadsHaveNoSideEffects := by
  unfold Obligations.ReadsHaveNoSideEffects
  intro s w off ts h
  by_cases hin : s.rstN = true ∧ off < 0x2000
  · obtain ⟨hr, ho⟩ := hin
    rw [step_read hr h ho]
    split
    case isTrue =>
      obtain ⟨r, d, hread, hd⟩ := hostRead_frame w off { s with turns := ts }
      exact ⟨r, d, congrArg _ hread, hd⟩
    case isFalse => exact ⟨.error 0, s.draws, rfl, fun _ => rfl⟩
  · have hout : s.rstN = false ∨ 0x2000 ≤ off := (not_and_or.1 hin).imp eq_false_of_ne_true Nat.le_of_not_lt
    exact ⟨.noDevice, s.draws, step_unanswered h hout, fun _ => rfl⟩

/-! ## Free draws -/

theorem inArray_iff {a : Nat} : inArray a = true ↔ (0x180 ≤ a ∧ a < 0x1E0) ∨ (0x400 ≤ a ∧ a < 0x1800) := by
  simp [inArray]

/-- The locations of 20_memory.md R90 as ranges: RESULT to STR2_CTL, REC to STR2, BUF to PAY. -/
theorem drawnWhileBusy_iff {a : Nat} : drawnWhileBusy a = true ↔
    (0x1C ≤ a ∧ a < 0x3C) ∨ (0x100 ≤ a ∧ a < 0x1E0) ∨ (0x400 ≤ a ∧ a < 0x1800) := by
  simp only [drawnWhileBusy, Bool.or_eq_true, Bool.and_eq_true, decide_eq_true_eq, inArray_iff]
  omega

/-- An accepted read of an output while BUSY = 1 (20_memory.md R90). -/
theorem step_read_drawn {s : State} {w : Width} {off : Nat} {ts : List Turn} (hr : s.rstN = true)
    (hb : s.status.busy = true) (h : s.turns = .host (.read w off) :: ts) (ha : accepted w off = true)
    (hd : drawnWhileBusy off = true) :
    step s = .next { s with turns := ts, resp := .data (freeDraw s w), draws := s.draws + 1 } := by
  have ho : off < 0x2000 := by
    have hranges := drawnWhileBusy_iff.1 hd
    omega
  rw [step_read hr h ho, if_pos ha, hostRead, if_pos (by simp [hb, hd])]
  rfl

/-- An 8-bit draw is the low byte of the next one (log 4). -/
theorem freeDraw_byte (s : State) :
    freeDraw s .w8 = BitVec.ofNat 32 ((Config.busyRead s.draws).toNat % 256) := by
  apply BitVec.eq_of_toNat_eq
  simp [freeDraw]

/-- Settles O17: R90's locations are `drawnWhileBusy`, and their accepted reads are draws. -/
theorem readsWhileBusyAreFreeDraws : Obligations.ReadsWhileBusyAreFreeDraws := by
  unfold Obligations.ReadsWhileBusyAreFreeDraws
  intro s off ts hr hb
  refine ⟨fun h halign hoff => ?word, fun h hoff => ?byte⟩
  case word =>
    have hdrawn : drawnWhileBusy off = true := by
      simp only [List.mem_cons, List.not_mem_nil, or_false] at hoff
      exact drawnWhileBusy_iff.2 (by omega)
    exact step_read_drawn hr hb h (by simpa [accepted] using halign) hdrawn
  case byte =>
    have hacc : accepted .w8 off = true := decide_eq_true (by omega)
    rw [step_read_drawn hr hb h hacc (drawnWhileBusy_iff.2 (by omega)), freeDraw_byte]

/-! ## Byte lanes of the arrays -/

theorem arrayRead_of_inArray {a : Nat} (h : inArray a = true) (s : State) : arrayRead s a = readByte s.mem a := if_pos h

/-- The byte of lane `j` of a 32-bit write (20_memory.md R84). -/
theorem getElem_laneBytes_word (v : Word) {j : Nat} (hj : j < (laneBytes .w32 v).length) :
    (laneBytes .w32 v)[j] = v.extractLsb' (8 * j) 8 := by
  match j, hj with
  | 0, _ | 1, _ | 2, _ | 3, _ => rfl

/-- An accepted write to an array with BUSY = 0 stores its lanes (20_memory.md R81, R84). -/
theorem step_arrayWrite {s : State} {w : Width} {off : Nat} {v : Word} {ts : List Turn} (hr : s.rstN = true)
    (hb : s.status.busy = false) (h : s.turns = .host (.write w off v) :: ts) (ha : accepted w off = true)
    (hin : inArray off = true) :
    step s = .next { s with turns := ts, resp := .done, mem := writeBytes s.mem off (laneBytes w v) } := by
  have hoff := inArray_iff.1 hin
  rw [step_stored hr hb h (by omega) ha (by simp [droppedWhileBusy, hin]), storeValue, if_neg (by omega),
    if_neg (by omega)]

/-- Settles O19: reads by `lane_arrayReadWord`, writes by `readByte_writeBytes_at`. -/
theorem wordLanesAreLittleEndian : Obligations.WordLanesAreLittleEndian := by
  unfold Obligations.WordLanesAreLittleEndian
  intro s off v ts hr hb hoff
  have hin : inArray off = true := inArray_iff.2 hoff
  have hbyte : accepted .w8 off = true := decide_eq_true (by omega)
  have hword : off % 4 = 0 → accepted .w32 off = true := fun h => decide_eq_true h
  refine ⟨fun h halign => ?readWord, fun h halign hwf => ?writeWord, fun h => ?readByte, fun h hwf => ?writeByte⟩
  case readWord =>
    refine ⟨_, step_read_stored hr h (by omega) (hword halign) (.inl hb), fun j hj => ?_⟩
    rw [storedValue_word (by omega), lane_arrayReadWord s off j hj,
      arrayRead_of_inArray (inArray_lanes (v := v) (hword halign) hin hj)]
  case writeWord =>
    refine ⟨_, step_arrayWrite hr hb h (hword halign) hin, fun j hj => ?_, bytesKept_writeBytes hwf off _ rfl⟩
    exact (readByte_writeBytes_at hwf off (laneBytes .w32 v) j hj).trans (getElem_laneBytes_word v hj)
  case readByte =>
    refine ⟨_, step_read_stored hr h (by omega) hbyte (.inl hb), ?_⟩
    rw [storedValue_byte (by omega), arrayRead_of_inArray hin, BitVec.toNat_setWidth_of_le (by decide)]
  case writeByte =>
    refine ⟨_, step_arrayWrite hr hb h hbyte hin, ?_, bytesKept_writeBytes hwf off _ rfl⟩
    have hlane : readByte (writeBytes s.mem off (laneBytes .w8 v)) off = v.extractLsb' 0 8 :=
      readByte_writeBytes_at hwf off (laneBytes .w8 v) 0 Nat.zero_lt_one
    simp [hlane]

/-! ## No step stops -/

/-- A write to CTRL answers a next state: the soft reset's, a drop's, a launch's or a store's. -/
theorem ctrlWrite_next (v : Word) (s : State) : ∃ t, ctrlWrite v s = .next t := by
  rw [ctrlWrite_eq]
  split
  · exact ⟨_, exec_srst s⟩
  · split
    · exact ⟨_, rfl⟩
    · split <;> exact ⟨_, rfl⟩

theorem hostWrite_next (w : Width) (off : Nat) (v : Word) (s : State) : ∃ t, hostWrite w off v s = .next t := by
  unfold hostWrite
  split
  · exact ctrlWrite_next v _
  · exact ⟨_, rfl⟩

theorem apertureAccess_next (a : Access) (s : State) : ∃ t, apertureAccess a s = .next t := by
  cases a with
  | read w off =>
    simp only [apertureAccess]
    split <;> exact ⟨_, rfl⟩
  | write w off v =>
    simp only [apertureAccess]
    split
    · exact hostWrite_next w off v s
    · exact ⟨_, rfl⟩

theorem hostAccess_next (a : Access) (s : State) : ∃ t, hostAccess a s = .next t := by
  unfold hostAccess
  split
  · exact apertureAccess_next a s
  · exact ⟨_, rfl⟩

/-- A completion answers a next state, whatever the latch holds (60_exceptions.md R301, R303). -/
theorem engineComplete_next (s : State) : ∃ t, engineComplete s = .next t := by
  unfold engineComplete
  split
  case h_1 i _ =>
    obtain ⟨t, ht, -⟩ := exec_next i s
    exact ⟨t, ht⟩
  case h_2 => exact ⟨_, rfl⟩

theorem takeTurn_next (turn : Turn) (s : State) : ∃ t, takeTurn turn s = .next t := by
  cases turn with
  | host a => exact hostAccess_next a s
  | engineAdvance =>
    simp only [takeTurn]
    split <;> exact ⟨_, rfl⟩
  | engineComplete =>
    simp only [takeTurn]
    split
    · exact engineComplete_next s
    · exact ⟨_, rfl⟩
  | rstAssert => exact ⟨_, rfl⟩
  | rstRelease recs cells =>
    simp only [takeTurn]
    split <;> exact ⟨_, rfl⟩

/-- Every step answers a next state (60_exceptions.md R301, R306, R310). -/
theorem step_next (s : State) : ∃ t, step s = .next t := by
  cases hts : s.turns with
  | cons turn ts =>
    rw [step_cons hts]
    exact takeTurn_next turn _
  | nil =>
    rw [step_nil hts]
    split
    · exact engineComplete_next s
    · exact ⟨_, rfl⟩

theorem safeFor_all (n : Nat) (s : State) : safeFor n s := by
  induction n generalizing s with
  | zero => trivial
  | succ n ih =>
    obtain ⟨t, ht⟩ := step_next s
    exact ⟨t, ht, ih t⟩

/-- Settles O60: induction over the run's length with `step_next`; an access outside the aperture is not answered. -/
theorem runsNeverStop : Obligations.RunsNeverStop := by
  unfold Obligations.RunsNeverStop
  exact ⟨safeFor_all, fun s a ts h ho => step_unanswered h (.inr ho)⟩

end Sys2Proof.Machine
end

section
/-! SUPPORT. The decoder and the encoder (30_encoding.md R110..R123): what `decodeOp` answers, field by field, and the
bits of a command word. O1, O2, O3, O4, O5 and O8. -/

namespace Sys2Proof.Machine

open Sys2Proof

/-! ## The operation map -/

/-- The operand fields a command's row of 30_encoding.md R111 lists hold its operands; the other fields are free. -/
def OperandsIn (i : Instr) (m : BitVec 6) (k : BitVec 2) (u : BitVec 1) : Prop :=
  match i with
  | .txtdec t | .txtenc t => k = encodeSel t
  | .msgdec n v | .msgenc n v => m.toNat = n ∧ u = encodeUnits v
  | _ => True

theorem decodeSel_encodeSel (t : Sel) : decodeSel (encodeSel t) = t := by cases t <;> rfl

theorem encodeSel_decodeSel (k : BitVec 2) : encodeSel (decodeSel k) = k := by revert k; decide

theorem decodeUnits_encodeUnits (v : Units) : decodeUnits (encodeUnits v) = v := by cases v <;> rfl

theorem encodeUnits_decodeUnits (u : BitVec 1) : encodeUnits (decodeUnits u) = u := by revert u; decide

/-- An OP is reserved and rejected, or is the OP of a command whose operands the fields hold (R111, R113). -/
theorem decodeOp_cases (o : BitVec 8) (m : BitVec 6) (k : BitVec 2) (u : BitVec 1) :
    (ReservedOp o ∧ decodeOp o m k u = .error (.reservedOp o)) ∨
      (¬ReservedOp o ∧ ∃ i, decodeOp o m k u = .ok i ∧ opcode i = some o ∧ OperandsIn i m k u) := by
  have hop : ∀ {n : Nat}, o.toNat = n → some (BitVec.ofNat 8 n) = some o := fun h => by
    rw [← h, BitVec.ofNat_toNat, BitVec.setWidth_eq]
  unfold decodeOp ReservedOp
  split
  -- The arms with operands are TXTDEC and TXTENC, then MSGDEC and MSGENC; the last arm is the reserved OPs.
  case h_13 h | h_14 h => exact .inr ⟨by omega, _, rfl, hop h, (encodeSel_decodeSel k).symm⟩
  case h_18 h | h_19 h => exact .inr ⟨by omega, _, rfl, hop h, rfl, (encodeUnits_decodeUnits u).symm⟩
  case h_23 =>
    refine .inl ⟨?_, rfl⟩
    simp only [imp_false] at *
    omega
  all_goals
    rename_i h
    exact .inr ⟨by omega, _, rfl, hop h, trivial⟩

theorem decodeOp_of_reserved {o : BitVec 8} (h : ReservedOp o) (m : BitVec 6) (k : BitVec 2) (u : BitVec 1) :
    decodeOp o m k u = .error (.reservedOp o) := by
  obtain ⟨-, hd⟩ | ⟨hn, -⟩ := decodeOp_cases o m k u
  · exact hd
  · exact absurd h hn

theorem decodeOp_of_operands {i : Instr} {o : BitVec 8} {m : BitVec 6} {k : BitVec 2} {u : BitVec 1}
    (ho : opcode i = some o) (h : OperandsIn i m k u) : decodeOp o m k u = .ok i := by
  cases i with
  | srst => cases ho
  | txtdec t | txtenc t =>
    cases ho
    subst h
    simp [decodeOp, decodeSel_encodeSel]
  | msgdec n v | msgenc n v =>
    cases ho
    obtain ⟨rfl, rfl⟩ := h
    simp [decodeOp, decodeUnits_encodeUnits]
  | _ => cases ho; rfl

theorem decodeOp_eq_ok_iff {i : Instr} {o : BitVec 8} {m : BitVec 6} {k : BitVec 2} {u : BitVec 1} :
    decodeOp o m k u = .ok i ↔ opcode i = some o ∧ OperandsIn i m k u := by
  refine ⟨fun h => ?_, fun ⟨ho, hi⟩ => decodeOp_of_operands ho hi⟩
  obtain ⟨-, hd⟩ | ⟨-, j, hd, hj⟩ := decodeOp_cases o m k u
  · simp [hd] at h
  · cases hd.symm.trans h
    exact hj

theorem decode_launchWord (o : BitVec 8) (m : BitVec 6) (k : BitVec 2) (u : BitVec 1) :
    decode (launchWord o m k u) = decodeOp o m k u := by
  rw [decode_of_launch (fieldSrst_launchWord o m k u) (fieldStart_launchWord o m k u), fieldOp_launchWord,
    fieldMtype_launchWord, fieldSel_launchWord, fieldUnits_launchWord]

/-- Settles O1: a command's word is a launch word that holds its OP and operands, or SRST's. -/
theorem decodeOfEncodeIsIdentity : Obligations.DecodeOfEncodeIsIdentity := by
  unfold Obligations.DecodeOfEncodeIsIdentity
  intro i hwf
  cases i with
  | srst => exact decode_of_srst rfl
  | txtdec t | txtenc t => exact (decode_launchWord ..).trans (decodeOp_of_operands rfl rfl)
  | msgdec n v | msgenc n v =>
    have hn : (BitVec.ofNat 6 n).toNat = n := Nat.mod_eq_of_lt (of_decide_eq_true hwf)
    exact (decode_launchWord ..).trans (decodeOp_of_operands rfl ⟨hn, rfl⟩)
  | _ => exact (decode_launchWord ..).trans (decodeOp_of_operands rfl trivial)

/-! ## The bits of a command word -/

theorem getLsbD_twoPow_word (i : Nat) {j : Nat} (hj : j < 32) : (BitVec.twoPow 32 i).getLsbD j = decide (j = i) := by
  simp [hj, eq_comm]

/-- 30_encoding.md R110's table, bit by bit. -/
theorem getLsbD_launchWord (o : BitVec 8) (m : BitVec 6) (k : BitVec 2) (u : BitVec 1) (j : Nat) :
    (launchWord o m k u).getLsbD j =
      if j < 8 then o.getLsbD j else if j < 16 then m.getLsbD (j - 8) else if j < 20 then k.getLsbD (j - 16)
      else if j < 31 then u.getLsbD (j - 20) else decide (j = 31) := by
  have hm : 6 ≤ j - 8 → m.getLsbD (j - 8) = false := BitVec.getLsbD_of_ge m (j - 8)
  have hk : 2 ≤ j - 16 → k.getLsbD (j - 16) = false := BitVec.getLsbD_of_ge k (j - 16)
  have hu : 1 ≤ j - 20 → u.getLsbD (j - 20) = false := BitVec.getLsbD_of_ge u (j - 20)
  simp only [launchWord, BitVec.getLsbD_append]
  grind

theorem toNat_launchWord (o : BitVec 8) (m : BitVec 6) (k : BitVec 2) (u : BitVec 1) :
    (launchWord o m k u).toNat = 2147483648 + 1048576 * u.toNat + 65536 * k.toNat + 256 * m.toNat + o.toNat := by
  simp only [launchWord, toNat_append_eq]
  simp
  omega

/-- Both launch bits, all of OP, and the given bits of the operand fields (R123's mask and R111's fields). -/
def commandMask (mm : BitVec 6) (mk : BitVec 2) (mu : BitVec 1) : Word := 0x40000000#32 ||| launchWord 0xFF mm mk mu

/-- A launching word under a command's mask is the launch word of what the mask leaves of its fields. -/
theorem and_commandMask {w : Word} (h1 : w.getLsbD 31 = true) (h0 : w.getLsbD 30 = false) (mm : BitVec 6)
    (mk : BitVec 2) (mu : BitVec 1) :
    w &&& commandMask mm mk mu =
      launchWord (fieldOp w) (fieldMtype w &&& mm) (fieldSel w &&& mk) (fieldUnits w &&& mu) := by
  apply BitVec.eq_of_getLsbD_eq
  intro j hj
  have hsrst : (0x40000000#32).getLsbD j = decide (j = 30) := getLsbD_twoPow_word 30 hj
  have hop : j < 8 → (0xFF#8).getLsbD j = true := fun h => BitVec.getLsbD_allOnes.trans (decide_eq_true h)
  simp only [commandMask, BitVec.getLsbD_and, BitVec.getLsbD_or, hsrst, getLsbD_launchWord, fieldOp, fieldMtype,
    fieldSel, fieldUnits, BitVec.getLsbD_extractLsb']
  grind

theorem launchWord_inj {o o' : BitVec 8} {m m' : BitVec 6} {k k' : BitVec 2} {u u' : BitVec 1} :
    launchWord o m k u = launchWord o' m' k' u' ↔ o = o' ∧ m = m' ∧ k = k' ∧ u = u' := by
  refine ⟨fun h => ⟨?_, ?_, ?_, ?_⟩, fun ⟨ho, hm, hk, hu⟩ => by rw [ho, hm, hk, hu]⟩
  · rw [← fieldOp_launchWord o m k u, h, fieldOp_launchWord]
  · rw [← fieldMtype_launchWord o m k u, h, fieldMtype_launchWord]
  · rw [← fieldSel_launchWord o m k u, h, fieldSel_launchWord]
  · rw [← fieldUnits_launchWord o m k u, h, fieldUnits_launchWord]

/-- A word agrees with a launch word under a mask exactly if it launches the OP and the masked fields agree. -/
theorem and_commandMask_eq_launchWord_iff {w : Word} {o : BitVec 8} {m mm : BitVec 6} {k mk : BitVec 2}
    {u mu : BitVec 1} :
    w &&& commandMask mm mk mu = launchWord o m k u ↔
      LaunchesOp o w ∧ fieldMtype w &&& mm = m ∧ fieldSel w &&& mk = k ∧ fieldUnits w &&& mu = u := by
  constructor
  · intro h
    have h31 : (w &&& commandMask mm mk mu).getLsbD 31 = true := h ▸ fieldStart_launchWord o m k u
    have h30 : (w &&& commandMask mm mk mu).getLsbD 30 = false := h ▸ fieldSrst_launchWord o m k u
    have hsrst : (commandMask mm mk mu).getLsbD 30 = true := by simp [commandMask]
    have h1 : w.getLsbD 31 = true := by
      rw [BitVec.getLsbD_and, Bool.and_eq_true] at h31
      exact h31.1
    have h0 : w.getLsbD 30 = false := by rwa [BitVec.getLsbD_and, hsrst, Bool.and_true] at h30
    rw [and_commandMask h1 h0, launchWord_inj] at h
    obtain ⟨hop, hoperands⟩ := h
    exact ⟨⟨h1, h0, hop⟩, hoperands⟩
  · rintro ⟨⟨h1, h0, hop⟩, hoperands⟩
    rw [and_commandMask h1 h0, launchWord_inj]
    exact ⟨hop, hoperands⟩

/-- The bits an operation without operands reads. -/
theorem and_opMask_iff {w : Word} {o : BitVec 8} : w &&& 0xC00000FF#32 = launchWord o 0 0 0 ↔ LaunchesOp o w := by
  rw [show 0xC00000FF#32 = commandMask 0 0 0 from rfl, and_commandMask_eq_launchWord_iff]
  simp

/-- The bits an operation with SEL reads. -/
theorem and_selMask_iff {w : Word} {o : BitVec 8} {k : BitVec 2} :
    w &&& 0xC00300FF#32 = launchWord o 0 k 0 ↔ LaunchesOp o w ∧ fieldSel w = k := by
  rw [show 0xC00300FF#32 = commandMask 0 (BitVec.allOnes 2) 0 from rfl, and_commandMask_eq_launchWord_iff,
    BitVec.and_allOnes]
  simp

/-- The bits an operation with MTYPE and UNITS reads. -/
theorem and_messageMask_iff {w : Word} {o : BitVec 8} {m : BitVec 6} {u : BitVec 1} :
    w &&& 0xC0103FFF#32 = launchWord o m 0 u ↔ LaunchesOp o w ∧ fieldMtype w = m ∧ fieldUnits w = u := by
  rw [show 0xC0103FFF#32 = commandMask (BitVec.allOnes 6) 0 (BitVec.allOnes 1) from rfl,
    and_commandMask_eq_launchWord_iff, BitVec.and_allOnes, BitVec.and_allOnes]
  simp

theorem and_srstBit (w : Word) : w &&& 0x40000000#32 = if w.getLsbD 30 then 0x40000000#32 else 0#32 :=
  BitVec.and_twoPow w 30

theorem and_startBit (w : Word) : w &&& 0x80000000#32 = if w.getLsbD 31 then 0x80000000#32 else 0#32 :=
  BitVec.and_twoPow w 31

/-- Bits 31..30, START and SRST. -/
theorem and_launchBits (w : Word) : w &&& 0xC0000000#32 =
    (if w.getLsbD 31 then 0x80000000#32 else 0#32) ||| if w.getLsbD 30 then 0x40000000#32 else 0#32 := by
  rw [← and_startBit, ← and_srstBit, ← BitVec.and_or_distrib_left]
  rfl

/-! ## What a word decodes to -/

theorem decode_eq_srst_iff {w : Word} : decode w = .ok .srst ↔ w.getLsbD 30 = true := by
  refine ⟨fun h => ?_, decode_of_srst⟩
  by_contra hbit
  have h0 : w.getLsbD 30 = false := eq_false_of_ne_true hbit
  rw [decode_of_launch h0 (start_of_decode h h0)] at h
  exact decodeOp_ne_srst h rfl

/-- An operation is decoded from a word that launches its OP and holds its operands (R110, R111, R123). -/
theorem decode_eq_ok_iff {w : Word} {i : Instr} {o : BitVec 8} (ho : opcode i = some o) :
    decode w = .ok i ↔ LaunchesOp o w ∧ OperandsIn i (fieldMtype w) (fieldSel w) (fieldUnits w) := by
  constructor
  · intro h
    have h0 : w.getLsbD 30 = false := eq_false_of_ne_true fun hbit => by
      cases (decode_of_srst hbit).symm.trans h
      cases ho
    have h1 : w.getLsbD 31 = true := start_of_decode h h0
    rw [decode_of_launch h0 h1, decodeOp_eq_ok_iff, ho] at h
    obtain ⟨hop, hoperands⟩ := h
    exact ⟨⟨h1, h0, (Option.some.inj hop).symm⟩, hoperands⟩
  · rintro ⟨⟨h1, h0, rfl⟩, hoperands⟩
    exact (decode_of_launch h0 h1).trans (decodeOp_of_operands ho hoperands)

/-- An MTYPE field holds a message id. -/
theorem mtype_toNat_eq_iff {m : BitVec 6} {n : Nat} : m.toNat = n ↔ mtypeFits n = true ∧ m = BitVec.ofNat 6 n := by
  rw [decide_eq_true_iff]
  constructor
  · rintro rfl
    exact ⟨m.isLt, by simp⟩
  · rintro ⟨hn, rfl⟩
    exact Nat.mod_eq_of_lt hn

/-- Settles O2: `usedBits` is R123's mask with the operand fields that `OperandsIn` reads. -/
theorem decodedWordCarriesItsFields : Obligations.DecodedWordCarriesItsFields := by
  unfold Obligations.DecodedWordCarriesItsFields
  intro w i
  cases i with
  | srst =>
    rw [decode_eq_srst_iff, usedBits, encode, and_srstBit]
    cases w.getLsbD 30 <;> decide
  | txtdec t | txtenc t =>
    rw [decode_eq_ok_iff rfl, usedBits, encode, and_selMask_iff, OperandsIn]
    simp only [Instr.wellFormed, true_and]
  | msgdec n v | msgenc n v =>
    rw [decode_eq_ok_iff rfl, usedBits, encode, and_messageMask_iff, OperandsIn, mtype_toNat_eq_iff, Instr.wellFormed]
    tauto
  | _ =>
    rw [decode_eq_ok_iff rfl, usedBits, encode, and_opMask_iff]
    simp only [OperandsIn, Instr.wellFormed, true_and, and_true]

/-- Settles O3: bits 31..30 choose among SRST, no command and a launch, and a launch is `decodeOp` of the OP. -/
theorem decoderTellsCommandsApart : Obligations.DecoderTellsCommandsApart := by
  unfold Obligations.DecoderTellsCommandsApart
  intro w
  rw [and_srstBit, and_launchBits]
  cases h0 : w.getLsbD 30
  case true => exact ⟨fun _ => decode_of_srst h0, by cases w.getLsbD 31 <;> simp, by cases w.getLsbD 31 <;> simp⟩
  case false =>
    cases h1 : w.getLsbD 31
    case false => exact ⟨by simp, fun _ => decode_of_store h0 h1, by simp⟩
    case true =>
      refine ⟨by simp, by simp, ?_⟩
      rintro - _ rfl
      rw [decode_of_launch h0 h1]
      obtain ⟨hres, hd⟩ | ⟨hres, i, hd, hop, -⟩ :=
        decodeOp_cases (fieldOp w) (fieldMtype w) (fieldSel w) (fieldUnits w)
      · exact ⟨fun _ => hd, fun h => absurd hres h⟩
      · exact ⟨fun h => absurd h hres, fun _ => ⟨i, hd, hop⟩⟩

theorem decode_of_encode_eq {w : Word} {i : Instr} (hwf : i.wellFormed = true) (hw : encode i = w) :
    decode w = .ok i := hw ▸ decodeOfEncodeIsIdentity i hwf

/-- Settles O4: each of the six words is the encoding of its command; the seventh has bits 31..30 zero. -/
theorem sampleWordsDecode : Obligations.SampleWordsDecode := by
  unfold Obligations.SampleWordsDecode
  exact ⟨decode_of_encode_eq (i := .getu) rfl rfl, decode_of_encode_eq (i := .msgenc 1 .kmh) rfl rfl,
    decode_of_encode_eq (i := .txtdec .str1) rfl rfl, decode_of_encode_eq (i := .unframe) rfl rfl,
    decode_of_encode_eq (i := .tsresolve) rfl rfl, decode_of_encode_eq (i := .srst) rfl rfl, decode_of_store rfl rfl⟩

/-! ## The assembler's op line -/

/-- R121's formula lays the fields out as R110's table does. -/
theorem asmOpWord_eq_launchWord (o : BitVec 8) (m : BitVec 6) (k : BitVec 2) (u : BitVec 1) :
    asmOpWord o m k u = launchWord o m k u := by
  apply BitVec.eq_of_getLsbD_eq
  intro j hj
  have hstart : (0x80000000#32).getLsbD j = decide (j = 31) := getLsbD_twoPow_word 31 hj
  rw [getLsbD_launchWord]
  simp only [asmOpWord, BitVec.getLsbD_or, BitVec.getLsbD_shiftLeft, BitVec.getLsbD_setWidth, hstart]
  grind

theorem asmOp_eq (o : BitVec 8) (m : BitVec 6) (k : BitVec 2) (u : BitVec 1) :
    asmOp o m k u = [.write .w32 0x004 (launchWord o m k u)] := by
  rw [← asmOpWord_eq_launchWord]
  rfl

/-- SEL's numbers (R115). -/
theorem eq_encodeSel_of_mem {k : BitVec 2} {t : Sel}
    (h : (k, t) ∈ [(0#2, Sel.str0), (1#2, .str1), (2#2, .str2), (3#2, .pay)]) : k = encodeSel t := by
  cases t <;> simpa [encodeSel] using h

/-- UNITS' numbers (43_message_codec.md R236). -/
theorem eq_encodeUnits_of_mem {u : BitVec 1} {v : Units} (h : (u, v) ∈ [(0#1, Units.wire), (1#1, .kmh)]) :
    u = encodeUnits v := by
  cases v <;> simpa [encodeUnits] using h

/-- Settles O5: an op line writes `launchWord` of its fields. -/
theorem opLinesEncodeTheirCommands : Obligations.OpLinesEncodeTheirCommands := by
  unfold Obligations.OpLinesEncodeTheirCommands
  refine ⟨fun o m k u => ⟨launchWord o m k u, asmOp_eq o m k u, toNat_launchWord o m k u, ?_⟩, rfl, rfl⟩
  intro i ho hsel hmsg
  rw [decode_launchWord]
  refine decodeOp_of_operands ho ?_
  cases i with
  | txtdec t => exact eq_encodeSel_of_mem (hsel t (.inl rfl))
  | txtenc t => exact eq_encodeSel_of_mem (hsel t (.inr rfl))
  | msgdec n v => exact (hmsg n v (.inl rfl)).imp_right eq_encodeUnits_of_mem
  | msgenc n v => exact (hmsg n v (.inr rfl)).imp_right eq_encodeUnits_of_mem
  | _ => trivial

/-! ## A reserved OP -/

/-- The completing step of a running operation (log 1): the schedule's turn, or the step of an exhausted schedule. -/
theorem step_completes {s : State} {ts : List Turn} (hb : s.status.busy = true)
    (h : s.turns = .engineComplete :: ts ∨ s.turns = [] ∧ ts = []) :
    step s = engineComplete { s with turns := ts } := by
  rcases h with h | ⟨h, rfl⟩
  · rw [step_cons h]
    exact if_pos hb
  · rw [step_nil h, if_pos hb, withTurns_self h]

/-- Settles O8: the latch is rejected as a reserved OP, and the completion raises BAD_OP. -/
theorem reservedOpcodeCompletesWithBadOp : Obligations.ReservedOpcodeCompletesWithBadOp := by
  unfold Obligations.ReservedOpcodeCompletesWithBadOp
  intro s ts hb hop hts
  have hlatch : latched { s with turns := ts } = .error (.reservedOp s.ctrl.op) :=
    (latched_eq _).trans (decodeOp_of_reserved hop _ _ _)
  rw [step_completes hb hts, engineComplete, hlatch]
  rfl

end Sys2Proof.Machine
end

section
/-! SUPPORT. The bitstream accessor (40_bitaccess.md R140..R151): what NOP, GETU, GETS, SETU, SETS and BUFCLR leave.
O28, O29, O30, O31, O32 and O33. -/

namespace Sys2Proof.Machine

open Sys2Proof

theorem exec_nop (s : State) : exec .nop s = .next (afterSuccess s) := rfl

/-! ## The operations on a field that passes its checks -/

/-- The field of START and WIDTH passes R140's checks. -/
def FieldInRange (s : State) : Prop :=
  1 ≤ s.width.toNat ∧ s.width.toNat ≤ 32 ∧ s.start.toNat + s.width.toNat ≤ 8 * s.bufLen

theorem FieldInRange.fieldCheck_eq_none {s : State} (h : FieldInRange s) : fieldCheck s = none := by
  obtain ⟨h1, h2, hrange⟩ := h
  exact fieldCheck_ok h1 h2 hrange

theorem exec_getu_of_inRange {s : State} (h : FieldInRange s) :
    exec .getu s = .next { afterSuccess s with result := getUnsigned s.mem s.start.toNat s.width.toNat } :=
  conclude_none h.fieldCheck_eq_none _ s

theorem exec_gets_of_inRange {s : State} (h : FieldInRange s) :
    exec .gets s = .next { afterSuccess s with result := getSigned s.mem s.start.toNat s.width.toNat } :=
  conclude_none h.fieldCheck_eq_none _ s

theorem exec_setu_of_inRange {s : State} (h : FieldInRange s) :
    exec .setu s = .next { afterSuccess s with mem := setUnsigned s.mem s.start.toNat s.width.toNat s.value } :=
  conclude_none h.fieldCheck_eq_none _ s

/-- R149: identical bits for identical operands. -/
theorem exec_sets_eq_exec_setu (s : State) : exec .sets s = exec .setu s := rfl

theorem exec_sets_of_inRange {s : State} (h : FieldInRange s) :
    exec .sets s = .next { afterSuccess s with mem := setSigned s.mem s.start.toNat s.width.toNat s.value } :=
  exec_setu_of_inRange h

/-- R140's order of checks, for any operation that makes them first: BAD_WIDTH, BIT_RANGE, then what holds in range. -/
theorem fieldOperation_outcomes {i : Instr} {s t : State} {P : Prop} (hi : exec i s = conclude (fieldCheck s) t s)
    (hok : FieldInRange s → P) :
    ((s.width.toNat < 1 ∨ 32 < s.width.toNat) → exec i s = .next (afterError .badWidth s.width s)) ∧
    (1 ≤ s.width.toNat → s.width.toNat ≤ 32 →
      (8 * s.bufLen < s.start.toNat + s.width.toNat → exec i s = .next (afterError .bitRange s.start s)) ∧
      (s.start.toNat + s.width.toNat ≤ 8 * s.bufLen → P)) := by
  refine ⟨fun hbad => ?_, fun h1 h2 => ⟨fun hrange => ?_, fun h => hok ⟨h1, h2, h⟩⟩⟩
  · exact hi.trans (conclude_some (fieldCheck_badWidth hbad) t s)
  · exact hi.trans (conclude_some (fieldCheck_bitRange h1 h2 hrange) t s)

/-! ## NOP and the reads -/

/-- Settles O28: NOP's effect is the state itself. -/
theorem nopOnlyCompletes : Obligations.NopOnlyCompletes := by
  unfold Obligations.NopOnlyCompletes
  exact ⟨fun w h => decode_of_launchesOp h fun _ _ _ => rfl, exec_nop⟩

/-- Settles O29: `getUnsigned` is the value of R141's loop. -/
theorem getuReadsAnUnsignedField : Obligations.GetuReadsAnUnsignedField := by
  unfold Obligations.GetuReadsAnUnsignedField
  refine ⟨fun w h => decode_of_launchesOp h fun _ _ _ => rfl, fun s => fieldOperation_outcomes rfl fun hs => ?_⟩
  rw [exec_getu_of_inRange hs, getUnsigned_eq_fieldNat]

/-- Settles O30: sign extension of the field's value gives its two's-complement value. -/
theorem getsReadsASignedField : Obligations.GetsReadsASignedField := by
  unfold Obligations.GetsReadsASignedField
  refine ⟨fun w h => decode_of_launchesOp h fun _ _ _ => rfl, fun s => fieldOperation_outcomes rfl fun hs => ?_⟩
  have ⟨h1, h2, _⟩ := hs
  exact ⟨_, exec_gets_of_inRange hs, toInt_getSigned h1 h2 _ _⟩

/-! ## The writes -/

theorem streamBit_setUnsigned_inside {m : Memory} (h : Memory.wf m = true) (s : Nat) {w j : Nat} (v : Word) (hj : j < w) :
    streamBit (setUnsigned m s w v) (s + j) = v.getLsbD (w - 1 - j) := by
  rw [streamBit_eq, bitRd_setUnsigned h, if_pos (by omega), Nat.add_sub_cancel_left]

theorem streamBit_setUnsigned_outside {m : Memory} (h : Memory.wf m = true) {s w k : Nat} (v : Word)
    (hk : k < s ∨ s + w ≤ k) : streamBit (setUnsigned m s w v) k = streamBit m k := by
  rw [streamBit_eq, bitRd_setUnsigned h, if_neg (by omega), streamBit_eq]

theorem fieldWrite_setu : FieldWrite .setu := by
  unfold FieldWrite
  refine fun s => fieldOperation_outcomes rfl fun hs hwf => ⟨_, exec_setu_of_inRange hs, ?_, ?_, ?_⟩
  · exact fun j hj => streamBit_setUnsigned_inside hwf _ _ hj
  · exact fun k hk => streamBit_setUnsigned_outside hwf _ hk
  · intro a ha
    -- The field is not empty, so its last byte is that of stream bit `s + w - 1`.
    have hw : 1 ≤ s.width.toNat := hs.1
    exact readByte_setUnsigned_outside hwf (by simp only [bufBase]; omega)

/-- Settles O31: SETU writes `setUnsigned`'s bits, and SETS is SETU. -/
theorem setuAndSetsWriteAField : Obligations.SetuAndSetsWriteAField := by
  unfold Obligations.SetuAndSetsWriteAField
  exact ⟨fun w h => decode_of_launchesOp h fun _ _ _ => rfl, fun w h => decode_of_launchesOp h fun _ _ _ => rfl,
    fieldWrite_setu, fieldWrite_setu, exec_sets_eq_exec_setu⟩

/-- Settles O32: BUFCLR's memory is `zeroBytes` of all of BUF. -/
theorem bufclrGivesAFreshBuffer : Obligations.BufclrGivesAFreshBuffer := by
  unfold Obligations.BufclrGivesAFreshBuffer
  refine ⟨fun w h => decode_of_launchesOp h fun _ _ _ => rfl, fun s => ⟨fun h => ?_, fun h => ?_⟩⟩
  · exact conclude_some (if_pos h) _ s
  · refine ⟨zeroBytes s.mem bufBase Config.bufBytes, conclude_none (if_neg (Nat.not_lt.2 h)) _ s, ?_, ?_⟩
    · intro j hj
      rw [bufByte, readByte_zeroBytes, if_pos (by simp only [bufBase, Config.bufBytes]; omega)]
    · intro x hx
      rw [readByte_zeroBytes, if_neg (by simp only [bufBase, Config.bufBytes]; omega)]

/-! ## Writes read back -/

/-- Settles O33: R151's three laws of `setUnsigned` and `setSigned`, carried to the operations that call them. -/
theorem fieldsReadBackWhatWasWritten : Obligations.FieldsReadBackWhatWasWritten := by
  unfold Obligations.FieldsReadBackWhatWasWritten
  intro s hwf h1 h2 h
  have hs : FieldInRange s := ⟨h1, h2, h⟩
  refine ⟨⟨_, _, exec_setu_of_inRange hs, exec_getu_of_inRange hs, ?_⟩,
    ⟨_, _, exec_sets_of_inRange hs, exec_gets_of_inRange hs, ?_⟩, ⟨_, exec_setu_of_inRange hs, ?_⟩⟩
  · exact getUnsigned_setUnsigned_same hwf _ h2 _
  · exact getSigned_setSigned_same hwf _ h1 h2
  · intro a w ha1 ha2 ha hdisj
    have hin : FieldInRange { s with start := a, width := w } := ⟨ha1, ha2, ha⟩
    exact ⟨_, _, exec_getu_of_inRange hin, exec_getu_of_inRange hin, getUnsigned_setUnsigned_disjoint hwf hdisj _⟩

end Sys2Proof.Machine
end

section
/-! SUPPORT. The armor codec and the text alphabet (41_armor_text.md R160..R182): what A2V, V2A, ARMDEC, ARMENC, T2V,
V2T, TXTDEC and TXTENC leave. O34, O35, O36, O37, O38, O39, O40, O41, O42 and O43. -/

namespace Sys2Proof.Machine

open Sys2Proof

/-! ## One character -/

theorem valueSextet_eq (s : State) : valueSextet s = s.value.toNat % 64 := by
  simp [valueSextet]

/-- `VALUE[7:0]` of a zero-extended byte is the byte. -/
theorem valueByte_setWidth (s : State) (c : Byte) : valueByte { s with value := c.setWidth 32 } = c := by
  apply BitVec.eq_of_toNat_eq
  have hc := c.isLt
  simp only [valueByte, BitVec.extractLsb'_toNat, BitVec.toNat_setWidth, Nat.shiftRight_zero]
  omega

/-- A zero-extended 6-bit value as a number. -/
theorem toNat_word_of_sextet (n : Nat) : (BitVec.ofNat 32 (n % 64)).toNat = n % 64 := by
  rw [BitVec.toNat_ofNat]
  omega

theorem armorValid_eq_false {c : Byte} (h : ¬IsArmor c) : armorValid c = false := by
  rwa [isArmor_iff, Bool.not_eq_true] at h

theorem exec_a2v_of_readable {s : State} (h : IsArmor (valueByte s) ∨ s.cfg.armorLax = true) :
    exec .a2v s = .next { afterSuccess s with result := BitVec.ofNat 32 (armorNat (valueByte s)) } := by
  rw [armorNat_eq]
  refine conclude_none (armorCheck_ok (h.symm.imp_right fun hc c hmem => ?_)) _ s
  rw [List.mem_singleton.1 hmem]
  exact (isArmor_iff _).1 hc

theorem exec_v2a (s : State) :
    exec .v2a s = .next { afterSuccess s with result := (armorLetter (s.value.toNat % 64)).setWidth 32 } := by
  rw [armorLetter_eq, ← valueSextet_eq]
  exact conclude_none rfl _ s

theorem exec_t2v (s : State) :
    exec .t2v s = .next { afterSuccess s with result := BitVec.ofNat 32 (textNat (valueByte s)) } := by
  rw [textNat_eq]
  exact conclude_none rfl _ s

theorem exec_v2t (s : State) :
    exec .v2t s = .next { afterSuccess s with result := (textLetter (s.value.toNat % 64)).setWidth 32 } := by
  rw [textLetter_eq, ← valueSextet_eq]
  exact conclude_none rfl _ s

/-- Settles O34: the check of a one-character text, and `armorValue` is R161's formula mod 64. -/
theorem a2vGivesTheArmorValue : Obligations.A2vGivesTheArmorValue := by
  unfold Obligations.A2vGivesTheArmorValue
  refine ⟨fun w h => decode_of_launchesOp h fun _ _ _ => rfl, ?_⟩
  rintro s _ rfl
  refine ⟨exec_a2v_of_readable, fun hc hlax => ?_⟩
  have hcheck : armorCheck s.cfg 0 [valueByte s] = some (.armorChar, armorCharInfo (valueByte s) 0) :=
    armorCheck_error (cs := [valueByte s]) hlax Nat.zero_lt_one (armorValid_eq_false hc) fun _ hi =>
      absurd hi (Nat.not_lt_zero _)
  rw [armorCharInfo_eq _ 0 (by decide), Nat.add_zero] at hcheck
  exact conclude_some hcheck _ s

/-- Settles O35: the character V2A gives is in the alphabet, and its value is the one it was made from. -/
theorem v2aGivesTheArmorCharacter : Obligations.V2aGivesTheArmorCharacter := by
  unfold Obligations.V2aGivesTheArmorCharacter
  refine ⟨fun w h => decode_of_launchesOp h fun _ _ _ => rfl, fun s => ?_⟩
  have hv : s.value.toNat % 64 < 64 := Nat.mod_lt _ (by decide)
  have hvalid : IsArmor (armorLetter (s.value.toNat % 64)) := by
    rw [isArmor_iff, armorLetter_eq]
    exact armorChar_valid ⟨_, hv⟩
  refine ⟨_, _, rfl, exec_v2a s, exec_a2v_of_readable (.inl ?_), ?_⟩ <;> rw [valueByte_setWidth]
  · exact hvalid
  · rw [armorNat_eq, armorLetter_eq, armorValue_armorChar hv]
    exact toNat_word_of_sextet _

/-- Settles O39: `textValue` is the value of R168's table with R169's upcasing. -/
theorem t2vGivesTheTextValue : Obligations.T2vGivesTheTextValue := by
  unfold Obligations.T2vGivesTheTextValue
  exact ⟨fun w h => decode_of_launchesOp h fun _ _ _ => rfl, exec_t2v⟩

/-- Settles O40: the character V2T gives has the value it was made from. -/
theorem v2tGivesTheTextCharacter : Obligations.V2tGivesTheTextCharacter := by
  unfold Obligations.V2tGivesTheTextCharacter
  refine ⟨fun w h => decode_of_launchesOp h fun _ _ _ => rfl, fun s => ⟨_, _, rfl, exec_v2t s, exec_t2v _, ?_⟩⟩
  rw [valueByte_setWidth, textNat_eq, textLetter_eq, textValue_textChar (Nat.mod_lt _ (by decide))]
  exact toNat_word_of_sextet _

/-! ## Armored text -/

@[simp] theorem length_txtContents (s : State) : (txtContents s).length = s.txtLen := length_readBytes _ _ _

@[simp] theorem length_bufContents (s : State) : (bufContents s).length = s.bufLen := length_readBytes _ _ _

theorem getElem_txtContents {s : State} {j : Nat} (h : j < (txtContents s).length) :
    (txtContents s)[j] = txtByte s.mem j := getElem_readBytes _ _ _ _ h

theorem getElem_bufContents {s : State} {j : Nat} (h : j < (bufContents s).length) :
    (bufContents s)[j] = bufByte s.mem j := getElem_readBytes _ _ _ _ h

theorem exec_armdec_of_overflow {s : State} (h : 1024 < unpackedLen s.txtLen) :
    exec .armdec s = .next (afterError .lenOverflow (BitVec.ofNat 32 (unpackedLen s.txtLen)) s) := by
  rw [← length_txtContents] at h ⊢
  exact conclude_some (if_pos h) _ s

/-- A text that fits is checked for its characters alone (R177). -/
theorem exec_armdec_of_fits {s : State} (h : unpackedLen s.txtLen ≤ 1024) : exec .armdec s =
    conclude (armorCheck s.cfg 0 (txtContents s)) (loadBuf (decodeArmor (txtContents s)) s) s := by
  have hfits : unpackedLen (txtContents s).length ≤ 1024 := by rwa [length_txtContents]
  exact congrArg (conclude · _ s) (if_neg (Nat.not_lt.2 hfits))

theorem exec_armdec_of_readable {s : State} (h : unpackedLen s.txtLen ≤ 1024)
    (hcheck : armorCheck s.cfg 0 (txtContents s) = none) :
    exec .armdec s = .next (afterSuccess (loadBuf (decodeArmor (txtContents s)) s)) := by
  rw [exec_armdec_of_fits h, conclude_none hcheck]

theorem armorCheck_txt_ok {s : State} (h : s.cfg.armorLax = true ∨ ∀ j < s.txtLen, IsArmor (txtByte s.mem j)) :
    armorCheck s.cfg 0 (txtContents s) = none := by
  refine armorCheck_ok (h.imp_right fun hall c hc => ?_)
  obtain ⟨j, hj, rfl⟩ := List.mem_iff_getElem.1 hc
  rw [getElem_txtContents, ← isArmor_iff]
  exact hall j (by simpa using hj)

theorem armorCheck_txt_error {s : State} {j : Nat} (hj : j < s.txtLen) (hlax : s.cfg.armorLax = false)
    (h : ¬IsArmor (txtByte s.mem j)) (hbefore : ∀ i < j, IsArmor (txtByte s.mem i)) :
    armorCheck s.cfg 0 (txtContents s) = some (.armorChar, armorCharInfo (txtByte s.mem j) j) := by
  have hj' : j < (txtContents s).length := by rwa [length_txtContents]
  rw [armorCheck_error hlax hj' ?_ fun i hi => ?_, getElem_txtContents, Nat.zero_add]
  · rw [getElem_txtContents]
    exact armorValid_eq_false h
  · rw [getElem_txtContents, ← isArmor_iff]
    exact hbefore i hi

theorem afterSuccess_loadBuf {x : List Byte} {n : Nat} (h : x.length = n) (s : State) :
    afterSuccess (loadBuf x s) = { afterSuccess s with mem := writeBytes s.mem bufBase x, bufLen := n } := by
  subst h
  rfl

/-- Settles O36: the checks of the text, then the stream of the unpacked bytes. -/
theorem armdecUnpacksTheText : Obligations.ArmdecUnpacksTheText := by
  unfold Obligations.ArmdecUnpacksTheText
  refine ⟨fun w h => decode_of_launchesOp h fun _ _ _ => rfl,
    fun s => ⟨exec_armdec_of_overflow, fun hfits => ⟨?_, ?_⟩⟩⟩
  · intro j hj hlax hbad hbefore
    have hj16 : j < 65536 := by omega
    rw [exec_armdec_of_fits hfits, conclude_some (armorCheck_txt_error hj hlax hbad hbefore), armorCharInfo_eq _ _ hj16]
  · intro hreadable hwf
    refine ⟨writeBytes s.mem bufBase (decodeArmor (txtContents s)), ?_, fun j hj => ?_, fun k h1 h2 => ?_, ?_⟩
    · have hlen : (decodeArmor (txtContents s)).length = (6 * s.txtLen + 7) / 8 := by simp [unpackedLen]
      rw [exec_armdec_of_readable hfits (armorCheck_txt_ok hreadable), afterSuccess_loadBuf hlen]
    · rw [fieldNat_unpacked hwf _ j (by simpa using hj), getElem_txtContents]
    · exact streamBit_unpacked hwf _ k (by simpa using h1) (by simpa [unpackedLen] using h2)
    · exact bytesKept_writeBytes hwf _ _ (by simp [unpackedLen])

/-- The text ARMENC packs BUF into (R178). -/
def packedText (s : State) : List Byte := encodeArmor s.cfg.armorMin (bufContents s)

@[simp] theorem length_packedText (s : State) : (packedText s).length = armorCount s.cfg.armorMin s.bufLen := by
  rw [packedText, length_encodeArmor, length_bufContents]
  rfl

theorem exec_armenc (s : State) : exec .armenc s = .next (afterSuccess (loadTxt (packedText s) s)) :=
  conclude_none rfl _ s

theorem afterSuccess_loadTxt {x : List Byte} {n : Nat} (h : x.length = n) (s : State) :
    afterSuccess (loadTxt x s) = { afterSuccess s with mem := writeBytes s.mem txtBase x, txtLen := n } := by
  subst h
  rfl

/-- Settles O37: ARMENC stores the packed text of BUF, character by character. -/
theorem armencPacksTheBuffer : Obligations.ArmencPacksTheBuffer := by
  unfold Obligations.ArmencPacksTheBuffer
  refine ⟨fun w h => decode_of_launchesOp h fun _ _ _ => rfl, fun s hwf =>
    ⟨writeBytes s.mem txtBase (packedText s), ?_, fun j hj => ?_, bytesKept_writeBytes hwf _ _ (by simp)⟩⟩
  · rw [exec_armenc, afterSuccess_loadTxt (length_packedText s)]
  · have hj' : j < (packedText s).length := by simpa using hj
    rw [← getElem_encodeArmor_buf s.cfg.armorMin s j hj', Nat.zero_add]
    exact readByte_writeBytes_at hwf _ _ j hj'

/-- The bytes a packed buffer of `l` bytes unpacks to (R165). -/
theorem unpackedLen_armorLen (mn : Bool) (l : Nat) : unpackedLen (armorLen mn l) =
    if mn then (6 * ((8 * l + 5) / 6) + 7) / 8 else 3 * ((l + 2) / 3) := by
  unfold unpackedLen armorLen
  split
  · rfl
  · omega

theorem unpackedLen_armorLen_le (mn : Bool) {l : Nat} (h : l ≤ 1023) : unpackedLen (armorLen mn l) ≤ 1024 := by
  rw [unpackedLen_armorLen]
  split <;> omega

/-- The packed text of a full buffer unpacks to more than BUF holds (R177, log 17). -/
theorem unpackedLen_armorLen_full (mn : Bool) : unpackedLen (armorLen mn 1024) = if mn then 1025 else 1026 := by
  cases mn <;> rfl

/-- ARMDEC on a packed text leaves the packed bytes, then zero bytes (R165). -/
theorem exec_armdec_of_packed {t : State} {mn : Bool} {bs : List Byte} (htxt : txtContents t = encodeArmor mn bs)
    (hfits : bs.length ≤ 1023) : exec .armdec t = .next (afterSuccess (loadBuf
      (bs ++ List.replicate (unpackedLen (armorLen mn bs.length) - bs.length) 0) t)) := by
  have hlen : t.txtLen = armorLen mn bs.length := by rw [← length_txtContents, htxt, length_encodeArmor]
  rw [exec_armdec_of_readable, htxt, decodeArmor_encodeArmor]
  · rw [hlen]
    exact unpackedLen_armorLen_le mn hfits
  · rw [htxt]
    exact armorCheck_encodeArmor _ _ _ _

theorem bufByte_loadBuf {s : State} (h : Memory.wf s.mem = true) {x : List Byte} {j : Nat} (hj : j < x.length) :
    bufByte (afterSuccess (loadBuf x s)).mem j = x[j] := readByte_writeBytes_at h _ _ _ hj

/-- Settles O38: unpacking inverts packing, and a full buffer's text unpacks to 1026 or 1025 bytes. -/
theorem armorRoundTrip : Obligations.ArmorRoundTrip := by
  unfold Obligations.ArmorRoundTrip
  intro s hwf
  refine ⟨fun hlen => ?_, fun hfull => ⟨_, exec_armenc s, ?_⟩⟩
  · have htxt : txtContents (afterSuccess (loadTxt (packedText s) s)) = encodeArmor s.cfg.armorMin (bufContents s) :=
      txtContents_loadTxt hwf _
    have hwf' : Memory.wf (afterSuccess (loadTxt (packedText s) s)).mem = true := wf_writeBytes hwf _ _
    refine ⟨_, _, exec_armenc s, exec_armdec_of_packed htxt (by simpa using hlen), fun j hj => ?_,
      fun j h1 h2 => ?_, ?_⟩
    · rw [bufByte_loadBuf hwf' (by simp; omega), List.getElem_append_left (by simpa using hj), getElem_bufContents]
    · rw [afterSuccess_bufLen, loadBuf_bufLen] at h2
      rw [bufByte_loadBuf hwf' h2, List.getElem_append_right (by simpa using h1), List.getElem_replicate]
    · have hcovers : s.bufLen ≤ unpackedLen (armorLen s.cfg.armorMin s.bufLen) := le_unpackedLen_armorLen _ _
      rw [← unpackedLen_armorLen, afterSuccess_bufLen, loadBuf_bufLen, List.length_append, List.length_replicate,
        length_bufContents, Nat.add_sub_cancel' hcovers]
  · have hlen : (loadTxt (packedText s) s).txtLen = armorLen s.cfg.armorMin 1024 := by
      rw [loadTxt_txtLen, length_packedText, hfull]
      rfl
    rw [exec_armdec_of_overflow] <;> rw [afterSuccess_txtLen, hlen, unpackedLen_armorLen_full]
    · split <;> rfl
    · split <;> decide

/-! ## Text fields -/

theorem textCapacityCheck_overflow {k : Sel} {s : State} (hk : k ≠ .pay) (h : 32 < s.width.toNat / 6) :
    textCapacityCheck k s = some (.lenOverflow, BitVec.ofNat 32 (s.width.toNat / 6)) := by
  cases k with
  | pay => exact absurd rfl hk
  | str0 | str1 | str2 => exact if_pos h

theorem textCapacityCheck_ok {k : Sel} {s : State} (h : k = .pay ∨ s.width.toNat / 6 ≤ 32) :
    textCapacityCheck k s = none := by
  cases k with
  | pay => rfl
  | str0 | str1 | str2 => exact if_neg (Nat.not_lt.2 (h.resolve_left nofun))

/-- A text stored where SEL chooses: its bytes there, the length registers, and RESULT (R181). -/
theorem afterSuccess_storeText (k : Sel) (x : List Byte) (v : Word) (s : State) :
    afterSuccess (setResult v (storeText k x s)) = withTextLength k x.length
      { afterSuccess s with mem := writeBytes s.mem (selOffset k) x, result := v } := by
  cases k <;> rfl

/-- The text of the field at START and WIDTH (R170). -/
def fieldText (s : State) : List Byte := decodeText s.mem s.start.toNat s.width.toNat

theorem exec_txtdec_of_inRange {k : Sel} {s : State} (h : s.start.toNat + s.width.toNat ≤ 8 * s.bufLen) :
    exec (.txtdec k) s = conclude (textCapacityCheck k s)
      (setResult (BitVec.ofNat 32 (fieldText s).length) (storeText k (fieldText s) s)) s := by
  have hchecks : (rangeCheck s).or (textCapacityCheck k s) = textCapacityCheck k s := by
    rw [rangeCheck_ok h, Option.none_or]
  exact congrArg (conclude · _ s) hchecks

theorem exec_txtdec_of_fits {k : Sel} {s : State} (h : s.start.toNat + s.width.toNat ≤ 8 * s.bufLen)
    (hk : k = .pay ∨ s.width.toNat / 6 ≤ 32) : exec (.txtdec k) s = .next (withTextLength k (fieldText s).length
      { afterSuccess s with
        mem := writeBytes s.mem (selOffset k) (fieldText s), result := BitVec.ofNat 32 (fieldText s).length }) := by
  rw [exec_txtdec_of_inRange h, conclude_none (textCapacityCheck_ok hk), afterSuccess_storeText]

theorem exec_txtenc_of_inRange {k : Sel} {s : State} (h : s.start.toNat + s.width.toNat ≤ 8 * s.bufLen) :
    exec (.txtenc k) s = .next { afterSuccess s with
      mem := encodeText s.mem s.start.toNat s.width.toNat (sourceText s k),
      result := BitVec.ofNat 32 (s.width.toNat / 6) } := by
  rw [sourceText_eq]
  exact conclude_none (rangeCheck_ok h) _ s

/-- Settles O41: the checks in R181's order, then the decoded text in the target. -/
theorem txtdecDecodesATextField : Obligations.TxtdecDecodesATextField := by
  unfold Obligations.TxtdecDecodesATextField
  refine ⟨fun p hp w hw hsel => (decode_eq_ok_iff rfl).2 ⟨hw, hsel.trans (eq_encodeSel_of_mem hp)⟩,
    fun s k => ⟨fun hrange => ?_, fun hin => ⟨fun hk hlong => ?_, fun hk hwf => ?_⟩⟩⟩
  · exact conclude_some (congrArg (Option.or · _) (rangeCheck_bitRange hrange)) _ s
  · rw [exec_txtdec_of_inRange hin, conclude_some (textCapacityCheck_overflow hk hlong)]
  · exact ⟨fieldText s, _, decodesTo_decodeText _ _ _, exec_txtdec_of_fits hin hk,
      fun j hj => readByte_writeBytes_at hwf _ _ j hj, bytesKept_writeBytes hwf _ _ rfl⟩

theorem streamBit_encodeText_outside {m : Memory} (h : Memory.wf m = true) {s w b : Nat} (x : List Byte)
    (hb : b < s ∨ s + 6 * (w / 6) ≤ b) : streamBit (encodeText m s w x) b = streamBit m b := by
  rw [streamBit_eq, encodeText_eq_setBits, bitRd_setBits h, length_textBits, if_neg (by omega), streamBit_eq]

theorem readByte_encodeText_outside {m : Memory} (h : Memory.wf m = true) {s w a : Nat} (x : List Byte)
    (ha : a < bufBase ∨ bufBase + (s + 6 * (w / 6) + 7) / 8 ≤ a) :
    readByte (encodeText m s w x) a = readByte m a := by
  rw [encodeText_eq_setBits]
  refine readByte_setBits_outside h ?_
  rw [length_textBits]
  omega

/-- Settles O42: the range check, then `encodeText` of the source. -/
theorem txtencEncodesATextField : Obligations.TxtencEncodesATextField := by
  unfold Obligations.TxtencEncodesATextField
  refine ⟨fun p hp w hw hsel => (decode_eq_ok_iff rfl).2 ⟨hw, hsel.trans (eq_encodeSel_of_mem hp)⟩,
    fun s k => ⟨fun hrange => ?_, fun hin hwf => ?_⟩⟩
  · exact conclude_some (rangeCheck_bitRange hrange) _ s
  · exact ⟨_, exec_txtenc_of_inRange hin, holdsText_encodeText hwf _ _ _,
      fun b hb => streamBit_encodeText_outside hwf _ hb, fun a ha => readByte_encodeText_outside hwf _ ha⟩

/-! ## Text written and read back -/

/-- The SEL value that chooses a string register (30_encoding.md R115). -/
def StrReg.sel : StrReg → Sel
  | .str0 => .str0
  | .str1 => .str1
  | .str2 => .str2

theorem eq_sel_of_mem {k : StrReg} {t : Sel}
    (h : (k, t) ∈ [(StrReg.str0, Sel.str0), (.str1, .str1), (.str2, .str2)]) : t = k.sel := by
  cases k <;> simpa [StrReg.sel] using h

/-- A present string register is its own source (R171). -/
theorem sourceText_of_present {k : StrReg} {s : State} (h : strPresent s k = true) :
    sourceText s k.sel = strText s k := by
  cases k <;> exact if_pos h

/-- A string register that a text was stored in holds the text. -/
theorem strText_withTextLength {s : State} (h : Memory.wf s.mem = true) (k : StrReg) (x : List Byte) (v : Word) :
    strText (withTextLength k.sel x.length
      { afterSuccess s with mem := writeBytes s.mem (selOffset k.sel) x, result := v }) k = x := by
  rw [strText_eq]
  cases k <;> exact readBytes_writeBytes_same h _ x

/-- Settles O43: what TXTENC leaves in the field is what TXTDEC decodes, and a character with a table entry decodes to
its upcased form. -/
theorem textRoundTrip : Obligations.TextRoundTrip := by
  unfold Obligations.TextRoundTrip
  intro s k sel hwf hin hfits hsel hpresent hchars
  obtain rfl := eq_sel_of_mem hsel
  have hheld := holdsText_encodeText hwf s.start.toNat s.width.toNat (strText s k)
  refine ⟨_, _, exec_txtenc_of_inRange hin, exec_txtdec_of_fits hin (.inr hfits), ?_⟩
  rw [strText_withTextLength (wf_encodeText hwf _ _ _), sourceText_of_present hpresent]
  exact decoded_of_holdsText (decodesTo_decodeText _ _ _) hheld hchars

end Sys2Proof.Machine
end

section
/-! SUPPORT. The checksum and the sentence framer (42_checksum_frame.md R200..R207): what CKSUM, FRAME and UNFRAME
leave. O44, O45, O46, O47 and O48. -/

namespace Sys2Proof.Machine

open Sys2Proof

/-! ## A run of bytes, in two parts -/

theorem readBytes_add (m : Memory) (a n k : Nat) :
    readBytes m a (n + k) = readBytes m a n ++ readBytes m (a + n) k := by
  induction n generalizing a with
  | zero => rw [Nat.zero_add]; rfl
  | succ n ih => rw [Nat.succ_add, readBytes, ih, readBytes, List.cons_append, Nat.add_right_comm a 1 n, Nat.add_assoc]

theorem drop_readBytes (m : Memory) (a : Nat) {b n : Nat} (h : b ≤ n) :
    (readBytes m a n).drop b = readBytes m (a + b) (n - b) := by
  obtain ⟨k, rfl⟩ := Nat.exists_eq_add_of_le h
  rw [readBytes_add, List.drop_left' (length_readBytes m a b), Nat.add_sub_cancel_left]

theorem take_readBytes (m : Memory) (a : Nat) {e n : Nat} (h : e ≤ n) :
    (readBytes m a n).take e = readBytes m a e := by
  obtain ⟨k, rfl⟩ := Nat.exists_eq_add_of_le h
  rw [readBytes_add, List.take_left' (length_readBytes m a e)]

/-- Where a text in two parts stands in memory, each part stands. -/
theorem readBytes_parts {m : Memory} {a : Nat} {x y : List Byte} (h : readBytes m a (x ++ y).length = x ++ y) :
    readBytes m a x.length = x ∧ readBytes m (a + x.length) y.length = y := by
  rw [List.length_append, readBytes_add] at h
  exact List.append_inj h (length_readBytes m a x.length)

theorem readByte_of_readBytes {m : Memory} {a : Nat} {x : List Byte} (h : readBytes m a x.length = x) {j : Nat}
    (hj : j < x.length) : readByte m (a + j) = x[j] := by
  rw [← getElem_readBytes m a x.length j (by simpa using hj)]
  simp only [h]

/-! ## The checksum of TXT -/

/-- The first byte of TXT that the checksum covers (R200). -/
def coverStart (s : State) : Nat :=
  if 0 < s.txtLen ∧ (txtByte s.mem 0 = 0x24 ∨ txtByte s.mem 0 = 0x21) then 1 else 0

theorem coverStart_le (s : State) : coverStart s ≤ s.txtLen := by
  unfold coverStart
  split <;> omega

theorem dropMarker_txtContents (s : State) :
    dropMarker (txtContents s) = readBytes s.mem (txtBase + coverStart s) (s.txtLen - coverStart s) := by
  rw [← drop_readBytes _ _ (coverStart_le s), dropMarker_eq, length_txtContents, coverStart]
  congr 1
  rcases Nat.eq_zero_or_pos s.txtLen with h0 | hpos
  · simp [h0]
  · have hfirst : (txtContents s).getD 0 0 = txtByte s.mem 0 := by
      rw [List.getD_eq_getElem _ _ (by simpa using hpos), getElem_txtContents]
    rw [hfirst]

/-- The checksum of TXT is the XOR up to the first `*` or the end (R200). -/
theorem checksum_txtContents (s : State) : ∃ e, coverStart s ≤ e ∧ e ≤ s.txtLen ∧
    (∀ j, coverStart s ≤ j → j < e → txtByte s.mem j ≠ 0x2A) ∧ (e = s.txtLen ∨ txtByte s.mem e = 0x2A) ∧
    checksum (txtContents s) = xorText s.mem (coverStart s) (e - coverStart s) := by
  have hstart := coverStart_le s
  obtain ⟨e, he, htake, hbefore, hend⟩ := scan_end (dropMarker (txtContents s))
  have hbyte : ∀ i (h : i < (dropMarker (txtContents s)).length),
      (dropMarker (txtContents s))[i] = txtByte s.mem (coverStart s + i) := fun i h => by
    simp only [dropMarker_txtContents, getElem_readBytes, txtByte, txtBase, Nat.add_assoc]
  have hlen : (dropMarker (txtContents s)).length = s.txtLen - coverStart s := by
    rw [dropMarker_txtContents, length_readBytes]
  rw [hlen] at he
  refine ⟨coverStart s + e, Nat.le_add_right _ _, by omega, fun j h1 h2 => ?_, ?_, ?_⟩
  · obtain ⟨i, rfl⟩ := Nat.exists_eq_add_of_le h1
    rw [← hbyte i (by omega)]
    exact hbefore i _ (by omega)
  · refine hend.imp (fun h => by omega) fun ⟨h, hstar⟩ => ?_
    rw [← hbyte e h, hstar]
  · rw [Nat.add_sub_cancel_left, xorText_eq, ← take_readBytes _ _ he, ← dropMarker_txtContents, ← htake,
      ← xorToStar_eq]
    rfl

theorem exec_cksum (s : State) :
    exec .cksum s = .next { afterSuccess s with result := checksumWord (checksum (txtContents s)) } := by
  rw [checksumWord_eq]
  exact conclude_none rfl _ s

/-- Settles O44: the checksum is the XOR from `coverStart` to where the scan ends. -/
theorem cksumXorsTheSentence : Obligations.CksumXorsTheSentence := by
  unfold Obligations.CksumXorsTheSentence
  refine ⟨fun w h => decode_of_launchesOp h fun _ _ _ => rfl, fun s => ?_⟩
  obtain ⟨e, h1, h2, hbefore, hend, hsum⟩ := checksum_txtContents s
  exact ⟨coverStart s, e, rfl, h1, h2, hbefore, hend, hsum ▸ exec_cksum s⟩

/-! ## The framed sentence -/

/-- The body of BUF's sentence, up to the `*` (R204). -/
def framedBody (s : State) : List Byte := frameBody s.cfg.armorMin (bufContents s)

/-- BUF's sentence (R204). -/
def framedText (s : State) : List Byte := sentence (framedBody s)

theorem length_framedText (s : State) : (framedText s).length = armorCount s.cfg.armorMin s.bufLen + 21 := by
  rw [framedText, length_sentence, framedBody, length_frameBody, length_bufContents]
  rfl

/-- Memory with BUF's sentence in TXT. Irreducible, so that comparing two memories does not run the store. -/
@[irreducible] def framedMem (s : State) : Memory := writeBytes s.mem txtBase (framedText s)

/-- What FRAME leaves (R204). -/
def framed (s : State) : State :=
  { afterSuccess s with
    mem := framedMem s
    txtLen := armorCount s.cfg.armorMin s.bufLen + 21
    result := checksumWord (checksum (framedBody s)) }

theorem afterSuccess_setResult_loadTxt {x : List Byte} {n : Nat} (h : x.length = n) (v : Word) (s : State) :
    afterSuccess (setResult v (loadTxt x s)) =
      { afterSuccess s with mem := writeBytes s.mem txtBase x, txtLen := n, result := v } := by
  subst h
  rfl

@[simp] theorem framed_mem (s : State) : (framed s).mem = framedMem s := rfl
@[simp] theorem framed_txtLen (s : State) : (framed s).txtLen = armorCount s.cfg.armorMin s.bufLen + 21 := rfl
@[simp] theorem framed_result (s : State) : (framed s).result = checksumWord (checksum (framedBody s)) := rfl

theorem exec_frame (s : State) : exec .frame s = .next (framed s) := by
  rw [framed, framedMem, ← afterSuccess_setResult_loadTxt (length_framedText s), checksumWord_eq]
  exact conclude_none rfl _ s

/-- What follows the payload in a sentence: MID, the `*`, the checksum's digits and CR LF (R202, R204). -/
def frameSuffix (cs : Byte) : List Byte := frameMid ++ [0x2A, hexHigh cs, hexLow cs, 0x0D, 0x0A]

theorem framedText_eq (s : State) :
    framedText s = framePrefix ++ (packedText s ++ frameSuffix (checksum (framedBody s))) := sentence_eq _ _

section
variable {s : State} (h : Memory.wf s.mem = true)
include h

theorem readBytes_framedText : readBytes (framedMem s) txtBase (framedText s).length = framedText s := by
  rw [framedMem]
  exact readBytes_writeBytes_same h _ _

theorem wf_framedMem : Memory.wf (framedMem s) = true := by
  rw [framedMem]
  exact wf_writeBytes h _ _

theorem bytesKept_framed : BytesKept s.mem (framedMem s) txtBase (armorCount s.cfg.armorMin s.bufLen + 21) := by
  rw [framedMem]
  exact bytesKept_writeBytes h _ _ (length_framedText s).symm

theorem txtContents_framed : txtContents (framed s) = framedText s := by
  rw [txtContents, framed_mem, framed_txtLen, ← length_framedText]
  exact readBytes_framedText h

/-- The three parts of the sentence where R204 puts them. -/
theorem framed_parts :
    readBytes (framedMem s) txtBase framePrefix.length = framePrefix ∧
      readBytes (framedMem s) (txtBase + 14) (packedText s).length = packedText s ∧
      readBytes (framedMem s) (txtBase + 14 + (packedText s).length) 7 = frameSuffix (checksum (framedBody s)) := by
  have htext := readBytes_framedText h
  rw [framedText_eq] at htext
  obtain ⟨hprefix, hrest⟩ := readBytes_parts htext
  exact ⟨hprefix, readBytes_parts hrest⟩

theorem txtByte_framed_prefix {j : Nat} (hj : j < 14) : txtByte (framedMem s) j = framePrefix.getD j 0 := by
  obtain ⟨hprefix, -⟩ := framed_parts h
  rw [List.getD_eq_getElem _ _ hj]
  exact readByte_of_readBytes hprefix hj

theorem armorsBuffer_framed :
    ArmorsBuffer s.mem (framedMem s) s.bufLen (armorCount s.cfg.armorMin s.bufLen) 14 := by
  obtain ⟨-, hpayload, -⟩ := framed_parts h
  intro j hj
  have hj' : j < (packedText s).length := by simpa using hj
  rw [← getElem_encodeArmor_buf s.cfg.armorMin s j hj', txtByte, ← Nat.add_assoc]
  exact readByte_of_readBytes hpayload hj'

theorem txtByte_framed_suffix {j : Nat} (hj : j < 7) :
    txtByte (framedMem s) (armorCount s.cfg.armorMin s.bufLen + 14 + j) =
      (frameSuffix (checksum (framedBody s)))[j] := by
  obtain ⟨-, -, hsuffix⟩ := framed_parts h
  rw [length_packedText, Nat.add_assoc, Nat.add_comm 14] at hsuffix
  rw [txtByte, ← Nat.add_assoc]
  exact readByte_of_readBytes hsuffix hj

/-- The digits of the checksum stand before CR LF (R204). -/
theorem txtByte_framed_digits :
    txtByte (framed s).mem ((framed s).txtLen - 4) = hexHigh (checksum (framedBody s)) ∧
      txtByte (framed s).mem ((framed s).txtLen - 3) = hexLow (checksum (framedBody s)) :=
  ⟨txtByte_framed_suffix h (j := 3) (by decide), txtByte_framed_suffix h (j := 4) (by decide)⟩

/-- The bytes after the marker and before the `*`, as they stand in TXT (R204, R206(a)). -/
theorem framedBody_eq_cons :
    framedBody s = 0x21 :: readBytes (framedMem s) (txtBase + 1) (armorCount s.cfg.armorMin s.bufLen + 15) := by
  have htext := readBytes_framedText h
  obtain ⟨hbody, -⟩ := readBytes_parts htext
  have hlen : (framedBody s).length = armorCount s.cfg.armorMin s.bufLen + 16 := by
    have := length_framedText s
    rw [framedText, length_sentence] at this
    omega
  rw [hlen] at hbody
  have hmarker : readByte (framedMem s) txtBase = 0x21 := txtByte_framed_prefix h (j := 0) (by decide)
  rw [← hbody, readBytes, hmarker]

/-- The checksum covers the sentence from after its marker to before its `*` (R206(a)). -/
theorem checksum_framedBody :
    checksum (framedBody s) = xorText (framedMem s) 1 (armorCount s.cfg.armorMin s.bufLen + 15) := by
  have hnostar : ∀ c ∈ framedBody s, c ≠ 0x2A := frameBody_no_star _ _
  rw [framedBody_eq_cons h] at hnostar ⊢
  rw [checksum_marker _ _ (.inr rfl), xorToStar_eq, xorText_eq, List.takeWhile_eq_self_iff.2]
  exact fun c hc => decide_eq_true (hnostar c (List.mem_cons_of_mem _ hc))

end

/-- Settles O45: FRAME stores the sentence's three parts one after the other. -/
theorem frameWrapsTheBuffer : Obligations.FrameWrapsTheBuffer := by
  unfold Obligations.FrameWrapsTheBuffer
  refine ⟨fun w h => decode_of_launchesOp h fun _ _ _ => rfl, ?_⟩
  rintro s _ hwf rfl
  have hsuffix {j : Nat} (hj : j < 7) := txtByte_framed_suffix hwf hj
  exact ⟨framedMem s, checksum (framedBody s), exec_frame s, checksum_framedBody hwf,
    fun j hj => txtByte_framed_prefix hwf hj, armorsBuffer_framed hwf,
    hsuffix (j := 0) (by decide), hsuffix (j := 1) (by decide), hsuffix (j := 2) (by decide),
    (hsuffix (j := 3) (by decide)).trans (hexHigh_eq _), (hsuffix (j := 4) (by decide)).trans (hexLow_eq _),
    hsuffix (j := 5) (by decide), hsuffix (j := 6) (by decide),
    bytesKept_framed hwf⟩

/-! ## The checksum of a framed sentence -/

theorem hexLetter_lt {d : Nat} (h : d < 16) : hexLetter d < 256 := by
  unfold hexLetter
  split <;> omega

/-- RESULT in its parts: the digits above the value (R203). -/
theorem toNat_checksumWord (cs : Byte) : (checksumWord cs).toNat =
    (hexHigh cs).toNat * 256 + (hexLow cs).toNat * 65536 + cs.toNat := by
  have hcs := cs.isLt
  have hhigh := hexLetter_lt (d := cs.toNat / 16) (by omega)
  have hlow := hexLetter_lt (d := cs.toNat % 16) (by omega)
  rw [hexHigh_eq, hexLow_eq, checksumWord, BitVec.toNat_ofNat, BitVec.toNat_ofNat, BitVec.toNat_ofNat]
  omega

/-- Settles O47: the `*` that FRAME puts after the body ends CKSUM's scan. -/
theorem framedSentenceHasItsChecksum : Obligations.FramedSentenceHasItsChecksum := by
  unfold Obligations.FramedSentenceHasItsChecksum
  intro s hwf
  refine ⟨_, _, exec_frame s, exec_cksum _, ?_, ?_⟩
  · rw [txtContents_framed hwf, framedText, framedBody, checksum_sentence]
    rfl
  · obtain ⟨hhigh, hlow⟩ := txtByte_framed_digits hwf
    have hcs := (checksum (framedBody s)).isLt
    rw [hhigh, hlow, framed_result, toNat_checksumWord]
    omega

/-! ## The payload of a sentence -/

/-- Positions chosen below `n` stand in increasing order and lie below `n`. -/
theorem getD_filter_range {p : Nat → Bool} {n i j : Nat} (hij : i < j)
    (hj : j < ((List.range n).filter p).length) :
    ((List.range n).filter p).getD i 0 < ((List.range n).filter p).getD j 0 ∧
      ((List.range n).filter p).getD j 0 < n := by
  have hsorted : ((List.range n).filter p).Pairwise (· < ·) := List.pairwise_lt_range.filter p
  rw [List.getD_eq_getElem _ _ (hij.trans hj), List.getD_eq_getElem _ _ hj]
  refine ⟨List.pairwise_iff_getElem.1 hsorted i j _ hj hij, ?_⟩
  exact List.mem_range.1 (List.mem_of_mem_filter (List.getElem_mem hj))

/-- Six commas bound a payload inside TXT (R205). -/
theorem payloadBounds_of_six {s : State} {c : List Nat} (hc : commaIndices 0 (txtContents s) = c)
    (hsix : 6 ≤ c.length) :
    payloadBounds (commaIndices 0 (txtContents s)) = some (c.getD 4 0 + 1, c.getD 5 0) ∧
      c.getD 4 0 + 1 ≤ c.getD 5 0 ∧ c.getD 5 0 < s.txtLen := by
  refine ⟨by rw [hc, payloadBounds_eq, if_pos hsix], ?_⟩
  rw [commaIndices_txt] at hc
  subst hc
  exact getD_filter_range (by decide) hsix

/-- `TXT[a..b-1]` (R205). -/
def payload (s : State) (a b : Nat) : List Byte := readBytes s.mem (txtBase + a) (b - a)

@[simp] theorem length_payload (s : State) (a b : Nat) : (payload s a b).length = b - a := length_readBytes _ _ _

theorem getElem_payload {s : State} {a b j : Nat} (h : j < (payload s a b).length) :
    (payload s a b)[j] = txtByte s.mem (a + j) := by
  rw [txtByte, ← Nat.add_assoc]
  exact getElem_readBytes _ _ _ _ h

theorem mem_payload {s : State} {a b : Nat} {c : Byte} (h : c ∈ payload s a b) :
    ∃ j, a ≤ j ∧ j < b ∧ txtByte s.mem j = c := by
  obtain ⟨i, hi, rfl⟩ := List.mem_iff_getElem.1 h
  rw [getElem_payload]
  rw [length_payload] at hi
  exact ⟨a + i, Nat.le_add_right a i, by omega, rfl⟩

theorem unpackCheck_overflow (c : Cfg) (j : Nat) {cs : List Byte} (h : 1024 < unpackedLen cs.length) :
    unpackCheck c j cs = some (.lenOverflow, BitVec.ofNat 32 (unpackedLen cs.length)) := if_pos h

theorem unpackCheck_of_fits (c : Cfg) (j : Nat) {cs : List Byte} (h : unpackedLen cs.length ≤ 1024) :
    unpackCheck c j cs = armorCheck c j cs := if_neg (Nat.not_lt.2 h)

theorem armorCheck_payload_error {s : State} {a b j : Nat} (ha : a ≤ j) (hb : j < b) (hlax : s.cfg.armorLax = false)
    (h : ¬IsArmor (txtByte s.mem j)) (hbefore : ∀ i, a ≤ i → i < j → IsArmor (txtByte s.mem i)) :
    armorCheck s.cfg a (payload s a b) = some (.armorChar, armorCharInfo (txtByte s.mem j) j) := by
  obtain ⟨i, rfl⟩ := Nat.exists_eq_add_of_le ha
  have hi : i < (payload s a b).length := by rw [length_payload]; omega
  rw [armorCheck_error hlax hi ?_ fun k hk => ?_, getElem_payload]
  · rw [getElem_payload]
    exact armorValid_eq_false h
  · rw [getElem_payload, ← isArmor_iff]
    exact hbefore _ (Nat.le_add_right a k) (by omega)

theorem armorCheck_payload_ok {s : State} {a b : Nat}
    (h : s.cfg.armorLax = true ∨ ∀ j, a ≤ j → j < b → IsArmor (txtByte s.mem j)) :
    armorCheck s.cfg a (payload s a b) = none := by
  refine armorCheck_ok (h.imp_right fun hall c hc => ?_)
  obtain ⟨j, ha, hb, rfl⟩ := mem_payload hc
  exact (isArmor_iff _).1 (hall j ha hb)

/-! ## UNFRAME -/

/-- Two halves of a word as a number: `(m << 16) | a` (R205). -/
theorem halves_eq (n : Nat) {a : Nat} (h : a < 65536) :
    (BitVec.ofNat 32 n <<< 16) ||| BitVec.ofNat 32 a = BitVec.ofNat 32 (n * 65536 + a) := by
  apply BitVec.eq_of_toNat_eq
  have hshift : (BitVec.ofNat 32 n <<< 16).toNat = (n % 65536) <<< 16 := by
    rw [BitVec.toNat_shiftLeft, BitVec.toNat_ofNat, Nat.shiftLeft_eq, Nat.shiftLeft_eq]
    omega
  rw [BitVec.toNat_or, hshift, BitVec.toNat_ofNat, BitVec.toNat_ofNat, Nat.mod_eq_of_lt (a := a) (by omega),
    ← Nat.shiftLeft_add_eq_or_of_lt (b := a) (i := 16) (by omega), Nat.shiftLeft_eq]
  omega

theorem exec_unframe_of_few {s : State} {c : List Nat} (hc : commaIndices 0 (txtContents s) = c) (h : c.length < 6) :
    exec .unframe s = .next (afterError .frameFormat (BitVec.ofNat 32 c.length) s) := by
  subst hc
  have hbounds : payloadBounds (commaIndices 0 (txtContents s)) = none := by
    rw [payloadBounds_eq, if_neg (Nat.not_le.2 h)]
  simp only [exec, execUnframe, hbounds, raise_eq_afterError]

/-- Where the commas bound a payload, UNFRAME is the unpacking of it (R205). -/
theorem exec_unframe_of_bounds {s : State} {a b : Nat}
    (h : payloadBounds (commaIndices 0 (txtContents s)) = some (a, b)) : exec .unframe s =
      conclude (unpackCheck s.cfg a (payload s a b)) (setResult ((BitVec.ofNat 32 (b - a) <<< 16) ||| BitVec.ofNat 32 a)
        (loadBuf (decodeArmor (payload s a b)) s)) s := by
  simp only [exec, execUnframe, h, unframePayload, payload]

/-- UNFRAME's effect on a payload that passes its checks (R205). -/
theorem exec_unframe_of_readable {s : State} {a b : Nat} (ha : a < 65536)
    (h : payloadBounds (commaIndices 0 (txtContents s)) = some (a, b)) (hfits : unpackedLen (b - a) ≤ 1024)
    (hcheck : armorCheck s.cfg a (payload s a b) = none) : exec .unframe s = .next { afterSuccess s with
      mem := writeBytes s.mem bufBase (decodeArmor (payload s a b))
      bufLen := (decodeArmor (payload s a b)).length
      result := BitVec.ofNat 32 ((b - a) * 65536 + a) } := by
  rw [← length_payload s] at hfits
  rw [exec_unframe_of_bounds h, halves_eq _ ha]
  exact conclude_none ((unpackCheck_of_fits _ _ hfits).trans hcheck) _ s

theorem exec_unframe_of_overflow {s : State} {a b : Nat}
    (h : payloadBounds (commaIndices 0 (txtContents s)) = some (a, b)) (hlong : 1024 < unpackedLen (b - a)) :
    exec .unframe s = .next (afterError .lenOverflow (BitVec.ofNat 32 (unpackedLen (b - a))) s) := by
  rw [← length_payload s] at hlong
  rw [exec_unframe_of_bounds h, conclude_some (unpackCheck_overflow _ _ hlong), length_payload]

theorem exec_unframe_of_invalid {s : State} {a b : Nat} {e : ECode} {i : Word}
    (h : payloadBounds (commaIndices 0 (txtContents s)) = some (a, b)) (hfits : unpackedLen (b - a) ≤ 1024)
    (hcheck : armorCheck s.cfg a (payload s a b) = some (e, i)) : exec .unframe s = .next (afterError e i s) := by
  rw [← length_payload s] at hfits
  rw [exec_unframe_of_bounds h, conclude_some ((unpackCheck_of_fits _ _ hfits).trans hcheck)]

/-- Settles O46: the checks in R205's order, then the stream of the unpacked payload. -/
theorem unframeUnpacksThePayload : Obligations.UnframeUnpacksThePayload := by
  unfold Obligations.UnframeUnpacksThePayload
  refine ⟨fun w h => decode_of_launchesOp h fun _ _ _ => rfl, fun s commas htxt hcommas => ?_⟩
  rw [← commaIndices_txt] at hcommas
  refine ⟨exec_unframe_of_few hcommas.symm, ?_⟩
  rintro hsix a b _ ha hb rfl
  obtain ⟨hbounds, hab, hin⟩ := payloadBounds_of_six hcommas.symm hsix
  rw [← ha, ← hb] at hbounds hab
  rw [← hb] at hin
  refine ⟨hab, exec_unframe_of_overflow hbounds, fun hfits => ⟨fun j h1 h2 hlax hbad hbefore => ?_,
    fun hreadable hwf => ⟨writeBytes s.mem bufBase (decodeArmor (payload s a b)), ?_, fun j hj => ?_,
      fun k h1 h2 => ?_, ?_⟩⟩⟩
  · rw [exec_unframe_of_invalid hbounds hfits (armorCheck_payload_error h1 h2 hlax hbad hbefore),
      armorCharInfo_eq _ j (by omega)]
  · rw [exec_unframe_of_readable (by omega) hbounds hfits (armorCheck_payload_ok hreadable), length_decodeArmor,
      length_payload]
    rfl
  · rw [fieldNat_unpacked hwf _ j (by simpa using hj), getElem_payload]
  · exact streamBit_unpacked hwf _ k (by simpa using h1) (by simpa [unpackedLen] using h2)
  · exact bytesKept_writeBytes hwf _ _ (by simp [unpackedLen])

/-! ## Framed and unframed -/

/-- UNFRAME finds the payload where FRAME put it (R207). -/
theorem payloadBounds_framed {s : State} (h : Memory.wf s.mem = true) :
    payloadBounds (commaIndices 0 (txtContents (framed s))) = some (14, 14 + (packedText s).length) := by
  rw [txtContents_framed h, framedText, framedBody, payloadBounds_sentence, packedText, length_encodeArmor]

theorem payload_framed {s : State} (h : Memory.wf s.mem = true) :
    payload (framed s) 14 (14 + (packedText s).length) = packedText s := by
  obtain ⟨-, hpayload, -⟩ := framed_parts h
  rw [payload, Nat.add_sub_cancel_left]
  exact hpayload

/-- BUF's valid bytes, then the zero bytes that packing and unpacking add (41_armor_text.md R165). -/
def paddedBuf (s : State) : List Byte :=
  bufContents s ++ List.replicate (unpackedLen (armorLen s.cfg.armorMin s.bufLen) - s.bufLen) 0

theorem decodeArmor_packedText (s : State) : decodeArmor (packedText s) = paddedBuf s := by
  rw [packedText, decodeArmor_encodeArmor, length_bufContents]
  rfl

theorem length_paddedBuf (s : State) :
    (paddedBuf s).length = unpackedLen (armorLen s.cfg.armorMin s.bufLen) := by
  rw [← decodeArmor_packedText, length_decodeArmor, packedText, length_encodeArmor, length_bufContents]

theorem getElem_paddedBuf_below {s : State} {j : Nat} (hj : j < s.bufLen) (h : j < (paddedBuf s).length) :
    (paddedBuf s)[j] = bufByte s.mem j := by
  have hj' : j < (bufContents s).length := by rwa [length_bufContents]
  rw [← getElem_bufContents hj']
  exact List.getElem_append_left hj'

theorem getElem_paddedBuf_above {s : State} {j : Nat} (hj : s.bufLen ≤ j) (h : j < (paddedBuf s).length) :
    (paddedBuf s)[j] = 0 := by
  have hj' : (bufContents s).length ≤ j := by rwa [length_bufContents]
  exact (List.getElem_append_right hj').trans (List.getElem_replicate _)

/-- UNFRAME on a framed sentence leaves the padded buffer (R207). -/
theorem exec_unframe_framed {s : State} (h : Memory.wf s.mem = true) (hlen : s.bufLen ≤ 1023) :
    exec .unframe (framed s) = .next { afterSuccess (framed s) with
      mem := writeBytes (framed s).mem bufBase (paddedBuf s)
      bufLen := (paddedBuf s).length
      result := BitVec.ofNat 32 ((packedText s).length * 65536 + 14) } := by
  have hfits : unpackedLen (14 + (packedText s).length - 14) ≤ 1024 := by
    rw [Nat.add_sub_cancel_left, length_packedText]
    exact unpackedLen_armorLen_le _ hlen
  rw [exec_unframe_of_readable (by decide) (payloadBounds_framed h) hfits, payload_framed h, decodeArmor_packedText,
    Nat.add_sub_cancel_left]
  rw [payload_framed h]
  exact armorCheck_encodeArmor _ _ _ _

/-- UNFRAME on the sentence of a full buffer overflows (log 17). -/
theorem exec_unframe_framed_full {s : State} (h : Memory.wf s.mem = true) (hfull : s.bufLen = 1024) :
    exec .unframe (framed s) =
      .next (afterError .lenOverflow (if s.cfg.armorMin then 1025 else 1026) (framed s)) := by
  have hlen : unpackedLen (14 + (packedText s).length - 14) = if s.cfg.armorMin then 1025 else 1026 := by
    rw [Nat.add_sub_cancel_left, length_packedText, hfull]
    exact unpackedLen_armorLen_full _
  rw [exec_unframe_of_overflow (payloadBounds_framed h)] <;> rw [hlen]
  · split <;> rfl
  · split <;> decide

/-- Settles O48: UNFRAME finds the payload FRAME put down, and unpacking inverts packing. -/
theorem frameUnframeRoundTrip : Obligations.FrameUnframeRoundTrip := by
  unfold Obligations.FrameUnframeRoundTrip
  refine fun s hwf => ⟨fun hlen => ⟨_, _, exec_frame s, exec_unframe_framed hwf hlen, fun j hj => ?_,
    fun j h1 h2 => ?_, ?_⟩, fun hfull => ⟨_, exec_frame s, exec_unframe_framed_full hwf hfull⟩⟩
  · have hj' : j < (paddedBuf s).length := by
      rw [length_paddedBuf]
      exact hj.trans_le (le_unpackedLen_armorLen _ _)
    rw [← getElem_paddedBuf_below hj hj']
    exact readByte_writeBytes_at (wf_framedMem hwf) _ _ j hj'
  · rw [← getElem_paddedBuf_above h1 h2]
    exact readByte_writeBytes_at (wf_framedMem hwf) _ _ j h2
  · rw [← unpackedLen_armorLen, ← length_paddedBuf]

end Sys2Proof.Machine
end

section
/-! SUPPORT. The layout ROM and the encoder's walk over it (43_message_codec.md R220..R232, R235): O10, O49 and O50. -/

namespace Sys2Proof.Machine

open Sys2Proof

/-! ## Ids and layouts -/

theorem layoutOf_of_ge {m : Nat} (h : 20 ≤ m) : layoutOf m = none := by
  by_contra hsome
  obtain ⟨lay, hlay⟩ := Option.ne_none_iff_exists'.1 hsome
  exact absurd (layoutOf_lt hlay) (Nat.not_lt.2 h)

/-- With CFG.AIR_ID13 = 0 a layout accepts the ids it handles (R221, R222, R224). -/
theorem mem_acceptedIds_false {m : Nat} {lay : Layout} : m ∈ acceptedIds false lay ↔ layoutOf m = some lay := by
  by_cases hm : m < 20
  · revert m
    cases lay <;> decide
  · have hnone : layoutOf m = none := layoutOf_of_ge (Nat.not_lt.1 hm)
    have hlt : ∀ i ∈ acceptedIds false lay, i < 20 := by cases lay <;> decide
    rw [hnone]
    exact iff_of_false (fun hmem => hm (hlt m hmem)) nofun

theorem layoutOf_eq_none_iff {m : Nat} :
    layoutOf m = none ↔ m ∉ [1, 2, 3, 4, 5, 6, 8, 9, 10, 11, 12, 14, 18, 19] := by
  by_cases hm : m < 20
  · revert m
    decide
  · have hlt : ∀ i ∈ [1, 2, 3, 4, 5, 6, 8, 9, 10, 11, 12, 14, 18, 19], i < 20 := by decide
    exact iff_of_true (layoutOf_of_ge (Nat.not_lt.1 hm)) fun hmem => hm (hlt m hmem)

/-- CFG.AIR_ID13 changes the accepted ids of the aircraft layout alone (R226). -/
theorem mem_acceptedIds_iff {m : Nat} {air : Bool} {lay : Layout} : m ∈ acceptedIds air lay ↔
    if lay = .l9 ∧ air = true then m = 13 else layoutOf m = some lay := by
  split
  case isTrue h =>
    obtain ⟨rfl, rfl⟩ := h
    exact List.mem_singleton
  case isFalse h =>
    have hsame : acceptedIds air lay = acceptedIds false lay := by
      cases lay with
      | l9 =>
        cases air with
        | false => rfl
        | true => exact absurd ⟨rfl, rfl⟩ h
      | _ => rfl
    rw [hsame, mem_acceptedIds_false]

theorem minBytes_le_encodedLen (n : Nat) (lay : Layout) : minBytes lay ≤ encodedLen n lay := by
  cases lay <;> simp only [minBytes, encodedLen] <;> omega

/-- Settles O49: the ids are decided below 20, above which no layout is; the lengths and caps are R235's and R7's. -/
theorem registryOfLayouts : Obligations.RegistryOfLayouts := by
  unfold Obligations.RegistryOfLayouts
  refine ⟨fun m => ?_, fun m => ?_, fun p hp m => ?_, fun m => layoutOf_eq_none_iff,
    fun m air lay => mem_acceptedIds_iff, by decide, fun n => ⟨?_, rfl, rfl, rfl, rfl, rfl, rfl, rfl, ?_, encodedLen_le n .l14⟩, by decide⟩
  · simp [← mem_acceptedIds_false, acceptedIds]
  · simp [← mem_acceptedIds_false, acceptedIds]
  · have hids : ∀ p ∈ [(5, Layout.l5), (6, .l6), (8, .l8), (9, .l9), (10, .l10), (12, .l12), (14, .l14), (18, .l18),
        (19, .l19)], acceptedIds false p.2 = [p.1] := by decide
    rw [← mem_acceptedIds_false, hids p hp, List.mem_singleton]
  · intro lay hlay
    simp only [List.mem_cons, List.not_mem_nil, or_false] at hlay
    rcases hlay with rfl | rfl | rfl | rfl <;> rfl
  · intro lay hlay
    cases lay with
    | l14 => exact absurd rfl hlay
    | _ => simp only [encodedLen, Config.capT6, Config.capT8, Config.capT12]; omega

/-! ## Where the descriptors stand -/

/-- Every descriptor lies inside the bytes a decode needs, and a tail starts where they end (R221, R223, R229). -/
theorem descSpan_inside : ∀ lay : Layout, ∀ d ∈ layoutRom lay,
    (descSpan d).1 + (descSpan d).2 ≤ 8 * minBytes lay ∧ (d.isTail = true → (descSpan d).1 = 8 * minBytes lay) := by
  intro lay
  cases lay <;> decide

/-- Settles O50: the ROM, layout by layout. -/
theorem descriptorsAreDisjointAndInside : Obligations.DescriptorsAreDisjointAndInside := by
  unfold Obligations.DescriptorsAreDisjointAndInside
  exact fun lay => ⟨(rising_layoutRom lay).imp And.right, descSpan_inside lay, by cases lay <;> rfl⟩

/-! ## The encoder's walk -/

/-- An engineAdvance turn moves ENG alone (70_reset_and_hazards.md R363). -/
theorem step_engineAdvance {s : State} {i : Instr} {ts : List Turn} (hb : s.status.busy = true)
    (h : s.turns = .engineAdvance :: ts) (hi : latched s = .ok i) :
    step s = .next { s with turns := ts, eng := advanceEng i s } := by
  have hi' : latched { s with turns := ts } = .ok i := hi
  rw [step_cons h, takeTurn, if_pos hb, engineAdvance, hi']
  cases i <;> rfl

/-- Settles O10: the latch decodes as the word does, so the step is one move of `fsmStep` with the layout's count. -/
theorem encoderWalksItsLayout : Obligations.EncoderWalksItsLayout := by
  unfold Obligations.EncoderWalksItsLayout
  intro s w m u fixed ts hd hc hb hts hsome hnone
  have h0 : w.getLsbD 30 = false := eq_false_of_ne_true fun hbit => by
    rw [decode_of_srst hbit] at hd
    cases hd
  have hcount : runningCount (.msgenc m u) s = fixed.length := by
    cases hl : layoutOf m with
    | none => rw [hnone hl, runningCount, runningLayout, hl]; rfl
    | some lay => rw [hsome lay hl, runningCount, runningLayout, hl]; rfl
  have hstep : step s = .next { s with turns := ts, eng := fsmStep (afterEncodeCheck m) fixed.length s.eng } := by
    rw [step_engineAdvance hb hts (latched_of_decode hd h0 hc), advanceEng, hcount]
  rw [hstep]
  refine ⟨fun hf hm hl => ?_, fun hf hl => ?_, fun hf hi => ?_, fun hf hi => ?_, fun hf => ?_, fun hf => ?_⟩
  · simp only [fsmStep, hf, afterEncodeCheck, if_pos (And.intro hm hl)]
  · have hok : ¬(m ≠ 0 ∧ layoutOf m = none) := by tauto
    simp only [fsmStep, hf, afterEncodeCheck, if_neg hok]
  · simp only [fsmStep, hf, if_pos hi]
  · simp only [fsmStep, hf, if_neg (Nat.not_lt.2 hi)]
  · simp only [fsmStep, hf]
  · rcases hf with hf | hf <;> simp only [fsmStep, hf]

end Sys2Proof.Machine
end

section
/-! SUPPORT. MSGDEC (43_message_codec.md R223, R224, R227, R231, R233, R236, R240): its rejections and the record it
leaves. O51 and O52. -/

namespace Sys2Proof.Machine

open Sys2Proof

/-! ## Launch words with MTYPE and UNITS -/

theorem decodeUnits_eq_kmh_iff (u : BitVec 1) : decodeUnits u = .kmh ↔ u.getLsbD 0 = true := by
  revert u
  decide

/-- A launch word of MSGDEC or MSGENC carries its MTYPE and UNITS (30_encoding.md R110, R236). -/
theorem decode_message_of_launchesOp {o : BitVec 8} {w : Word} {i : Nat → Units → Instr} (h : LaunchesOp o w)
    (hd : ∀ m k u, decodeOp o m k u = .ok (i m.toNat (decodeUnits u))) :
    ∃ u, decode w = .ok (i (w.extractLsb' 8 6).toNat u) ∧ (u = .kmh ↔ w.getLsbD 20 = true) := by
  obtain ⟨h1, h0, rfl⟩ := h
  refine ⟨decodeUnits (fieldUnits w), (decode_of_launch h0 h1).trans (hd _ _ _), ?_⟩
  rw [decodeUnits_eq_kmh_iff, fieldUnits, BitVec.getLsbD_extractLsb']
  simp

/-! ## The verdict of MSGDEC's checks -/

theorem msgdecVerdict_unsupported {m : Nat} (hm : m ≠ 0) (hl : layoutOf m = none) (s : State) :
    msgdecVerdict m s = .unsupported := if_pos ⟨hm, hl⟩

theorem msgdecVerdict_empty {m : Nat} {s : State} (h : m = 0 ∨ layoutOf m ≠ none) (hs : s.bufLen = 0) :
    msgdecVerdict m s = .absent .empty := by
  rw [msgdecVerdict, if_neg (by tauto), if_pos hs]

theorem msgdecVerdict_unknownId {s : State} (hs : s.bufLen ≠ 0) (hl : layoutOf (fieldNat s.mem 0 6) = none) :
    msgdecVerdict 0 s = .absent .unknownId := by
  rw [msgdecVerdict, if_neg (fun h => h.1 rfl), if_neg hs, if_pos rfl, bufferId_eq, hl]

/-- With a layout chosen, its minimum length and its accepted ids decide (R233). -/
theorem msgdecVerdict_of_layout {m : Nat} {s : State} {lay : Layout} (hs : s.bufLen ≠ 0)
    (hl : layoutOf (if m = 0 then fieldNat s.mem 0 6 else m) = some lay) : msgdecVerdict m s = decodeWith lay s := by
  have hsupported : ¬(m ≠ 0 ∧ layoutOf m = none) := by
    rintro ⟨hm, hnone⟩
    rw [if_neg hm, hnone] at hl
    cases hl
  rw [msgdecVerdict, if_neg hsupported, if_neg hs, bufferId_eq, hl]

theorem decodeWith_short {s : State} {lay : Layout} (h : s.bufLen < minBytes lay) :
    decodeWith lay s = .absent .short := if_pos h

theorem decodeWith_idMismatch {s : State} {lay : Layout} (h : minBytes lay ≤ s.bufLen)
    (hid : fieldNat s.mem 0 6 ∉ acceptedIds s.cfg.airId13 lay) : decodeWith lay s = .absent .idMismatch := by
  rw [decodeWith, if_neg (Nat.not_lt.2 h), bufferId_eq, if_neg hid]

/-! ## MSGDEC's outcomes -/

theorem exec_msgdec_of_unsupported {m : Nat} {s : State} (h : msgdecVerdict m s = .unsupported) (u : Units) :
    exec (.msgdec m u) s = .next (afterError .unsupported (BitVec.ofNat 32 m) s) := by
  simp only [exec, execMsgdec, h, raise_eq_afterError]

theorem exec_msgdec_of_absent {m : Nat} {s : State} {r : AReason} (h : msgdecVerdict m s = .absent r) (u : Units) :
    exec (.msgdec m u) s = .next (afterAbsence r s) := by
  simp only [exec, execMsgdec, h, goAbsent_eq_afterAbsence]

theorem exec_msgdec_of_go {m id : Nat} {s : State} {lay : Layout} (h : msgdecVerdict m s = .go lay id) (u : Units) :
    exec (.msgdec m u) s = .next (afterSuccess (decodeRecord u lay id s)) := by
  simp only [exec, execMsgdec, h, succeed_eq_afterSuccess]

/-- A buffer whose id the layout does not accept (R224). -/
theorem exec_msgdec_of_idMismatch {m : Nat} {s : State} {lay : Layout} (hs : s.bufLen ≠ 0)
    (hl : layoutOf (if m = 0 then fieldNat s.mem 0 6 else m) = some lay) (h : minBytes lay ≤ s.bufLen)
    (hid : fieldNat s.mem 0 6 ∉ acceptedIds s.cfg.airId13 lay) (u : Units) :
    exec (.msgdec m u) s = .next (afterAbsence .idMismatch s) :=
  exec_msgdec_of_absent ((msgdecVerdict_of_layout hs hl).trans (decodeWith_idMismatch h hid)) u

/-- Settles O51: the verdict, check by check in R233's order. -/
theorem msgdecRejectsInOrder : Obligations.MsgdecRejectsInOrder := by
  unfold Obligations.MsgdecRejectsInOrder
  intro s m u
  refine ⟨fun hm hl => exec_msgdec_of_unsupported (msgdecVerdict_unsupported hm hl s) u, fun hm =>
    ⟨fun hs => exec_msgdec_of_absent (msgdecVerdict_empty hm hs) u, fun hs => ⟨?unknownId, fun lay hl =>
      ⟨fun hshort => ?short, fun hlong hid => exec_msgdec_of_idMismatch hs hl hlong hid u⟩⟩⟩⟩
  case unknownId =>
    rintro rfl hl
    exact exec_msgdec_of_absent (msgdecVerdict_unknownId hs hl) u
  case short => exact exec_msgdec_of_absent ((msgdecVerdict_of_layout hs hl).trans (decodeWith_short hshort)) u

/-! ## The decoded record -/

/-- The state a successful MSGDEC leaves (R233). -/
def decoded (u : Units) (lay : Layout) (s : State) : State :=
  afterSuccess (decodeRecord u lay (fieldNat s.mem 0 6) s)

theorem exec_msgdec_of_accepted {m : Nat} {s : State} {lay : Layout}
    (hl : layoutOf (if m = 0 then fieldNat s.mem 0 6 else m) = some lay) (h : minBytes lay ≤ s.bufLen)
    (hid : fieldNat s.mem 0 6 ∈ acceptedIds s.cfg.airId13 lay) (u : Units) :
    exec (.msgdec m u) s = .next (decoded u lay s) := exec_msgdec_of_go (msgdecVerdict_go hl h hid) u

/-- A state that keeps the control state, BUF_LEN and TXT_LEN differs in the record, PAY_LEN, RESULT and the bytes. -/
theorem ControlKept.eq_of_lens {s t : State} (h : ControlKept s t) (hb : t.bufLen = s.bufLen)
    (ht : t.txtLen = s.txtLen) : t = { s with
      recs := t.recs, str0 := t.str0, str1 := t.str1, str2 := t.str2, payLen := t.payLen, mem := t.mem
      result := t.result } := by
  cases s
  cases t
  obtain ⟨rfl, rfl, rfl, rfl, rfl, rfl, rfl, rfl, rfl, rfl, rfl, rfl, rfl, rfl, rfl⟩ := h
  cases hb
  cases ht
  rfl

/-- The record MSGDEC commits, before RESULT and the completion (R233). -/
def movedRecord (u : Units) (lay : Layout) (s : State) : State :=
  (layoutRom lay).foldl (decodeField u s) (clearRecord s)

theorem decodeRecord_eq (u : Units) (lay : Layout) (id : Nat) (s : State) :
    decodeRecord u lay id s = setResult (BitVec.ofNat 32 id) (movedRecord u lay s) := rfl

theorem decoded_eq (u : Units) (lay : Layout) (s : State) : decoded u lay s = { afterSuccess s with
    recs := (decoded u lay s).recs, str0 := (decoded u lay s).str0, str1 := (decoded u lay s).str1
    str2 := (decoded u lay s).str2, payLen := (decoded u lay s).payLen, mem := (decoded u lay s).mem
    result := BitVec.ofNat 32 (fieldNat s.mem 0 6) } := by
  have hkept : ControlKept s (movedRecord u lay s) :=
    (controlKept_clearRecord s).trans (controlKept_foldl_decodeField u s _ _)
  obtain ⟨hb, ht⟩ : (movedRecord u lay s).bufLen = s.bufLen ∧ (movedRecord u lay s).txtLen = s.txtLen :=
    lens_foldl_decodeField u s _ _
  rw [decoded, decodeRecord_eq]
  generalize movedRecord u lay s = t at hkept hb ht
  rw [hkept.eq_of_lens hb ht]
  rfl

@[simp] theorem readRec_afterSuccess (s : State) (i : Fin 32) : readRec (afterSuccess s) i = readRec s i := rfl

@[simp] theorem readRec_setResult (v : Word) (s : State) (i : Fin 32) : readRec (setResult v s) i = readRec s i := rfl

@[simp] theorem strCtl_afterSuccess (s : State) (k : StrReg) : strCtl (afterSuccess s) k = strCtl s k := by
  cases k <;> rfl

@[simp] theorem strCtl_setResult (v : Word) (s : State) (k : StrReg) : strCtl (setResult v s) k = strCtl s k := by
  cases k <;> rfl

theorem strCtl_clearRecord (s : State) (k : StrReg) : strCtl (clearRecord s) k = StrCtl.reset := by
  cases k <;> rfl

section

variable (u : Units) (lay : Layout) (s : State)

theorem readRec_decoded (i : Fin 32) : readRec (decoded u lay s) i = readRec (movedRecord u lay s) i := by
  rw [decoded, readRec_afterSuccess, decodeRecord_eq, readRec_setResult]

theorem strCtl_decoded (k : StrReg) : strCtl (decoded u lay s) k = strCtl (movedRecord u lay s) k := by
  rw [decoded, strCtl_afterSuccess, decodeRecord_eq, strCtl_setResult]

theorem payLen_decoded : (decoded u lay s).payLen = (movedRecord u lay s).payLen := by
  rw [decoded, afterSuccess_payLen, decodeRecord_eq, setResult_payLen]

theorem mem_decoded : (decoded u lay s).mem = (movedRecord u lay s).mem := by
  rw [decoded, afterSuccess_mem, decodeRecord_eq, setResult_mem]

theorem result_decoded : (decoded u lay s).result = BitVec.ofNat 32 (fieldNat s.mem 0 6) := by
  rw [decoded, afterSuccess_result, decodeRecord_eq, setResult_result]

end

/-! ## What MSGDEC moves -/

theorem strBase_ne_zero (k : StrReg) : strBase k ≠ 0 := by cases k <;> decide

theorem length_strText (s : State) (k : StrReg) : (strText s k).length = (strCtl s k).len := by
  rw [strText_eq]
  exact length_readBytes _ _ _

/-- The conversion never wraps: its value is below `r` (44_scaling_time.md R280). -/
theorem toNat_sogToKmh (r : Word) : (sogToKmh r).toNat = r.toNat * 1852 / 10000 := by
  have hr := r.isLt
  rw [sogToKmh, BitVec.toNat_ofNat]
  omega

section

variable {u : Units} {lay : Layout} {s : State}

theorem readRec_decoded_target {d : Desc} (hd : d ∈ layoutRom lay) {i : Fin 32} (hi : d.targetsRec i = true) :
    readRec (decoded u lay s) i = decodedWord u s d := by
  rw [readRec_decoded, movedRecord, readRec_foldl_target u s (apart_layoutRom lay) hd hi]

theorem readRec_decoded_unnamed {i : Fin 32} (hi : ∀ d ∈ layoutRom lay, d.targetsRec i = false) :
    readRec (decoded u lay s) i = 0 := by
  rw [readRec_decoded, movedRecord, readRec_foldl_untouched u s _ i hi, readRec_clearRecord]

theorem strCtl_decoded_target {d : Desc} (hd : d ∈ layoutRom lay) {k : StrReg} (hk : d.targetsStr k = true) :
    strCtl (decoded u lay s) k = { len := (decodedText s d).length, present := true } := by
  rw [strCtl_decoded, movedRecord, strCtl_foldl_target u s (apart_layoutRom lay) hd hk]

theorem strCtl_decoded_unnamed {k : StrReg} (hk : ∀ d ∈ layoutRom lay, d.targetsStr k = false) :
    strCtl (decoded u lay s) k = StrCtl.reset := by
  rw [strCtl_decoded, movedRecord, strCtl_foldl_untouched u s _ k hk, strCtl_clearRecord]

theorem payLen_decoded_tail {d : Desc} (hd : d ∈ layoutRom lay) (ht : d.isTail = true) :
    (decoded u lay s).payLen = (decodedText s d).length := by
  rw [payLen_decoded, movedRecord, payLen_foldl_target u s (apart_layoutRom lay) hd ht]

theorem payLen_decoded_fixed (h : ∀ d ∈ layoutRom lay, d.isTail = false) : (decoded u lay s).payLen = 0 := by
  rw [payLen_decoded, movedRecord, payLen_foldl_untouched u s _ h, clearRecord_payLen]

theorem strText_decoded_unnamed {k : StrReg} (hk : ∀ d ∈ layoutRom lay, d.targetsStr k = false) :
    strText (decoded u lay s) k = [] := by
  rw [← List.length_eq_zero_iff, length_strText, strCtl_decoded_unnamed hk, StrCtl.reset]

theorem readBytes_decoded_target (h : Memory.wf s.mem = true) {d : Desc} (hd : d ∈ layoutRom lay)
    (hb : d.textBase ≠ 0) :
    readBytes (decoded u lay s).mem d.textBase (decodedText s d).length = decodedText s d := by
  rw [mem_decoded]
  exact readBytes_foldl_target (apart_layoutRom lay) (textFits_layoutRom lay) hd hb h

/-- A text field's characters stand in its string register (R233). -/
theorem strText_decoded_target (h : Memory.wf s.mem = true) {off w : Nat} {k : StrReg}
    (hd : .t off w k ∈ layoutRom lay) : strText (decoded u lay s) k = decodeText s.mem off w := by
  have hbase : (Desc.t off w k).textBase ≠ 0 := strBase_ne_zero k
  rw [strText_eq, strContents, strCtl_decoded_target hd (beq_self_eq_true k)]
  exact readBytes_decoded_target h hd hbase

/-- A tail stands in PAY (R231, R233). -/
theorem payText_decoded_tail (h : Memory.wf s.mem = true) {d : Desc} (hd : d ∈ layoutRom lay)
    (ht : d.isTail = true) : payText (decoded u lay s) = decodedText s d := by
  have hbase : d.textBase = payBase := by
    cases d with
    | bin off | vtxt off => rfl
    | _ => cases ht
  have hread := readBytes_decoded_target (u := u) h hd (by rw [hbase]; decide)
  rwa [hbase, ← payLen_decoded_tail (u := u) hd ht, ← payContents, ← payText_eq] at hread

/-- What MSGDEC leaves of each descriptor of the layout (R231, R233, R236). -/
theorem decodedField_decoded (h : Memory.wf s.mem = true) {d : Desc} (hd : d ∈ layoutRom lay) :
    DecodedField u s (decoded u lay s) d := by
  have hw := widthFits_layoutRom lay d hd
  cases d with
  | u off w i =>
    have hw : w ≤ 32 := by simpa [Desc.widthFits] using hw
    rw [DecodedField, readRec_decoded_target hd (beq_self_eq_true i), decodedWord, getUnsigned_toNat_eq hw]
  | s off w i =>
    obtain ⟨h1, h2⟩ : 1 ≤ w ∧ w ≤ 32 := by simpa [Desc.widthFits] using hw
    rw [DecodedField, readRec_decoded_target hd (beq_self_eq_true i), decodedWord, toInt_getSigned h1 h2]
  | v off w i =>
    obtain rfl : w = 10 := by simpa [Desc.widthFits] using hw
    cases u with
    | wire =>
      rw [DecodedField, readRec_decoded_target hd (beq_self_eq_true i), decodedWord, speedFromWire,
        getUnsigned_toNat_eq (by decide)]
    | kmh =>
      rw [DecodedField, readRec_decoded_target hd (beq_self_eq_true i), decodedWord, speedFromWire, toNat_sogToKmh,
        getUnsigned_toNat_eq (by decide)]
  | t off w k =>
    rw [DecodedField, strText_decoded_target h hd, strPresent_eq, strCtl_decoded_target hd (beq_self_eq_true k)]
    exact ⟨decodesTo_decodeText _ _ _, rfl⟩
  | bin off =>
    rw [DecodedField, payText_decoded_tail h hd rfl, decodedText, readBytes_eq_map]
    simp only [bufByte, Nat.add_assoc]
  | vtxt off =>
    rw [DecodedField, payText_decoded_tail h hd rfl]
    have hdec := decodesTo_decodeText s.mem off (6 * ((8 * s.bufLen - off) / 6))
    rwa [Nat.mul_div_cancel_left _ (by decide)] at hdec

/-- MSGDEC stores no byte but those of the strings and of PAY that it makes valid (R233). -/
theorem readByte_decoded_outside (h : Memory.wf s.mem = true) {a : Nat}
    (hpay : ∀ j < (decoded u lay s).payLen, a ≠ 0x1000 + j)
    (hstr : ∀ k, (∀ d ∈ layoutRom lay, d.targetsStr k = false) ∨
      ∀ j < (strText (decoded u lay s) k).length, a ≠ strBase k + j) :
    readByte (decoded u lay s).mem a = readByte s.mem a := by
  rw [mem_decoded]
  refine readByte_foldl_decodeField_outside (fun d hd => ?_) h
  have houtside : ∀ {b n : Nat}, (∀ j < n, a ≠ b + j) → a < b ∨ b + n ≤ a := fun {b n} hne => by
    by_contra hin
    exact hne (a - b) (by omega) (by omega)
  cases d with
  | u off w i | s off w i | v off w i => exact .inr (Nat.zero_le a)
  | t off w k =>
    refine houtside ((hstr k).elim (fun hno => ?_) fun hne => ?_)
    · exact absurd (hno _ hd) (by simp [Desc.targetsStr])
    · rwa [strText_decoded_target h hd] at hne
  | bin off | vtxt off =>
    rw [payLen_decoded_tail hd rfl] at hpay
    exact houtside hpay

end

/-- Settles O52: the checks pass, and no two descriptors of a layout share a target, so each is found where it
was moved. -/
theorem msgdecDecodesTheRecord : Obligations.MsgdecDecodesTheRecord := by
  unfold Obligations.MsgdecDecodesTheRecord
  refine ⟨fun w h => decode_message_of_launchesOp h fun _ _ _ => rfl, fun s m u lay hwf hl hmin hid =>
    ⟨decoded u lay s, exec_msgdec_of_accepted hl hmin hid u, decoded_eq u lay s,
      fun d hd => decodedField_decoded hwf hd, fun i hi => readRec_decoded_unnamed hi,
      fun k hk => ⟨strText_decoded_unnamed hk, ?_⟩, payLen_decoded_fixed,
      fun a hpay hstr => readByte_decoded_outside hwf hpay hstr⟩⟩
  rw [strPresent_eq, strCtl_decoded_unnamed hk, StrCtl.reset]

end Sys2Proof.Machine
end

section
/-! SUPPORT. MSGENC (43_message_codec.md R228, R234, R235) and the message round trip (R237). O53 and O54. -/

namespace Sys2Proof.Machine

open Sys2Proof

@[simp] theorem afterSuccess_absent (s : State) : (afterSuccess s).status.absent = false := rfl

@[simp] theorem afterSuccess_err (s : State) : (afterSuccess s).status.err = false := rfl

/-! ## MSGENC's outcomes -/

/-- The state MSGENC of a supported id leaves (R234, R235). -/
def encoded (m : Nat) (u : Units) (lay : Layout) (s : State) : State := afterSuccess (encodeRecord m u lay s)

theorem encoded_eq (m : Nat) (u : Units) (lay : Layout) (s : State) : encoded m u lay s = { afterSuccess s with
    mem := encodedMemory m u lay s, bufLen := encodedLen s.payLen lay
    result := BitVec.ofNat 32 (encodedLen s.payLen lay) } := by
  rw [encoded, encodeRecord]
  generalize encodedMemory m u lay s = mem
  rfl

@[simp] theorem encoded_mem (m : Nat) (u : Units) (lay : Layout) (s : State) :
    (encoded m u lay s).mem = encodedMemory m u lay s := by rw [encoded_eq]

@[simp] theorem encoded_bufLen (m : Nat) (u : Units) (lay : Layout) (s : State) :
    (encoded m u lay s).bufLen = encodedLen s.payLen lay := by rw [encoded_eq]

@[simp] theorem encoded_cfg (m : Nat) (u : Units) (lay : Layout) (s : State) : (encoded m u lay s).cfg = s.cfg := by
  rw [encoded_eq, afterSuccess_cfg]

theorem exec_msgenc_zero (u : Units) (s : State) :
    exec (.msgenc 0 u) s = .next { afterSuccess s with bufLen := 0, result := 0 } := rfl

theorem exec_msgenc_of_unsupported {m : Nat} (hm : m ≠ 0) (hl : layoutOf m = none) (u : Units) (s : State) :
    exec (.msgenc m u) s = .next (afterError .unsupported (BitVec.ofNat 32 m) s) := by
  simp only [exec, execMsgenc, if_neg hm, hl, raise_eq_afterError]

theorem ne_zero_of_layoutOf {m : Nat} {lay : Layout} (hl : layoutOf m = some lay) : m ≠ 0 := by
  rintro rfl
  cases hl

theorem exec_msgenc_of_layout {m : Nat} {lay : Layout} (hl : layoutOf m = some lay) (u : Units) (s : State) :
    exec (.msgenc m u) s = .next (encoded m u lay s) := by
  simp only [exec, execMsgenc, if_neg (ne_zero_of_layoutOf hl), hl, succeed_eq_afterSuccess, encoded]

/-! ## The encoded stream -/

/-- The message id heads every layout (R240). -/
theorem id_mem_layoutRom (lay : Layout) : .u 0 6 0 ∈ layoutRom lay := List.mem_cons_self

/-- The buffer before the descriptors after the id are written: zeros and the id (R234). -/
def idMemory (m : Nat) (s : State) : Memory :=
  setUnsigned (zeroBytes s.mem bufBase Config.bufBytes) 0 6 (BitVec.ofNat 32 m)

theorem encodedMemory_eq (m : Nat) (u : Units) (lay : Layout) (s : State) :
    encodedMemory m u lay s = ((layoutRom lay).drop 1).foldl (encodeField u lay s) (idMemory m s) := rfl

theorem wf_idMemory {s : State} (h : Memory.wf s.mem = true) (m : Nat) : Memory.wf (idMemory m s) = true :=
  wf_setUnsigned (wf_zeroBytes h _ _) _ _ _

/-- A tail's bits are as many as its bytes or characters take up (R231, R235). -/
theorem length_encodedBits_tail (u : Units) (lay : Layout) (s : State) {d : Desc} (ht : d.isTail = true) :
    (encodedBits u lay s d).length = tailBits lay s.payLen d := by
  cases d with
  | bin off => rw [encodedBits, length_byteBits, tailBytes, length_readBytes, tailBits]
  | vtxt off => rw [encodedBits, length_textBits, tailBits]
  | _ => cases ht

/-- No descriptor reaches beyond the encoded bytes (R229, R235). -/
theorem encodedBits_inside (u : Units) {lay : Layout} (s : State) {d : Desc} (hd : d ∈ layoutRom lay) :
    d.offset + (encodedBits u lay s d).length ≤ 8 * encodedLen s.payLen lay := by
  cases ht : d.isTail with
  | true => rw [length_encodedBits_tail u lay s ht, tail_end lay d hd ht]
  | false =>
    rw [length_encodedBits hd ht, offset_eq]
    exact (descSpan_inside lay d hd).1.trans (Nat.mul_le_mul_left 8 (minBytes_le_encodedLen _ _))

section

variable {m : Nat} {u : Units} {lay : Layout} {s : State} (h : Memory.wf s.mem = true)
include h

/-- A bit that a descriptor after the id covers (R229, R234). -/
theorem bitRd_encodedMemory_inside {d : Desc} (hd : d ∈ (layoutRom lay).drop 1) {i : Nat}
    (hi : i < (encodedBits u lay s d).length) :
    bitRd (encodedMemory m u lay s) (d.offset + i) = (encodedBits u lay s d)[i] :=
  bitRd_foldl_encodeField_inside (fun d hd => aligned_layoutRom lay d (List.mem_of_mem_drop hd))
    ((encoded_pairwise u lay s).drop (i := 1)) hd hi (wf_idMemory h m)

/-- A bit that no descriptor after the id covers. -/
theorem bitRd_encodedMemory_outside {k : Nat}
    (hk : ∀ d ∈ (layoutRom lay).drop 1, k < d.offset ∨ d.offset + (encodedBits u lay s d).length ≤ k) :
    bitRd (encodedMemory m u lay s) k = bitRd (idMemory m s) k :=
  bitRd_foldl_encodeField_outside (fun d hd => aligned_layoutRom lay d (List.mem_of_mem_drop hd)) hk (wf_idMemory h m)

/-- The id stands in stream bits 0..5, before every other descriptor (R234, R240). -/
theorem fieldNat_encodedMemory_id (hm : m < 64) : fieldNat (encodedMemory m u lay s) 0 6 = m := by
  have hafter : ∀ d ∈ (layoutRom lay).drop 1, 6 ≤ d.offset := by
    have hp := encoded_pairwise u lay s
    rw [layoutRom_eq_cons, List.pairwise_cons] at hp
    exact hp.1
  have hsame : fieldNat (encodedMemory m u lay s) 0 6 = fieldNat (idMemory m s) 0 6 :=
    fieldNat_congr fun i hi => bitRd_encodedMemory_outside h fun d hd => .inl (by have := hafter d hd; omega)
  rw [hsame, ← getUnsigned_toNat_eq (by decide), idMemory,
    getUnsigned_setUnsigned_same (wf_zeroBytes h _ _) 0 (by decide), BitVec.toNat_ofNat]
  omega

/-- A stream bit of BUF that no descriptor covers is 0 (R228, R234). -/
theorem streamBit_encodedMemory_spare {k : Nat} (hk : k < 8192)
    (hspare : ∀ d ∈ layoutRom lay, k < d.offset ∨ d.offset + (encodedBits u lay s d).length ≤ k) :
    streamBit (encodedMemory m u lay s) k = false := by
  have hid : k < 0 ∨ 0 + 6 ≤ k := hspare _ (id_mem_layoutRom lay)
  have hzero : bitRd (zeroBytes s.mem bufBase Config.bufBytes) k = false := by
    rw [bitRd, readByte_zeroBytes, if_pos (by simp only [bufBase, Config.bufBytes]; omega)]
    exact BitVec.getLsbD_zero
  rw [streamBit_eq, bitRd_encodedMemory_outside h fun d hd => hspare d (List.mem_of_mem_drop hd), idMemory,
    bitRd_setUnsigned (wf_zeroBytes h _ _), if_neg (by omega), hzero]

/-- MSGENC stores only to BUF (R234). -/
theorem bytesKept_encodedMemory : BytesKept s.mem (encodedMemory m u lay s) 0x400 1024 := fun a ha => by
  rw [encodedMemory_eq, readByte_foldl_encodeField_outside (fun d hd => inBuf_layoutRom lay d (List.mem_of_mem_drop hd))
    ha (wf_idMemory h m), idMemory, readByte_setUnsigned_outside (wf_zeroBytes h _ _) (by simp only [bufBase]; omega),
    readByte_zeroBytes, if_neg (by simp only [bufBase, Config.bufBytes]; omega)]

end

/-! ## The encoded fields -/

/-- A byte of BUF whose stream bits are a byte list's. -/
theorem bufByte_of_bits {m : Memory} {o : Nat} {bs : List Byte}
    (h : ∀ i (hi : i < (byteBits bs).length), bitRd m (8 * o + i) = (byteBits bs)[i]) {j : Nat} (hj : j < bs.length) :
    bufByte m (o + j) = bs[j] := by
  refine BitVec.eq_of_getLsbD_eq fun i hi => ?_
  have hlen : 8 * j + (7 - i) < (byteBits bs).length := by rw [length_byteBits]; omega
  have hbit := h _ hlen
  rw [getElem_byteBits bs j (7 - i) hj (by omega), bitRd] at hbit
  rwa [show (8 * o + (8 * j + (7 - i))) / 8 = o + j by omega, show 7 - (8 * o + (8 * j + (7 - i))) % 8 = i by omega,
    show 7 - (7 - i) = i by omega] at hbit

theorem toNat_kmhToSog (k : Word) : (kmhToSog k).toNat = k.toNat * 10000 / 1852 % 2 ^ 32 := BitVec.toNat_ofNat _ _

/-- What MSGENC leaves of each descriptor after the id (R231, R234, R236). -/
theorem encodedField_encodedMemory {m : Nat} {u : Units} {lay : Layout} {s : State} (h : Memory.wf s.mem = true)
    {d : Desc} (hd : d ∈ (layoutRom lay).drop 1) : EncodedField u lay s (encodedMemory m u lay s) d := by
  have hbits := fun i hi => bitRd_encodedMemory_inside (m := m) (u := u) h hd (i := i) hi
  have hnumber : ∀ {w : Nat} (v : Word), encodedBits u lay s d = natBits w v.toNat →
      fieldNat (encodedMemory m u lay s) d.offset w = v.toNat % 2 ^ w := fun v hv => by
    have hfield := fieldNat_of_bits hbits
    rwa [hv, length_natBits, bitsNat_natBits] at hfield
  cases d with
  | u off w i | s off w i => exact hnumber _ rfl
  | v off w i =>
    cases u with
    | wire => exact hnumber _ rfl
    | kmh =>
      have hfield := hnumber (kmhToSog (readRec s i)) rfl
      rwa [toNat_kmhToSog] at hfield
  | t off w k =>
    rw [EncodedField, strOrUnknown_eq]
    exact holdsText_of_bits hbits
  | bin off =>
    intro j hj
    have haligned : 8 * (off / 8) = off := by
      have := aligned_layoutRom lay _ (List.mem_of_mem_drop hd)
      have : off % 8 = 0 := by simpa [Desc.aligned] using this
      omega
    rw [bufByte_of_bits (bs := tailBytes lay s) (by rw [haligned]; exact hbits)
      (by rwa [tailBytes, length_readBytes])]
    exact getElem_readBytes _ _ _ _ _
  | vtxt off =>
    rw [EncodedField, ← tailBytes_eq]
    exact holdsText_of_bits hbits

/-- Settles O53: the descriptors of a layout do not overlap, so each field holds what was written, and the rest the
zeros written first. -/
theorem msgencEncodesTheRecord : Obligations.MsgencEncodesTheRecord := by
  unfold Obligations.MsgencEncodesTheRecord
  refine ⟨fun w h => decode_message_of_launchesOp h fun _ _ _ => rfl, fun s m u => ⟨?zero, fun hm hl =>
    exec_msgenc_of_unsupported hm hl u s, fun lay hl hwf => ⟨encodedMemory m u lay s, ?next,
      fieldNat_encodedMemory_id hwf ((layoutOf_lt hl).trans (by decide)), fun d hd => encodedField_encodedMemory hwf hd,
      fun k hk hspare => streamBit_encodedMemory_spare (u := u) hwf hk fun d hd => ?spare,
      bytesKept_encodedMemory hwf⟩⟩⟩
  case zero =>
    rintro rfl
    exact exec_msgenc_zero u s
  case next => rw [exec_msgenc_of_layout hl, encoded_eq]
  case spare =>
    have hin := encodedBits_inside u s hd
    rw [offset_eq] at hin ⊢
    rcases hspare with hend | hspare
    · exact .inr (hin.trans hend)
    · rcases hspare d hd with ⟨hfixed, hk⟩ | ⟨-, hk⟩
      · rwa [length_encodedBits hd hfixed]
      · exact .inl hk

/-! ## The round trip -/

theorem fieldNat_encoded_id {m : Nat} {lay : Layout} {s : State} (h : Memory.wf s.mem = true)
    (hl : layoutOf m = some lay) (u : Units) : fieldNat (encoded m u lay s).mem 0 6 = m := by
  rw [encoded_mem, fieldNat_encodedMemory_id h ((layoutOf_lt hl).trans (by decide))]

/-- The buffer MSGENC leaves chooses its own layout, for MSGDEC of the id and of any id (R233, R237). -/
theorem layoutOf_encoded {m m' : Nat} {lay : Layout} {s : State} (h : Memory.wf s.mem = true)
    (hl : layoutOf m = some lay) (hm' : m' = m ∨ m' = 0) (u : Units) :
    layoutOf (if m' = 0 then fieldNat (encoded m u lay s).mem 0 6 else m') = some lay := by
  rw [fieldNat_encoded_id h hl u]
  rcases hm' with rfl | rfl
  · rwa [if_neg (ne_zero_of_layoutOf hl)]
  · rwa [if_pos rfl]

theorem minBytes_le_encoded (m : Nat) (u : Units) (lay : Layout) (s : State) :
    minBytes lay ≤ (encoded m u lay s).bufLen := by
  rw [encoded_bufLen]
  exact minBytes_le_encodedLen _ _

/-- Every supported id but 9 under CFG.AIR_ID13 = 1 is accepted by its own layout (R224, R226). -/
theorem mem_acceptedIds_own {m : Nat} {air : Bool} {lay : Layout} (hl : layoutOf m = some lay)
    (hair : ¬(m = 9 ∧ air = true)) : m ∈ acceptedIds air lay := by
  rw [mem_acceptedIds_iff, if_neg, hl]
  rintro ⟨rfl, hair'⟩
  have h9 : m ∈ acceptedIds false .l9 := mem_acceptedIds_false.2 hl
  exact hair ⟨List.mem_singleton.1 h9, hair'⟩

@[simp] theorem length_payText (s : State) : (payText s).length = s.payLen := by
  rw [payText, List.length_map, List.length_range]

/-- A speed whose wire value fits comes back as k - 1 or k (44_scaling_time.md R287). -/
theorem speed_restored {k r : Nat} (h : r = k * 10000 / 1852 * 1852 / 10000) : r = k ∨ r + 1 = k := by
  omega

/-- What was encoded and then decoded is restored (R237). -/
theorem restoredField_of_encoded {u : Units} {lay : Layout} {s t v : State} {d : Desc}
    (ht : t.bufLen = encodedLen s.payLen lay) (hd : d ∈ layoutRom lay) (henc : EncodedField u lay s t.mem d)
    (hdec : DecodedField u t v d) : RestoredField u lay s v d := by
  have hw := widthFits_layoutRom lay d hd
  have hend := tail_end lay d hd
  cases d with
  | u off w i => exact fun _ => hdec.trans henc
  | s off w i =>
    obtain ⟨h1, h2⟩ : 1 ≤ w ∧ w ≤ 32 := by simpa [Desc.widthFits] using hw
    exact hdec.trans (bmod_of_low_bits h1 h2 henc)
  | v off w i =>
    obtain rfl : w = 10 := by simpa [Desc.widthFits] using hw
    cases u with
    | wire => exact hdec.trans henc
    | kmh =>
      intro hfits
      have hwire : fieldNat t.mem off 10 = (readRec s i).toNat * 10000 / 1852 := by
        rw [EncodedField] at henc
        rw [henc, Nat.mod_mod_of_dvd _ (Nat.pow_dvd_pow 2 (by decide)), Nat.mod_eq_of_lt (b := 2 ^ 10) hfits]
      rw [DecodedField, hwire] at hdec
      exact speed_restored hdec
  | t off w k => exact fun halpha => decoded_of_holdsText hdec.1 henc halpha
  | bin off =>
    have hlen : t.bufLen - off / 8 = min s.payLen (tailCap lay) := by
      have := hend rfl s.payLen
      simp only [Desc.offset, tailBits] at this
      omega
    refine hdec.trans ?_
    rw [hlen]
    refine List.ext_getElem (by simp [Nat.min_comm]) fun j h1 h2 => ?_
    simp only [List.getElem_map, List.getElem_range, List.getElem_take, payText]
    exact henc j (by simpa using h1)
  | vtxt off =>
    have hlen : (8 * t.bufLen - off) / 6 = 4 * ((min s.payLen (tailCap lay) + 3) / 4) := by
      have := hend rfl s.payLen
      simp only [Desc.offset, tailBits] at this
      omega
    have hcap : (payText s).take (min s.payLen (tailCap lay)) = (payText s).take (tailCap lay) := by
      rw [List.take_eq_take_iff, length_payText]
      omega
    intro halpha
    rw [DecodedField, hlen] at hdec
    rw [decoded_of_holdsText hdec henc fun c hc => halpha c (List.mem_of_mem_take hc), hcap, List.take_of_length_le]
    rw [List.length_take, length_payText]
    omega

/-- MSGENC of id 9 under CFG.AIR_ID13 = 1 gives a buffer that MSGDEC rejects (R226, R237). -/
theorem exec_msgdec_encoded_of_airId13 {s : State} {m' : Nat} (h : Memory.wf s.mem = true)
    (hair : s.cfg.airId13 = true) (hm' : m' = 9 ∨ m' = 0) (u : Units) :
    exec (.msgdec m' u) (encoded 9 u .l9 s) = .next (afterAbsence .idMismatch (encoded 9 u .l9 s)) := by
  refine exec_msgdec_of_idMismatch ?_ (layoutOf_encoded h rfl hm' u) (minBytes_le_encoded _ _ _ _) ?_ u
  · rw [encoded_bufLen, encodedLen]
    decide
  · rw [fieldNat_encoded_id h rfl, encoded_cfg, hair]
    decide

/-- Settles O54: the encoded buffer passes MSGDEC's checks, and what is encoded and then decoded is restored. -/
theorem messageRoundTrip : Obligations.MessageRoundTrip := by
  unfold Obligations.MessageRoundTrip
  refine ⟨fun s m' u hwf hair hm' => ⟨_, exec_msgenc_of_layout rfl u s, exec_msgdec_encoded_of_airId13 hwf hair hm' u⟩,
    fun s m m' u lay hwf hl hm' hair => ?_⟩
  have hid := fieldNat_encoded_id hwf hl u
  have hwf' : Memory.wf (encoded m u lay s).mem = true := by
    rw [encoded_mem]
    exact wf_encodedMemory hwf m u lay
  have haccept : m ∈ acceptedIds (encoded m u lay s).cfg.airId13 lay := by
    rw [encoded_cfg]
    exact mem_acceptedIds_own hl hair
  have hdec : ∀ d ∈ layoutRom lay, DecodedField u (encoded m u lay s) (decoded u lay (encoded m u lay s)) d :=
    fun d hd => decodedField_decoded hwf' hd
  refine ⟨_, decoded u lay (encoded m u lay s), exec_msgenc_of_layout hl u s,
    exec_msgdec_of_accepted (layoutOf_encoded hwf hl hm' u) (minBytes_le_encoded _ _ _ _) (by rwa [hid]) u,
    (hdec _ (id_mem_layoutRom lay)).trans hid, ?result, afterSuccess_absent _, afterSuccess_err _,
    fun d hd => ?restored⟩
  case result => rw [result_decoded, hid, BitVec.toNat_ofNat, Nat.mod_eq_of_lt ((layoutOf_lt hl).trans (by decide))]
  case restored =>
    have hmem := hd
    rw [layoutRom_eq_cons] at hmem
    rcases List.mem_cons.1 hmem with rfl | hrest
    · exact fun h0 => absurd rfl h0
    · refine restoredField_of_encoded (encoded_bufLen _ _ _ _) hd ?_ (hdec d hd)
      rw [encoded_mem]
      exact encodedField_encodedMemory hwf hrest

end Sys2Proof.Machine
end

section
/-! SUPPORT. Speed conversion and timestamp resolution (44_scaling_time.md R280..R287): what SOG2KMH, KMH2SOG and
TSRESOLVE leave. O55, O56, O57 and O58. -/

namespace Sys2Proof.Machine

open Sys2Proof

/-! ## Speed conversion -/

theorem exec_sog2kmh (s : State) : exec .sog2kmh s = .next { afterSuccess s with result := sogToKmh s.value } := rfl

theorem exec_kmh2sog (s : State) : exec .kmh2sog s = .next { afterSuccess s with result := kmhToSog s.value } := rfl

/-- Settles O55: the quotient of a 32-bit VALUE fits 32 bits, so RESULT is the floor itself. -/
theorem sog2kmhIsTheExactFloor : Obligations.Sog2kmhIsTheExactFloor := by
  unfold Obligations.Sog2kmhIsTheExactFloor
  refine ⟨fun w h => decode_of_launchesOp h fun _ _ _ => rfl, fun s => ⟨_, exec_sog2kmh s, ?_⟩⟩
  rw [toNat_sogToKmh]
  exact ⟨Nat.mul_div_le _ _, Nat.lt_mul_div_succ _ (by decide)⟩

/-- Settles O56: the quotient is the floor, and RESULT is its low word. -/
theorem kmh2sogIsTheFloorModWord : Obligations.Kmh2sogIsTheFloorModWord := by
  unfold Obligations.Kmh2sogIsTheFloorModWord
  exact ⟨fun w h => decode_of_launchesOp h fun _ _ _ => rfl, fun s =>
    ⟨s.value.toNat * 10000 / 1852, Nat.mul_div_le _ _, Nat.lt_mul_div_succ _ (by decide), exec_kmh2sog s⟩⟩

theorem toNat_kmhToSog_of_fits {k : Word} (h : k.toNat * 10000 / 1852 < 2 ^ 32) :
    (kmhToSog k).toNat = k.toNat * 10000 / 1852 := by
  rw [toNat_kmhToSog, Nat.mod_eq_of_lt h]

/-- No wire value grows on the way to km/h and back (R287). -/
theorem toNat_kmhToSog_sogToKmh_le (r : Word) : (kmhToSog (sogToKmh r)).toNat ≤ r.toNat := by
  rw [toNat_kmhToSog, toNat_sogToKmh]
  calc r.toNat * 1852 / 10000 * 10000 / 1852 % 2 ^ 32
    _ ≤ r.toNat * 1852 / 10000 * 10000 / 1852 := Nat.mod_le _ _
    _ ≤ r.toNat * 1852 / 1852 := Nat.div_le_div_right (Nat.div_mul_le_self _ _)
    _ = r.toNat := Nat.mul_div_cancel _ (by decide)

/-- Settles O57: a wire value that fits the word is the floor itself, and the two floors lose less than 2 km/h. -/
theorem speedRoundTripLosesAtMostOne : Obligations.SpeedRoundTripLosesAtMostOne := by
  unfold Obligations.SpeedRoundTripLosesAtMostOne
  refine fun s => ⟨fun hfits => ⟨_, _, exec_kmh2sog s, exec_sog2kmh _, ?back, ?small⟩,
    ⟨_, _, exec_sog2kmh s, exec_kmh2sog _, toNat_kmhToSog_sogToKmh_le s.value⟩⟩
  case back =>
    refine speed_restored ?_
    show (sogToKmh (kmhToSog s.value)).toNat = _
    rw [toNat_sogToKmh, toNat_kmhToSog_of_fits hfits]
  case small =>
    intro h189
    show (kmhToSog s.value).toNat ≤ _
    rw [toNat_kmhToSog_of_fits hfits]
    omega

/-! ## Timestamp resolution -/

/-- The timestamp registers all hold their sentinels (R283). -/
theorem timestampAbsent_iff (s : State) : timestampAbsent s = true ↔
    (readRec s 3).toNat = 0 ∧ (readRec s 4).toNat = 0 ∧ (readRec s 5).toNat = 0 ∧ (readRec s 6).toNat = 24 ∧
      (readRec s 7).toNat = 60 ∧ (readRec s 8).toNat = 60 := by
  simp [timestampAbsent, ← BitVec.toNat_inj, and_assoc]

theorem minuteGuard_iff (s : State) : minuteGuard s = true ↔
    if s.cfg.bsFix then (readRec s 7).toNat = 60 else (readRec s 6).toNat = 60 := by
  cases h : s.cfg.bsFix <;> simp [minuteGuard, h, ← BitVec.toNat_inj]

theorem secondGuard_iff (s : State) : secondGuard s = true ↔
    if s.cfg.bsFix then (readRec s 8).toNat = 60 else (readRec s 6).toNat = 60 := by
  cases h : s.cfg.bsFix <;> simp [secondGuard, h, ← BitVec.toNat_inj]

theorem exec_tsresolve_of_absent {s : State} (h : timestampAbsent s = true) :
    exec .tsresolve s = .next { afterSuccess s with result := 1 } := by
  simp only [exec, execTsresolve, h]
  exact conclude_none rfl _ s

theorem exec_tsresolve_of_not_absent {s : State} (h : ¬timestampAbsent s = true) :
    exec .tsresolve s =
      .next { afterSuccess s with recs := (backfillAll s).recs, result := backfillMask s <<< 8 } := by
  simp only [exec, execTsresolve, if_neg h, conclude_none rfl]
  rw [backfillAll_eq]
  rfl

/-- RESULT of a resolved timestamp, as a number (R286). -/
theorem shifted_backfillMask_eq (s : State) : backfillMask s <<< 8 =
    BitVec.ofNat 32 (256 * ((if (readRec s 3).toNat = 0 then 1 else 0) + (if (readRec s 4).toNat = 0 then 2 else 0) +
      (if (readRec s 5).toNat = 0 then 4 else 0) + (if (readRec s 6).toNat = 24 then 8 else 0) +
      (if minuteGuard s then 16 else 0) + (if secondGuard s then 32 else 0))) := by
  rw [backfillMask, maskWord_eq]
  simp [← BitVec.toNat_inj]

/-- A register that no guard of the timestamp names keeps its value (R286). -/
theorem readRec_backfillAll_outside {i : Fin 32} (h : i.val < 3 ∨ 8 < i.val) (s : State) :
    readRec (backfillAll s) i = readRec s i := by
  have hne : ∀ k : Fin 32, 3 ≤ k.val → k.val ≤ 8 → k ≠ i := by
    rintro k h3 h8 rfl
    omega
  rw [readRec_backfillAll]
  simp [hne 3, hne 4, hne 5, hne 6, hne 7, hne 8]

/-- A backfilled register holds the NOW field zero-extended, another its own value (R286). -/
theorem toNat_ite_setWidth {n : Nat} (hn : n ≤ 32) (p : Prop) [Decidable p] (now : BitVec n) (r : Word) :
    (if p then now.setWidth 32 else r).toNat = if p then now.toNat else r.toNat := by
  rw [apply_ite BitVec.toNat, BitVec.toNat_setWidth_of_le hn]

/-- Settles O58: the absent case is R283's sentinels; otherwise each of REC[3..8] is read after the six backfills. -/
theorem tsresolveBackfillsTheTimestamp : Obligations.TsresolveBackfillsTheTimestamp := by
  unfold Obligations.TsresolveBackfillsTheTimestamp
  refine ⟨fun w h => decode_of_launchesOp h fun _ _ _ => rfl, ?_⟩
  rintro s _ _ _ _ _ _ rfl rfl rfl rfl rfl rfl
  rw [← timestampAbsent_iff]
  refine ⟨exec_tsresolve_of_absent, fun h => ⟨(backfillAll s).recs, minuteGuard s, secondGuard s, _, minuteGuard_iff s,
    secondGuard_iff s, exec_tsresolve_of_not_absent h, by rw [shifted_backfillMask_eq], ?_, ?_, ?_, ?_, ?_, ?_,
    fun i hi => readRec_backfillAll_outside hi s⟩⟩
  all_goals
    show (readRec (backfillAll s) _).toNat = _
    rw [readRec_backfillAll]
    simp [toNat_ite_setWidth, ← BitVec.toNat_inj]

end Sys2Proof.Machine
end

section
/-! SUPPORT. Launch, running and completion (60_exceptions.md R300..R316): what a CTRL write does, what a step that
leaves BUSY set keeps, and STATUS after each outcome. O6, O12, O22 and O27. -/

namespace Sys2Proof.Machine

open Sys2Proof

/-! ## Outcomes -/

/-- Settles O27: `exec_ends` names the outcome, and a success's effect keeps the control state. -/
theorem everyOperationHasOneOutcome : Obligations.EveryOperationHasOneOutcome := by
  unfold Obligations.EveryOperationHasOneOutcome
  intro i s hi
  have hends := exec_ends hi s
  generalize exec i s = o at hends
  cases hends with
  | success u h =>
    exact ⟨_, rfl, ⟨h.ctrl, h.inten, h.start, h.width, h.value, h.now0, h.now1, h.cfg,
      (congrArg Status.werr h.status :), h.rstN, h.turns, h.resp, h.draws⟩,
      .inl ⟨congrArg Status.succeeded h.status, h.errinfo, rfl⟩⟩
  | error e info h =>
    obtain ⟨hnone, hbadOp, hlax⟩ := h
    exact ⟨_, rfl, ⟨rfl, rfl, rfl, rfl, rfl, rfl, rfl, rfl, rfl, rfl, rfl, rfl, rfl⟩,
      .inr (.inl ⟨e, info, hnone, hbadOp, hlax, rfl⟩)⟩
  | absence r m u h him =>
    exact ⟨_, rfl, ⟨rfl, rfl, rfl, rfl, rfl, rfl, rfl, rfl, rfl, rfl, rfl, rfl, rfl⟩,
      .inr (.inr ⟨r, m, u, h, him, rfl⟩)⟩

/-! ## STATUS after a completion -/

theorem afterSuccess_statusWord {s : State} (h : s.status.werr = false) :
    (afterSuccess s).status.toWord = 0x002#32 := by
  apply BitVec.eq_of_toNat_eq
  rw [toNat_status]
  simp [afterSuccess, h, ECode.code, AReason.code]

/-- DONE, ERR and the code in bits 11:8 (10_state.md R33, 60_exceptions.md R304). -/
theorem afterError_statusWord {s : State} (h : s.status.werr = false) (e : ECode) (info : Word) :
    (afterError e info s).status.toWord = BitVec.ofNat 32 (0x006 + 0x100 * e.code.toNat) := by
  apply BitVec.eq_of_toNat_eq
  rw [toNat_status, BitVec.toNat_ofNat, Nat.mod_eq_of_lt (by omega)]
  simp [afterError, h, AReason.code]

/-- DONE, ABSENT and the reason in bits 15:12 (10_state.md R33, 60_exceptions.md R307). -/
theorem afterAbsence_statusWord {s : State} (h : s.status.werr = false) (r : AReason) :
    (afterAbsence r s).status.toWord = BitVec.ofNat 32 (0x00A + 0x1000 * r.code.toNat) := by
  apply BitVec.eq_of_toNat_eq
  rw [toNat_status, BitVec.toNat_ofNat, Nat.mod_eq_of_lt (by omega)]
  simp [afterAbsence, h, ECode.code]

/-- Settles O22: STATUS's word for an arbitrary code or reason, at the values of R304's and R307's tables. -/
theorem statusWordsOfCompletions : Obligations.StatusWordsOfCompletions := by
  unfold Obligations.StatusWordsOfCompletions
  refine fun s h => ⟨afterSuccess_statusWord h, fun p hp info => ?_, fun p hp => ?_⟩
  · rw [afterError_statusWord h]
    revert p
    decide
  · rw [afterAbsence_statusWord h]
    revert p
    decide

/-! ## Writes to CTRL -/

/-- A write to CTRL with SRST = 0 (30_encoding.md R110, 60_exceptions.md R300). -/
theorem step_ctrlWrite {s : State} {w : Word} {ts : List Turn} (hr : s.rstN = true)
    (h : s.turns = .host (.write .w32 0x004 w) :: ts) (h30 : w.getLsbD 30 = false) :
    step s = .next (
      if s.status.busy then dropWrite { s with turns := ts, resp := .done }
      else if w.getLsbD 31 then launch w { s with turns := ts, resp := .done }
      else { s with turns := ts, resp := .done, ctrl := Ctrl.ofWord w }) := by
  rw [step_write hr h (by decide), if_pos (by decide), hostWrite, if_pos rfl, ctrlWrite_eq,
    if_neg (ne_true_of_eq_false h30), apply_ite Host.Outcome.next, apply_ite Host.Outcome.next]

/-- Settles O6: the write is dropped, launches, or stores the fields, by BUSY and START. -/
theorem ctrlWritesLaunchOrStore : Obligations.CtrlWritesLaunchOrStore := by
  unfold Obligations.CtrlWritesLaunchOrStore
  intro s w ts hr h h30
  rw [step_ctrlWrite hr h h30]
  refine ⟨fun hb h31 => ?launches, fun hb h31 => ?stores, fun hb => ?dropped⟩
  case launches => rw [if_neg (ne_true_of_eq_false hb), if_pos h31]; rfl
  case stores => rw [if_neg (ne_true_of_eq_false hb), if_neg (ne_true_of_eq_false h31)]; rfl
  case dropped => rw [if_pos hb]; rfl

/-! ## While an operation runs -/

/-- `t` differs from `s` at most in what no operation reads or commits: STATUS, INTEN, hidden ENG and the model's own
fields. -/
def LaunchStateKept (s t : State) : Prop :=
  t = { s with status := t.status, inten := t.inten, eng := t.eng, turns := t.turns, resp := t.resp, draws := t.draws }

/-- Every command leaves BUSY clear (60_exceptions.md R301, 70_reset_and_hazards.md R342). -/
theorem exec_not_busy {i : Instr} {s t : State} (h : exec i s = .next t) : t.status.busy = false := by
  by_cases hi : i = .srst
  · subst hi
    cases h
    rfl
  · have hends := exec_ends hi s
    rw [h] at hends
    cases hends <;> rfl

theorem engineComplete_not_busy {s t : State} (h : engineComplete s = .next t) : t.status.busy = false := by
  unfold engineComplete at h
  split at h
  · exact exec_not_busy h
  · cases h
    rfl

theorem launchStateKept_engineAdvance (s : State) : LaunchStateKept s (engineAdvance s) := by
  unfold engineAdvance
  split <;> rfl

theorem launchStateKept_hostRead (w : Width) (off : Nat) (s : State) : LaunchStateKept s (hostRead w off s) := by
  obtain ⟨r, d, hread, -⟩ := hostRead_frame w off s
  rw [hread]
  rfl

/-- While BUSY = 1 a write to CTRL is dropped, or is a soft reset, which clears BUSY (70_reset_and_hazards.md R342,
R352). -/
theorem launchStateKept_ctrlWrite {v : Word} {s t : State} (hs : s.status.busy = true) (h : ctrlWrite v s = .next t)
    (ht : t.status.busy = true) : LaunchStateKept s t := by
  rw [ctrlWrite_eq, if_pos hs] at h
  split at h
  case isTrue => simp [exec_not_busy h] at ht
  case isFalse =>
    cases h
    rfl

/-- While BUSY = 1 a write elsewhere reaches STATUS and INTEN alone (70_reset_and_hazards.md R352). -/
theorem launchStateKept_plainWrite {s : State} (hs : s.status.busy = true) (w : Width) (off : Nat) (v : Word) :
    LaunchStateKept s (plainWrite w off v s) := by
  unfold plainWrite
  rw [if_pos hs]
  split
  · rfl
  · split
    · rfl
    · split <;> rfl

theorem launchStateKept_hostWrite {w : Width} {off : Nat} {v : Word} {s t : State} (hs : s.status.busy = true)
    (h : hostWrite w off v s = .next t) (ht : t.status.busy = true) : LaunchStateKept s t := by
  unfold hostWrite at h
  split at h
  · have hkept : LaunchStateKept { s with resp := .done } t := launchStateKept_ctrlWrite hs h ht
    exact hkept
  · cases h
    exact launchStateKept_plainWrite (s := { s with resp := .done }) hs w off v

theorem launchStateKept_hostAccess {a : Access} {s t : State} (hs : s.status.busy = true)
    (h : hostAccess a s = .next t) (ht : t.status.busy = true) : LaunchStateKept s t := by
  unfold hostAccess at h
  split at h
  case isFalse =>
    cases h
    rfl
  case isTrue =>
    cases a with
    | read w off =>
      simp only [apertureAccess] at h
      split at h <;> cases h
      · exact launchStateKept_hostRead w off s
      · rfl
    | write w off v =>
      simp only [apertureAccess] at h
      split at h
      · exact launchStateKept_hostWrite hs h ht
      · cases h
        rfl

/-- A turn ends the operation or keeps what it reads and commits (70_reset_and_hazards.md R363). -/
theorem launchStateKept_takeTurn {turn : Turn} {s t : State} (hs : s.status.busy = true)
    (h : takeTurn turn s = .next t) (ht : t.status.busy = true) : LaunchStateKept s t := by
  cases turn with
  | host a => exact launchStateKept_hostAccess hs h ht
  | engineAdvance =>
    rw [takeTurn, if_pos hs] at h
    cases h
    exact launchStateKept_engineAdvance s
  | engineComplete =>
    rw [takeTurn, if_pos hs] at h
    simp [engineComplete_not_busy h] at ht
  | rstAssert =>
    cases h
    cases ht
  | rstRelease recs cells =>
    simp only [takeTurn] at h
    split at h <;> cases h
    · rfl
    · cases ht

theorem launchStateKept_step {s t : State} (hs : s.status.busy = true) (h : step s = .next t)
    (ht : t.status.busy = true) : LaunchStateKept s t := by
  cases hts : s.turns with
  | cons turn ts =>
    rw [step_cons hts] at h
    have hkept : LaunchStateKept { s with turns := ts } t := launchStateKept_takeTurn hs h ht
    exact hkept
  | nil =>
    rw [step_nil hts, if_pos hs] at h
    simp [engineComplete_not_busy h] at ht

/-- Settles O12: the fields named are among those `LaunchStateKept` leaves alone. -/
theorem runningOperationSeesItsLaunchState : Obligations.RunningOperationSeesItsLaunchState := by
  unfold Obligations.RunningOperationSeesItsLaunchState
  intro s t hs h ht
  have hkept : LaunchStateKept s t := launchStateKept_step hs h ht
  rw [hkept]
  exact ⟨rfl, rfl, rfl, rfl, rfl, rfl, rfl, rfl, rfl, rfl, rfl, rfl, rfl, rfl, rfl, rfl, rfl⟩

end Sys2Proof.Machine
end

section
/-! SUPPORT. Resets and hazards (70_reset_and_hazards.md R340..R363): engine steps, writes while BUSY = 1, the soft reset
and the power-on reset. O9, O11, O13, O23, O24 and O26. -/

namespace Sys2Proof.Machine

open Sys2Proof

/-! ## Engine steps -/

/-- Every operation ends with BUSY clear, DONE set and ENG idle (60_exceptions.md R301). -/
theorem exec_done {i : Instr} (hi : i ≠ .srst) {s t : State} (h : exec i s = .next t) :
    t.status.busy = false ∧ t.status.done = true ∧ t.eng = engIdle := by
  have hends := exec_ends hi s
  rw [h] at hends
  cases hends <;> exact ⟨rfl, rfl, rfl⟩

/-- A completion ends the operation whatever the latch holds: it never holds SRST, and a reserved OP is an error. -/
theorem engineComplete_done {s t : State} (h : engineComplete s = .next t) :
    t.status.busy = false ∧ t.status.done = true ∧ t.eng = engIdle := by
  unfold engineComplete at h
  split at h
  case h_1 i hlatch =>
    rw [latched_eq] at hlatch
    exact exec_done (decodeOp_ne_srst hlatch) h
  case h_2 =>
    cases h
    exact ⟨rfl, rfl, rfl⟩

/-- Settles O11: the step of an exhausted schedule is `engineComplete`, which ends the operation. -/
theorem runningOperationCompletes : Obligations.RunningOperationCompletes := by
  unfold Obligations.RunningOperationCompletes
  intro s hts hb
  obtain ⟨t, ht⟩ := step_next s
  have hcomplete : engineComplete s = .next t := by rw [← ht, step_nil hts, if_pos hb]
  obtain ⟨hbusy, hdone, heng⟩ := engineComplete_done hcomplete
  exact ⟨t, ht, hbusy, hdone, congrArg Eng.phase heng⟩

/-- An engine step that does not complete changes ENG alone and keeps its phase, whatever the latch holds. -/
theorem engineAdvance_hidden (s : State) : ∃ e : Eng, e.phase = s.eng.phase ∧ engineAdvance s = { s with eng := e } := by
  unfold engineAdvance
  split
  case h_1 i _ => exact ⟨advanceEng i s, phase_advanceEng i s, rfl⟩
  case h_2 => exact ⟨s.eng, rfl, rfl⟩

/-- Settles O9: with BUSY = 1 the turn is `engineAdvance`; with BUSY = 0 either engine turn is skipped. -/
theorem engineProgressIsHidden : Obligations.EngineProgressIsHidden := by
  unfold Obligations.EngineProgressIsHidden
  refine fun s ts => ⟨fun hts hb => ?advances, fun hts hb => ?skipped⟩
  case advances =>
    obtain ⟨e, hphase, hadvance⟩ := engineAdvance_hidden { s with turns := ts }
    refine ⟨e, hphase, ?_⟩
    rw [step_cons hts, takeTurn, if_pos hb, hadvance]
  case skipped =>
    rcases hts with hts | hts <;> rw [step_cons hts, takeTurn, if_neg (ne_true_of_eq_false hb)]

/-! ## Writes while BUSY = 1 -/

/-- R352(d)'s locations other than CTRL: the plain registers, then REC to STR2, then BUF to PAY. -/
theorem droppedWhileBusy_iff {a : Nat} : droppedWhileBusy a = true ↔
    a ∈ [0x010, 0x014, 0x018, 0x020, 0x024, 0x028, 0x030, 0x034, 0x038, 0x03C, 0x040, 0x044] ∨
      (0x100 ≤ a ∧ a < 0x1E0) ∨ (0x400 ≤ a ∧ a < 0x1800) := by
  simp only [droppedWhileBusy, plainCsr, Bool.or_eq_true, Bool.and_eq_true, decide_eq_true_eq, inArray_iff,
    List.mem_cons, List.not_mem_nil, or_false]
  omega

/-- Those locations are neither CTRL nor STATUS nor INTEN. -/
theorem ne_of_droppedWhileBusy {a : Nat} (h : droppedWhileBusy a = true) : a ≠ 0x004 ∧ a ≠ 0x008 ∧ a ≠ 0x00C := by
  refine ⟨?_, ?_, ?_⟩ <;> rintro rfl <;> exact absurd h (by decide)

/-- R352(e)'s locations: read-only registers and reserved addresses. -/
theorem droppedWhileBusy_eq_false {a : Nat}
    (h : a ∈ [0x000, 0x01C, 0x02C] ∨ (0x048 ≤ a ∧ a < 0x100) ∨ (0x1E0 ≤ a ∧ a < 0x400) ∨ 0x1800 ≤ a) :
    droppedWhileBusy a = false := by
  rw [← Bool.not_eq_true, droppedWhileBusy_iff]
  simp only [List.mem_cons, List.not_mem_nil, or_false] at h ⊢
  omega

/-- With BUSY = 1 an accepted write to one of them is dropped and sets WERR (R352(d)). -/
theorem step_dropped {s : State} {w : Width} {off : Nat} {v : Word} {ts : List Turn} (hr : s.rstN = true)
    (hb : s.status.busy = true) (h : s.turns = .host (.write w off v) :: ts) (ho : off < 0x2000)
    (ha : accepted w off = true) (hd : droppedWhileBusy off = true) :
    step s = .next (dropWrite { s with turns := ts, resp := .done }) := by
  obtain ⟨h4, h8, h12⟩ := ne_of_droppedWhileBusy hd
  rw [step_plainWrite hr h ho ha h4, plainWrite, if_neg h8, if_neg h12, if_pos hd, if_pos hb]

/-- A CTRL write with SRST = 1 runs the soft reset, BUSY or not, whatever START holds (R342). -/
theorem step_srstWrite {s : State} {v : Word} {ts : List Turn} (hr : s.rstN = true)
    (h : s.turns = .host (.write .w32 0x004 v) :: ts) (h30 : v.getLsbD 30 = true) :
    step s = exec .srst { s with turns := ts, resp := .done } := by
  obtain ⟨-, hwrite⟩ := stepRunsTheDecodedCommand s v .srst ts (decode_of_srst h30)
  exact (hwrite hr h30 h).2

/-- Settles O13: each location is STATUS, INTEN, CTRL, one `droppedWhileBusy` names, or one that ignores the write. -/
theorem writesWhileBusy : Obligations.WritesWhileBusy := by
  unfold Obligations.WritesWhileBusy
  intro s w off v ts hr hb h hw ho
  have hacc : accepted w off = true := by
    rcases hw with ⟨rfl, hoff⟩ | ⟨rfl, hoff⟩ <;> simpa [accepted] using hoff
  have hctrl : off = 0x004 → s.turns = .host (.write .w32 0x004 v) :: ts := by
    rintro rfl
    rcases hw with ⟨rfl, -⟩ | ⟨-, hlow⟩
    · exact h
    · omega
  refine ⟨fun hoff => ?status, fun hoff => ?inten, fun hoff h30 => ?srst, fun hoff => ?dropped, fun hoff => ?ignored⟩
  case status =>
    subst hoff
    exact step_plainWrite hr h ho hacc (by decide)
  case inten =>
    subst hoff
    exact step_plainWrite hr h ho hacc (by decide)
  case srst => exact step_srstWrite hr (hctrl hoff) h30
  case dropped =>
    rcases hoff with ⟨hoff, h30⟩ | hoff
    · rw [step_ctrlWrite hr (hctrl hoff) h30, if_pos hb]
      rfl
    · exact step_dropped hr hb h ho hacc (droppedWhileBusy_iff.2 hoff)
  case ignored =>
    have hne : off ≠ 0x004 ∧ off ≠ 0x008 ∧ off ≠ 0x00C := by
      simp only [List.mem_cons, List.not_mem_nil, or_false] at hoff
      omega
    obtain ⟨h4, h8, h12⟩ := hne
    rw [step_plainWrite hr h ho hacc h4, plainWrite_ignored h8 h12 (droppedWhileBusy_eq_false hoff)]

/-! ## The two resets -/

/-- Settles O23: a CTRL write with SRST = 1 is `step_srstWrite`'s, and `resetRegisters` writes R58's values. -/
theorem softResetClearsRegistersOnly : Obligations.SoftResetClearsRegistersOnly := by
  unfold Obligations.SoftResetClearsRegistersOnly
  exact ⟨fun w h30 => ⟨decode_of_srst h30, fun s ts hr h => step_srstWrite hr h h30⟩, exec_srst⟩

theorem step_rstAssert {s : State} {ts : List Turn} (h : s.turns = .rstAssert :: ts) :
    step s = .next (rstAsserted { s with turns := ts }) := step_cons h

/-- RST_N's release acts while RST_N is asserted (R340). -/
theorem step_rstRelease {s : State} {recs : Vector Word 32} {cells : List Host.Cell} {ts : List Turn}
    (hr : s.rstN = false) (h : s.turns = .rstRelease recs cells :: ts) :
    step s = .next (rstReleased recs cells { s with turns := ts }) := by
  rw [step_cons h, takeTurn, if_neg (ne_true_of_eq_false hr)]

/-- A release leaves R58's values, and canonical contents of the arrays (R59). -/
theorem poweredOn_rstReleased (recs : Vector Word 32) (cells : List Host.Cell) (s : State) :
    (rstReleased recs cells s).PoweredOn := by
  obtain ⟨hwf, hin⟩ := wf_arraysFrom cells
  exact ⟨hwf, hin, rfl⟩

/-- Settles O24: the schedule's three turns in order; an access while RST_N is asserted is not answered. -/
theorem powerOnResetLeavesResetState : Obligations.PowerOnResetLeavesResetState := by
  unfold Obligations.PowerOnResetLeavesResetState
  intro s recs cells a ts h
  exact ⟨_, _, step_rstAssert h, rfl, rfl, rfl, step_unanswered rfl (.inl rfl), step_rstRelease rfl rfl,
    poweredOn_rstReleased _ _ _, rfl, rfl, arraysFrom_canonical⟩

/-! ## The first commands after power-on -/

/-- A powered-on block's BUF and TXT are empty (10_state.md R58). -/
theorem State.PoweredOn.empty {s : State} (h : s.PoweredOn) : s.bufLen = 0 ∧ s.txtLen = 0 := by
  obtain ⟨-, -, hs⟩ := h
  rw [hs]
  exact ⟨rfl, rfl⟩

/-- The checksum of an empty TXT is 0, in hexadecimal `00` (42_checksum_frame.md R200, R203). -/
theorem exec_cksum_of_empty {s : State} (h : s.txtLen = 0) :
    exec .cksum s = .next { afterSuccess s with result := 0x00303000#32 } := by
  have htxt : txtContents s = [] := List.eq_nil_of_length_eq_zero ((length_txtContents s).trans h)
  rw [exec_cksum, htxt]
  rfl

/-- An empty buffer packs into an empty text (41_armor_text.md R178). -/
theorem exec_armenc_of_empty {s : State} (h : s.bufLen = 0) :
    exec .armenc s = .next { afterSuccess s with txtLen := 0 } := by
  have hbuf : bufContents s = [] := List.eq_nil_of_length_eq_zero ((length_bufContents s).trans h)
  have htext : packedText s = [] := by
    rw [packedText, hbuf]
    cases s.cfg.armorMin <;> rfl
  rw [exec_armenc, htext]
  rfl

/-- Settles O26: BUF_LEN and TXT_LEN are 0, whatever REC and the arrays hold. -/
theorem firstCommandsAfterReset : Obligations.FirstCommandsAfterReset := by
  unfold Obligations.FirstCommandsAfterReset
  intro s hs
  obtain ⟨hbuf, htxt⟩ := hs.empty
  exact ⟨exec_cksum_of_empty htxt, exec_msgdec_of_absent (msgdecVerdict_empty (.inl rfl) hbuf),
    exec_armenc_of_empty hbuf⟩

end Sys2Proof.Machine
end
